-- ==== Sys2Proof/Word.lean ====
section
/-! DEFINITION. The word types of the block (00_scope.md R12, R13): bytes, 16-bit registers, command words and the
64-bit operand and result. -/

namespace Sys2Proof

/-- R13: "A byte is 8 bits." -/
abbrev Byte := BitVec 8

/-- A 16-bit register: the length registers, the window, `RPLWANT`, `RETRY` (10_state.md R41). -/
abbrev Half := BitVec 16

/-- R90: "A command word `CW` is 32 bits, always." -/
abbrev CommandWord := BitVec 32

/-- R21: `XS` and `XD`, 64 bits. -/
abbrev Datum := BitVec 64

/-- R13: a byte string, index 0 first. -/
abbrev ByteString := List Byte

/-- `zext_64` of a byte (R15). -/
def datumOfByte (b : Byte) : Datum := b.setWidth 64

/-- `zext_64` of a 16-bit register (R15). -/
def datumOfHalf (h : Half) : Datum := h.setWidth 64

/-- A count stored into a 16-bit register (R12). -/
def half (n : Nat) : Half := BitVec.ofNat 16 n

/-- A natural returned in `XD` (R15). -/
def datum (n : Nat) : Datum := BitVec.ofNat 64 n

end Sys2Proof
end

