-- ==== Sys2Proof/Config.lean ====
section
/-! DEFINITION. What one instance of the hardware fixes (00_scope.md R10, R11): the implementation parameters with
their constraints, and the free values the spec leaves open (the OPEN parameters of the instance, the transport's
answers). -/

namespace Sys2Proof

/-- R46: a Register Descriptor "`(id, width, is_packed_decimal)`". -/
structure RegDescriptor where
  id : Byte
  width : Byte
  isBcd : Bool
deriving DecidableEq, Repr, Inhabited

/-- R47: an entry `(mask, sub)` of `ST1_TABLE` or `ST2_TABLE`. -/
structure MaskEntry where
  mask : Byte
  sub : Byte
deriving DecidableEq, Repr, Inhabited

/-- R48: an entry `(code, sub)` of `ST3_TABLE`. -/
structure CodeEntry where
  code : Half
  sub : Byte
deriving DecidableEq, Repr, Inhabited

/-- One call of the transport port (20_memory.md R66, R67): a packet handed to `TxWrite`, or a `TxRead` with the
count asked for and the answer. -/
inductive TxEvent where
  | write (packet : ByteString)
  | read (asked : Nat) (answer : ByteString)
deriving DecidableEq, Repr

/-- The parameters the spec marks OPEN (R10, 92_eei_decisions.md "Open parameters"), but for `RPT_LAYOUT`, which is
data of the host's program (R283). -/
structure OpenParams where
  /-- `RETRY_CEILING`, a count of empty polls (R224, R235). -/
  retryCeiling : Nat
  /-- `RDREG_ID` (R245). -/
  rdregId : BitVec 24
  /-- `REG_TABLE` (R46, R240). -/
  regTable : List RegDescriptor
  /-- `ST1_TABLE` (R47, R262). -/
  st1Table : List MaskEntry
  /-- `ST2_TABLE` (R47, R262). -/
  st2Table : List MaskEntry
  /-- `ST3_TABLE` (R48, R264). -/
  st3Table : List CodeEntry
deriving DecidableEq, Repr, Inhabited

/-- R10: all the parameters of an instance. `TRAILER_W` and `ACK_W` are fixed, see `trailerW` and `ackW`. -/
structure Params extends OpenParams where
  argCap : Nat := 256
  cmdCap : Nat := 256
  rplCap : Nat := 1024
  resCap : Nat := 1024
  stx : Byte := 0x02#8
deriving DecidableEq, Repr, Inhabited

/-- R10: `TRAILER_W`, fixed. -/
def trailerW : Nat := 2

/-- R10: `ACK_W`, fixed. -/
def ackW : Nat := 1

/-- R10, R47: "masks strictly descending, 1 ≤ mask ≤ 255". -/
def descendingMasks (t : List MaskEntry) : Bool :=
  decide (t.Pairwise (fun a b => b.mask.toNat < a.mask.toNat)) && t.all (fun e => e.mask != 0#8)

/-- R10, R46: "ids unique, 0 ≤ id ≤ 255, 1 ≤ width ≤ 255, at most 256 entries". -/
def legalRegTable (t : List RegDescriptor) : Bool :=
  decide (t.Pairwise (fun a b => a.id ≠ b.id)) && t.all (fun e => e.width != 0#8) && decide (t.length ≤ 256)

/-- R10, R262: "masks strictly descending, 1 ≤ mask ≤ 255; first entry is `(0x80, 1)`; no entry has mask 0x02". -/
def legalSt1Table (t : List MaskEntry) : Bool :=
  descendingMasks t && t.all (fun e => e.mask != 0x02#8) && decide (t.head? = some ⟨0x80#8, 1#8⟩)

/-- R10, R48: "codes unique, 1 ≤ code ≤ 65535". -/
def legalSt3Table (t : List CodeEntry) : Bool :=
  decide (t.Pairwise (fun a b => a.code ≠ b.code)) && t.all (fun e => e.code != 0#16)

/-- R10: the constraints on the OPEN parameters. -/
def OpenParams.legal (p : OpenParams) : Bool :=
  decide (1 ≤ p.retryCeiling) && decide (p.retryCeiling ≤ 65535) && legalRegTable p.regTable &&
    legalSt1Table p.st1Table && descendingMasks p.st2Table && legalSt3Table p.st3Table

/-- R10: the constraints on all parameters. The upper bound 65535 on `ARG_CAP` and `RES_CAP` is DEDUCED from the
16 bits of `ARGLEN`, `RESLEN` and of system registers 0x12, 0x15 (R23, R26, R41); unsafe, entry 4. -/
def Params.legal (p : Params) : Bool :=
  p.toOpenParams.legal &&
    decide (255 ≤ p.argCap) && decide (p.argCap ≤ 65535) &&
    decide (4 ≤ p.cmdCap) && decide (p.cmdCap ≤ 65533) &&
    decide (258 ≤ p.rplCap) && decide (p.rplCap ≤ 65535) &&
    decide (510 ≤ p.resCap) && decide (p.resCap ≤ 65535)

/-- The fixture `FX` of 95_test_vectors.md section 0: "one legal value of the open parameters", with no normative
standing. Used by the tests, and to show that legal parameters exist. -/
def Config.fixture : OpenParams where
  retryCeiling := 3
  rdregId := 0x23#24
  regTable := [⟨6, 3, true⟩, ⟨0, 15, false⟩, ⟨23, 6, true⟩, ⟨17, 1, false⟩]
  st1Table := [⟨0x80, 1⟩, ⟨0x20, 2⟩, ⟨0x04, 3⟩]
  st2Table := [⟨0x40, 6⟩, ⟨0x20, 5⟩, ⟨0x01, 4⟩]
  st3Table := [⟨1, 4⟩, ⟨7, 8⟩]

/-- OPEN parameters that meet their constraints: "a configuration that breaks one is not a configuration of this
hardware" (R10). -/
structure LegalOpenParams where
  params : OpenParams := Config.fixture
  legal : params.legal = true := by decide
deriving DecidableEq, Repr, Inhabited

/-- R10: a configuration of this hardware: parameters that meet every constraint. Illegal parameters cannot be
written down as a `Configuration` (the treatment `refuse` of 93_implementation_defined.md U3, U5, U6, U8). -/
structure Configuration where
  params : Params
  legal : params.legal = true
deriving DecidableEq, Repr

/-- FREE VALUE (DESIGN CHOICE, safe, entry 3): the OPEN parameters the hardware instance was built with. Nothing can
be proved of them but that they are legal. -/
opaque Config.openParams : LegalOpenParams

/-- The instance that `State.reset` is the reset state of: the spec's default capacities and `STX` (R10), OPEN
parameters free (entry 3). -/
def Config.built : Configuration where
  params := { toOpenParams := Config.openParams.params }
  legal := by simp [Params.legal, Config.openParams.legal]

/-- FREE VALUE (DESIGN CHOICE, safe, entry 2): what the transport answers to `TxRead(k)` after the port events `log`
(newest first), where the state scripts no answer. R67: "`TxRead` is an oracle: a free input of the step". -/
opaque Config.transportAnswer (log : List TxEvent) (k : Nat) : ByteString

end Sys2Proof
end

