-- ==== Sys2Proof/Syntax.lean ====
section
/-! DEFINITION. The operations (30_encoding.md R101): one constructor for each row of the opcode table, in its order.
An operand has the type of its field, so every term of `Instr` is well formed (R99: every immediate is the unsigned
integer its field holds). -/

namespace Sys2Proof

/-- R101: the 39 operations. `w`, `sc`, `e` are the fields `W`, `S`, `E` of format F (R97). -/
inductive Instr where
  | nop
  | fack
  | srst
  | srRd (n : Byte)
  | argClr
  | argPush (b : Byte)
  | argRes
  | resRd (idx : Half)
  | payRd (idx : Half)
  | fencTxt (w : Byte)
  | fencNum (w : Byte) (sc e : BitVec 4)
  | fencNumd (w : Byte)
  | fencBcd (w : Byte) (sc e : BitVec 4)
  | fencBcdd (w : Byte)
  | fencRaw (w : Byte)
  | fdecTxt (w : Byte)
  | fdecNum (w : Byte) (sc : BitVec 4)
  | fdecBcd (w : Byte) (sc : BitVec 4)
  | fdecRaw (w : Byte)
  | fpackTxt (w : Byte)
  | fpackNum (w : Byte) (sc e : BitVec 4)
  | fpackNumd (w : Byte)
  | fpackBcd (w : Byte) (sc e : BitVec 4)
  | fpackBcdd (w : Byte)
  | fpackRaw (w : Byte)
  | funpkTxt (w : Byte)
  | funpkNum (w : Byte) (sc : BitVec 4)
  | funpkBcd (w : Byte) (sc : BitVec 4)
  | funpkRaw (w : Byte)
  | cmdBegin (id : BitVec 24)
  | cmdPush (b : Byte)
  | csum
  | cmdSend (n : Half)
  | cmdSendr (n : Half)
  | xpRead (n : Half)
  | regLookup (id : Byte)
  | regRead (id : Byte)
  | stDecode
  | st3Decode
deriving DecidableEq, Repr

end Sys2Proof
end

