-- ==== Sys2Proof/WellFormed.lean ====
section
/-! DEFINITION. Which command words are legal (30_encoding.md R100), said by the rows of the opcode table (R101) and
independently of the decoder, which goes by the formats and the field combinations of R98. -/

namespace Sys2Proof

/-- R101: a row of the opcode table. -/
structure WordRow where
  mnemonic : String
  pattern : CommandWord
  mask : CommandWord
deriving DecidableEq, Repr

/-- R100: `(CW & mask) = match`. -/
def WordRow.admits (r : WordRow) (cw : CommandWord) : Bool := cw &&& r.mask == r.pattern

/-- R101, the system and buffer rows. -/
def systemRows : List WordRow :=
  [⟨"NOP", 0x00000000, 0xFFFFFFFF⟩, ⟨"FACK", 0x01000000, 0xFFFFFFFF⟩, ⟨"SRST", 0x02000000, 0xFFFFFFFF⟩,
   ⟨"SR.RD", 0x03000000, 0xFFFFFF00⟩, ⟨"ARG.CLR", 0x10000000, 0xFFFFFFFF⟩, ⟨"ARG.PUSH", 0x11000000, 0xFFFFFF00⟩,
   ⟨"ARG.RES", 0x12000000, 0xFFFFFFFF⟩, ⟨"RES.RD", 0x13000000, 0xFFFF0000⟩, ⟨"PAY.RD", 0x14000000, 0xFFFF0000⟩]

/-- R101, the rows of `FENC.*` and `FDEC.*`. -/
def codecRows : List WordRow :=
  [⟨"FENC.TXT", 0x20000000, 0xFF00FFFF⟩, ⟨"FENC.NUM", 0x20000030, 0xFF0000FF⟩, ⟨"FENC.NUMD", 0x20000038, 0xFF00FFFF⟩,
   ⟨"FENC.BCD", 0x20000050, 0xFF0000FF⟩, ⟨"FENC.BCDD", 0x20000058, 0xFF00FFFF⟩, ⟨"FENC.RAW", 0x20000060, 0xFF00FFFF⟩,
   ⟨"FDEC.TXT", 0x21000000, 0xFF00FFFF⟩, ⟨"FDEC.NUM", 0x21000030, 0xFF000FFF⟩, ⟨"FDEC.BCD", 0x21000050, 0xFF000FFF⟩,
   ⟨"FDEC.RAW", 0x21000060, 0xFF00FFFF⟩]

/-- R101, the rows of `FPACK.*` and `FUNPK.*`. -/
def packRows : List WordRow :=
  [⟨"FPACK.TXT", 0x22000000, 0xFF00FFFF⟩, ⟨"FPACK.NUM", 0x22000030, 0xFF0000FF⟩,
   ⟨"FPACK.NUMD", 0x22000038, 0xFF00FFFF⟩, ⟨"FPACK.BCD", 0x22000050, 0xFF0000FF⟩,
   ⟨"FPACK.BCDD", 0x22000058, 0xFF00FFFF⟩, ⟨"FPACK.RAW", 0x22000060, 0xFF00FFFF⟩,
   ⟨"FUNPK.TXT", 0x23000000, 0xFF00FFFF⟩, ⟨"FUNPK.NUM", 0x23000030, 0xFF000FFF⟩,
   ⟨"FUNPK.BCD", 0x23000050, 0xFF000FFF⟩, ⟨"FUNPK.RAW", 0x23000060, 0xFF00FFFF⟩]

/-- R101, the remaining rows. -/
def frameRows : List WordRow :=
  [⟨"CMD.BEGIN", 0x30000000, 0xFF000000⟩, ⟨"CMD.PUSH", 0x31000000, 0xFFFFFF00⟩, ⟨"CSUM", 0x32000000, 0xFFFFFFFF⟩,
   ⟨"CMD.SEND", 0x33000000, 0xFF0000FF⟩, ⟨"CMD.SENDR", 0x33000001, 0xFF0000FF⟩, ⟨"XP.READ", 0x38000000, 0xFF0000FF⟩,
   ⟨"REG.LOOKUP", 0x40000000, 0xFFFFFF00⟩, ⟨"REG.READ", 0x41000000, 0xFFFFFF00⟩,
   ⟨"ST.DECODE", 0x50000000, 0xFFFFFFFF⟩, ⟨"ST3.DECODE", 0x51000000, 0xFFFFFFFF⟩]

/-- R101: "The complete table." -/
def wordTable : List WordRow := systemRows ++ codecRows ++ packRows ++ frameRows

/-- R100: "A command word is legal exactly when `(CW & mask) = match` for one row of rule R101." -/
def wordLegal (cw : CommandWord) : Bool := wordTable.any (fun r => r.admits cw)

/-- R100: "the 22 assigned opcodes". -/
def assignedOpcodes : List Byte :=
  [0x00, 0x01, 0x02, 0x03, 0x10, 0x11, 0x12, 0x13, 0x14, 0x20, 0x21, 0x22, 0x23, 0x30, 0x31, 0x32, 0x33, 0x38,
   0x40, 0x41, 0x50, 0x51]

/-- R100: whether `OPC` is one of the assigned opcodes. -/
def opcodeAssigned (cw : CommandWord) : Bool := assignedOpcodes.contains (cw.extractLsb' 24 8)

end Sys2Proof
end

