-- ==== Sys2Proof/Decode.lean ====
section
/-! DEFINITION. The decoder of command words (30_encoding.md R90 to R100), total and rejecting by name, and after it
the encoder, written from the same formats. -/

namespace Sys2Proof

/-- R100: why a word is illegal; the `IllegalOp` reasons 1 and 2 of R308. -/
inductive DecodeError where
  | unassignedOpcode
  | malformedWord
deriving DecidableEq, Repr

/-- What the decoder answers (R100). -/
inductive Decoded where
  | legal (i : Instr)
  | illegal (e : DecodeError)
deriving DecidableEq, Repr

/-- R90: `OPC`, the bits 31:24. -/
def opcodeOf (cw : CommandWord) : Byte := cw.extractLsb' 24 8

/-- R91: format Z. -/
def decodeZ (cw : CommandWord) (i : Instr) : Decoded :=
  if cw.extractLsb' 0 24 = 0#24 then .legal i else .illegal .malformedWord

/-- R92: format B. -/
def decodeB (cw : CommandWord) (k : Byte → Instr) : Decoded :=
  if cw.extractLsb' 8 16 = 0#16 then .legal (k (cw.extractLsb' 0 8)) else .illegal .malformedWord

/-- R93: format X. -/
def decodeX (cw : CommandWord) (k : Half → Instr) : Decoded :=
  if cw.extractLsb' 16 8 = 0#8 then .legal (k (cw.extractLsb' 0 16)) else .illegal .malformedWord

/-- R94: format I. -/
def decodeI (cw : CommandWord) (k : BitVec 24 → Instr) : Decoded := .legal (k (cw.extractLsb' 0 24))

/-- R95: format S; bit 0 is `RAW`. -/
def decodeS (cw : CommandWord) : Decoded :=
  if cw.extractLsb' 1 7 = 0#7 then
    if cw.getLsbD 0 then .legal (.cmdSendr (cw.extractLsb' 8 16)) else .legal (.cmdSend (cw.extractLsb' 8 16))
  else .illegal .malformedWord

/-- R96: format R. -/
def decodeR (cw : CommandWord) (k : Half → Instr) : Decoded :=
  if cw.extractLsb' 0 8 = 0#8 then .legal (k (cw.extractLsb' 8 16)) else .illegal .malformedWord

/-- R97: the fields of a format F word. -/
structure FieldSpec where
  w : Byte
  sc : BitVec 4
  e : BitVec 4
  enc : BitVec 3
  a : Bool
  d : Bool
  low : BitVec 3
deriving DecidableEq, Repr

/-- R97: the fields of a word read in format F. -/
def FieldSpec.ofWord (cw : CommandWord) : FieldSpec where
  w := cw.extractLsb' 16 8
  sc := cw.extractLsb' 12 4
  e := cw.extractLsb' 8 4
  enc := cw.extractLsb' 5 3
  a := cw.getLsbD 4
  d := cw.getLsbD 3
  low := cw.extractLsb' 0 3

/-- R97: `ENC` is `NUM` or `BCD`. -/
def FieldSpec.numeric (f : FieldSpec) : Bool := f.enc == 1#3 || f.enc == 2#3

/-- R98: the alignment SD ties to each encoding; an encoding of 4 to 7 is reserved. -/
def FieldSpec.alignmentLegal (f : FieldSpec) : Bool :=
  ((f.enc == 0#3 || f.enc == 3#3) && !f.a) || (f.numeric && f.a)

/-- R98: "`S` may be nonzero only with `ENC = NUM` or `BCD`." -/
def FieldSpec.scaleLegal (f : FieldSpec) : Bool := f.sc == 0#4 || f.numeric

/-- R98: "`E` may be nonzero only in an encode or pack operation with `ENC = NUM` or `BCD` and `D = 0`." -/
def FieldSpec.exponentLegal (encodes : Bool) (f : FieldSpec) : Bool :=
  f.e == 0#4 || (encodes && f.numeric && !f.d)

/-- R98: "`D = 1` is legal only in an encode or pack operation with `ENC = NUM` or `BCD`, and then `S = 0` and
`E = 0`." -/
def FieldSpec.digitModeLegal (encodes : Bool) (f : FieldSpec) : Bool :=
  !f.d || (encodes && f.numeric && f.sc == 0#4 && f.e == 0#4)

/-- R98: the legal combinations of the F-format fields, with the must-be-0 bits of R97; `encodes` is true for
`FENC` and `FPACK`. -/
def FieldSpec.legal (encodes : Bool) (f : FieldSpec) : Bool :=
  f.low == 0#3 && f.alignmentLegal && f.scaleLegal && f.exponentLegal encodes && f.digitModeLegal encodes

/-- R97, R98: format F of an encode or pack operation; the six operations in the order of R101. -/
def decodeFEncode (cw : CommandWord) (txt : Byte → Instr) (num : Byte → BitVec 4 → BitVec 4 → Instr)
    (numd : Byte → Instr) (bcd : Byte → BitVec 4 → BitVec 4 → Instr) (bcdd raw : Byte → Instr) : Decoded :=
  let f := FieldSpec.ofWord cw
  if f.legal true then
    if f.enc = 0#3 then .legal (txt f.w)
    else if f.enc = 1#3 then (if f.d then .legal (numd f.w) else .legal (num f.w f.sc f.e))
    else if f.enc = 2#3 then (if f.d then .legal (bcdd f.w) else .legal (bcd f.w f.sc f.e))
    else .legal (raw f.w)
  else .illegal .malformedWord

/-- R97, R98: format F of a decode or unpack operation; the four operations in the order of R101. -/
def decodeFDecode (cw : CommandWord) (txt : Byte → Instr) (num bcd : Byte → BitVec 4 → Instr)
    (raw : Byte → Instr) : Decoded :=
  let f := FieldSpec.ofWord cw
  if f.legal false then
    if f.enc = 0#3 then .legal (txt f.w)
    else if f.enc = 1#3 then .legal (num f.w f.sc)
    else if f.enc = 2#3 then .legal (bcd f.w f.sc)
    else .legal (raw f.w)
  else .illegal .malformedWord

/-- R90, R100, R101: "A decoder reads `OPC`, picks the format, then checks the fields". -/
def decode (cw : CommandWord) : Decoded :=
  let opc := opcodeOf cw
  if opc = 0x00#8 then decodeZ cw .nop
  else if opc = 0x01#8 then decodeZ cw .fack
  else if opc = 0x02#8 then decodeZ cw .srst
  else if opc = 0x03#8 then decodeB cw .srRd
  else if opc = 0x10#8 then decodeZ cw .argClr
  else if opc = 0x11#8 then decodeB cw .argPush
  else if opc = 0x12#8 then decodeZ cw .argRes
  else if opc = 0x13#8 then decodeX cw .resRd
  else if opc = 0x14#8 then decodeX cw .payRd
  else if opc = 0x20#8 then decodeFEncode cw .fencTxt .fencNum .fencNumd .fencBcd .fencBcdd .fencRaw
  else if opc = 0x21#8 then decodeFDecode cw .fdecTxt .fdecNum .fdecBcd .fdecRaw
  else if opc = 0x22#8 then decodeFEncode cw .fpackTxt .fpackNum .fpackNumd .fpackBcd .fpackBcdd .fpackRaw
  else if opc = 0x23#8 then decodeFDecode cw .funpkTxt .funpkNum .funpkBcd .funpkRaw
  else if opc = 0x30#8 then decodeI cw .cmdBegin
  else if opc = 0x31#8 then decodeB cw .cmdPush
  else if opc = 0x32#8 then decodeZ cw .csum
  else if opc = 0x33#8 then decodeS cw
  else if opc = 0x38#8 then decodeR cw .xpRead
  else if opc = 0x40#8 then decodeB cw .regLookup
  else if opc = 0x41#8 then decodeB cw .regRead
  else if opc = 0x50#8 then decodeZ cw .stDecode
  else if opc = 0x51#8 then decodeZ cw .st3Decode
  else .illegal .unassignedOpcode

/-- The instruction the decoder reads from a word given as the opcode table numbers its bits; a command word is one
32-bit number without a byte order (20_memory.md R63), and every bit above `nbits` is 0. -/
def decodeTableWord (nbits w : Nat) : Option Instr :=
  match decode (BitVec.ofNat 32 (w % 2 ^ nbits)) with
  | .legal i => some i
  | .illegal _ => none

/-- R91. -/
def encodeZ (opc : Byte) : CommandWord := opc ++ 0#24

/-- R92. -/
def encodeB (opc : Byte) (imm : Byte) : CommandWord := opc ++ 0#16 ++ imm

/-- R93. -/
def encodeX (opc : Byte) (idx : Half) : CommandWord := opc ++ 0#8 ++ idx

/-- R94. -/
def encodeI (opc : Byte) (id : BitVec 24) : CommandWord := opc ++ id

/-- R95, R96: `N16` above a low byte. -/
def encodeN (opc : Byte) (n : Half) (low : Byte) : CommandWord := opc ++ n ++ low

/-- R97, R101: format F; "The low byte of an F-format match is `ENC << 5 | A << 4 | D << 3`". -/
def encodeF (opc : Byte) (w : Byte) (sc e : BitVec 4) (low : Byte) : CommandWord := opc ++ w ++ sc ++ e ++ low

/-- R101: the command word of an operation. -/
def encode : Instr → CommandWord
  | .nop => encodeZ 0x00
  | .fack => encodeZ 0x01
  | .srst => encodeZ 0x02
  | .srRd n => encodeB 0x03 n
  | .argClr => encodeZ 0x10
  | .argPush b => encodeB 0x11 b
  | .argRes => encodeZ 0x12
  | .resRd idx => encodeX 0x13 idx
  | .payRd idx => encodeX 0x14 idx
  | .fencTxt w => encodeF 0x20 w 0 0 0x00
  | .fencNum w sc e => encodeF 0x20 w sc e 0x30
  | .fencNumd w => encodeF 0x20 w 0 0 0x38
  | .fencBcd w sc e => encodeF 0x20 w sc e 0x50
  | .fencBcdd w => encodeF 0x20 w 0 0 0x58
  | .fencRaw w => encodeF 0x20 w 0 0 0x60
  | .fdecTxt w => encodeF 0x21 w 0 0 0x00
  | .fdecNum w sc => encodeF 0x21 w sc 0 0x30
  | .fdecBcd w sc => encodeF 0x21 w sc 0 0x50
  | .fdecRaw w => encodeF 0x21 w 0 0 0x60
  | .fpackTxt w => encodeF 0x22 w 0 0 0x00
  | .fpackNum w sc e => encodeF 0x22 w sc e 0x30
  | .fpackNumd w => encodeF 0x22 w 0 0 0x38
  | .fpackBcd w sc e => encodeF 0x22 w sc e 0x50
  | .fpackBcdd w => encodeF 0x22 w 0 0 0x58
  | .fpackRaw w => encodeF 0x22 w 0 0 0x60
  | .funpkTxt w => encodeF 0x23 w 0 0 0x00
  | .funpkNum w sc => encodeF 0x23 w sc 0 0x30
  | .funpkBcd w sc => encodeF 0x23 w sc 0 0x50
  | .funpkRaw w => encodeF 0x23 w 0 0 0x60
  | .cmdBegin id => encodeI 0x30 id
  | .cmdPush b => encodeB 0x31 b
  | .csum => encodeZ 0x32
  | .cmdSend n => encodeN 0x33 n 0x00
  | .cmdSendr n => encodeN 0x33 n 0x01
  | .xpRead n => encodeN 0x38 n 0x00
  | .regLookup id => encodeB 0x40 id
  | .regRead id => encodeB 0x41 id
  | .stDecode => encodeZ 0x50
  | .st3Decode => encodeZ 0x51

end Sys2Proof
end

