-- ==== Sys2Proof/Machine/Codec.lean ====
section
/-! DEFINITION. The pure functions of the field codec and of the frame checksum generator (40_field_codec.md R124 to
R131, 42_frame_builder_checksum.md R191 to R196). -/

namespace Sys2Proof.Machine

/-- R303: the two codec faults; `invalid i` is `InvalidEncoding` with detail `i`. -/
inductive CodecFault where
  | overflow
  | invalid (index : Nat)
deriving DecidableEq, Repr

/-- R124: `enc_txt(t, W)`: the first `W` bytes, then spaces up to `W`. -/
def encTxt (t : ByteString) (w : Nat) : ByteString := t.take w ++ List.replicate (w - t.length) 0x20#8

/-- R125: `scale_trunc(C, S, E) = (C × 10^S) div 10^E`, exact. -/
def scaleTrunc (c sc e : Nat) : Nat := c * 10 ^ sc / 10 ^ e

/-- R126, R127: digit `j`, counted from the most significant, of the `n` decimal digits of `m`. -/
def digitAt (m n j : Nat) : Nat := m / 10 ^ (n - 1 - j) % 10

/-- R126: the ASCII character of a decimal digit. -/
def asciiOfDigit (d : Nat) : Byte := BitVec.ofNat 8 (0x30 + d)

/-- R126: `enc_num(M, W)`. -/
def encNum (m w : Nat) : Except CodecFault ByteString :=
  if 10 ^ w ≤ m then .error .overflow
  else .ok ((List.range w).map (fun i => asciiOfDigit (digitAt m w i)))

/-- R127: two decimal digits in one byte, "high nibble = tens, low nibble = units". -/
def packDigits (tens units : Nat) : Byte := BitVec.ofNat 4 tens ++ BitVec.ofNat 4 units

/-- R127: `enc_bcd(M, W)`. -/
def encBcd (m w : Nat) : Except CodecFault ByteString :=
  if 10 ^ (2 * w) ≤ m then .error .overflow
  else .ok ((List.range w).map (fun i => packDigits (digitAt m (2 * w) (2 * i)) (digitAt m (2 * w) (2 * i + 1))))

/-- R129: a byte from 0x30 to 0x39. -/
def isAsciiDigit (b : Byte) : Bool := decide (0x30 ≤ b.toNat) && decide (b.toNat ≤ 0x39)

/-- R129: the number whose decimal digits a string of digit characters holds, most significant first. -/
def digitsNumber (t : ByteString) : Nat := t.foldl (fun acc b => acc * 10 + (b.toNat - 0x30)) 0

/-- R129: `digits_val(t)`. -/
def digitsVal (t : ByteString) : Except CodecFault Nat :=
  match t.findIdx? (fun b => !isAsciiDigit b) with
  | some i => .error (.invalid i)
  | none => .ok (digitsNumber t)

/-- 00_scope.md R18: "the high nibble of byte `b` is `b[7:4]`". -/
def highNibble (b : Byte) : BitVec 4 := b.extractLsb' 4 4

/-- 00_scope.md R18: "the low nibble `b[3:0]`". -/
def lowNibble (b : Byte) : BitVec 4 := b.extractLsb' 0 4

/-- R130: both nibbles at most 9. -/
def isBcdByte (b : Byte) : Bool := decide ((highNibble b).toNat ≤ 9) && decide ((lowNibble b).toNat ≤ 9)

/-- R130: the two digit characters of a packed-decimal byte, high nibble first. -/
def bcdCharacters (b : Byte) : ByteString := [asciiOfDigit (highNibble b).toNat, asciiOfDigit (lowNibble b).toNat]

/-- R130: `dec_bcd(b)`. -/
def decBcd (b : ByteString) : Except CodecFault ByteString :=
  match b.findIdx? (fun x => !isBcdByte x) with
  | some i => .error (.invalid i)
  | none => .ok (b.flatMap bcdCharacters)

/-- What a decode delivers: the bytes for `RES`, the flags `NV` and `NS`, the result `XD` (R38). -/
structure FieldValue where
  bytes : ByteString
  nv : Bool
  ns : BitVec 4
  xd : Datum
deriving DecidableEq, Repr

/-- R131: `num_result(ds, S)`, with the digit characters for `RES`. -/
def numResult (ds : ByteString) (sc : BitVec 4) : FieldValue :=
  if ds.length ≤ 19 then ⟨ds, true, sc, datum (digitsNumber ds)⟩ else ⟨ds, false, sc, 0#64⟩

/-- R139, R142: a text or raw field, verbatim; `XD` is its width. -/
def decodeVerbatim (f : ByteString) : Except CodecFault FieldValue := .ok ⟨f, false, 0#4, datum f.length⟩

/-- R140: an ASCII-decimal field. -/
def decodeNum (f : ByteString) (sc : BitVec 4) : Except CodecFault FieldValue :=
  match digitsVal f with
  | .error e => .error e
  | .ok _ => .ok (numResult f sc)

/-- R141: a packed-decimal field. -/
def decodeBcd (f : ByteString) (sc : BitVec 4) : Except CodecFault FieldValue :=
  match decBcd f with
  | .error e => .error e
  | .ok ds => .ok (numResult ds sc)

/-- R191: `id_bytes(id)`, big-endian, as short as the value allows. -/
def idBytes (id : BitVec 24) : ByteString :=
  if id.toNat < 0x100 then [id.extractLsb' 0 8]
  else if id.toNat < 0x10000 then [id.extractLsb' 8 8, id.extractLsb' 0 8]
  else [id.extractLsb' 16 8, id.extractLsb' 8 8, id.extractLsb' 0 8]

/-- R195: `checksum(c)`, the sum of the bytes modulo 65536. -/
def checksum (c : ByteString) : Half := half (c.foldl (fun acc b => acc + b.toNat) 0)

/-- R196: `LEN = len(c) + 2`. -/
def packetLength (c : ByteString) : Half := half (c.length + 2)

/-- 20_memory.md R63: two bytes, "low byte first". -/
def le16 (h : Half) : ByteString := [h.extractLsb' 0 8, h.extractLsb' 8 8]

/-- R196: `packet(c)`. The layout is the spec's own decision D21, marked there as general knowledge (entry 13). -/
def packet (stx : Byte) (c : ByteString) : ByteString :=
  [stx] ++ le16 (packetLength c) ++ c ++ le16 (checksum c)

end Sys2Proof.Machine
end

