-- ==== Sys2Proof/Machine/State.lean ====
section
/-! DEFINITION. The architectural state of the block (10_state.md R20 to R52) as plain data, its two ports, the reasons
a step can stop, and the state after reset. -/

namespace Sys2Proof.Machine

/-- The bytes of one buffer (20_memory.md R60): (index, byte) pairs in one canonical form, indices strictly rising and
no entry equal to what an unlisted index reads as. -/
abbrev Memory := List Host.Cell

/-- What an unlisted byte of a buffer reads as. DESIGN CHOICE, unsafe, entry 5: R52 leaves these bytes unspecified;
no operation reads one before writing it (R14, R27). -/
def unlistedByte : Byte := 0x00#8

/-- R14: "A buffer `B` is a byte array `B[0 .. B_CAP-1]` with a length register `BLEN`". -/
structure Buffer where
  mem : Memory
  len : Half
deriving DecidableEq, Repr

/-- R32: the phases of `SEQ`. -/
inductive Phase where
  | idle
  | write
  | poll
  | check
deriving DecidableEq, Repr

/-- R301: the values of `CC` and `FLT.KIND`; "a model's kind type has eight values" (U14). -/
inductive FaultKind where
  | noFault
  | communicationTimeout
  | fieldOverflow
  | invalidEncoding
  | unsupportedRegister
  | deviceFault
  | protocolViolation
  | illegalOp
deriving DecidableEq, Repr

/-- R34: the values of `FLT.TBL`, the table that matched. -/
inductive FaultTable where
  | noTable
  | st1Table
  | st2Table
  | st3Table
deriving DecidableEq, Repr

/-- R34: the fault register `FLT`; its bits 7:4 read 0 (R43) and are not stored. -/
structure FaultLatch where
  kind : FaultKind
  sub : Byte
  det : Half
  tbl : FaultTable
deriving DecidableEq, Repr

/-- R35: the flags register `FLAGS`; its bits 7:4 read 0 (R43) and are not stored. `coupon` is the bit `OPEN`. -/
structure FlagBits where
  coupon : Bool
  sc : Bool
  nv : Bool
  stv : Bool
  ns : BitVec 4
deriving DecidableEq, Repr

/-- R40: the status latch `STAT`. -/
structure StatusLatch where
  st1 : Byte
  st2 : Byte
  ack : Byte
deriving DecidableEq, Repr

/-- R8: a transaction of the host port. -/
structure Transaction where
  cw : CommandWord
  xs : Datum
deriving DecidableEq, Repr

/-- R8, R102: a completion of the host port. -/
structure Completion where
  cc : BitVec 4
  xd : Datum
deriving DecidableEq, Repr

/-- R20: the state of the block, then its ports (R8) and its configuration (R10). -/
structure State where
  arg : Buffer
  cmd : Buffer
  rpl : Buffer
  res : Buffer
  cmdId : BitVec 24
  pbase : Half
  plen : Half
  rplWant : Half
  retry : Half
  seq : Phase
  flt : FaultLatch
  flags : FlagBits
  stat : StatusLatch
  /-- R21: the operand of the transaction in hand. -/
  xs : Datum
  /-- The transactions the host will present, in order (R9; entry 1). -/
  hostIn : List Transaction
  /-- The completions returned so far, newest first (R8; entry 8). -/
  completions : List Completion
  /-- The transport's answers to the coming `TxRead` calls, in order (R67; entry 2). -/
  txScript : List ByteString
  /-- The calls made on the transport port so far, newest first (R66, R67; entry 8). -/
  txLog : List TxEvent
  /-- R10, R49: the configuration of this instance; no operation changes it (R11; entry 3). -/
  cfg : Configuration
deriving DecidableEq, Repr

/-- Why the machine stops. -/
inductive Fault where
  /-- Raised by `step` when `SEQ` is not `IDLE`: "the host port accepts nothing" (U26, R33, R351). Safe: no run from
  an idle state reaches such a state (entry 7). -/
  | hostPortBusy
deriving DecidableEq, Repr

/-- Why an instruction has no meaning in this model. -/
inductive Refusal where
  /-- Raised by an arm of `exec` that has no meaning yet, with its mnemonic. Safe. No arm of this model answers it. -/
  | notModelled (mnemonic : String)
deriving DecidableEq, Repr

/-- A buffer of length 0 with nothing listed. -/
def Buffer.empty : Buffer where
  mem := []
  len := 0#16

/-- R34, R52: no fault latched. -/
def FaultLatch.clear : FaultLatch where
  kind := .noFault
  sub := 0#8
  det := 0#16
  tbl := .noTable

/-- R52: every flag 0. -/
def FlagBits.clear : FlagBits where
  coupon := false
  sc := false
  nv := false
  stv := false
  ns := 0#4

/-- R52: `STAT = 0`. -/
def StatusLatch.clear : StatusLatch where
  st1 := 0#8
  st2 := 0#8
  ack := 0#8

/-- R52, R340: the reset state of the instance `cfg`: every state element at its reset value, nothing on either
port. -/
def State.resetWith (cfg : Configuration) : State where
  arg := .empty
  cmd := .empty
  rpl := .empty
  res := .empty
  cmdId := 0#24
  pbase := 0#16
  plen := 0#16
  rplWant := 0#16
  retry := 0#16
  seq := .idle
  flt := .clear
  flags := .clear
  stat := .clear
  xs := 0#64
  hostIn := []
  completions := []
  txScript := []
  txLog := []
  cfg := cfg

/-- R340: the machine right after reset, for the instance built with the spec's default capacities and free OPEN
parameters (entry 3). -/
def State.reset : State := State.resetWith Config.built

/-- The parameters of the state's instance (R10). -/
abbrev State.params (s : State) : Params := s.cfg.params

end Sys2Proof.Machine
end

