-- ==== Sys2Proof/Machine/Flags.lean ====
section
/-! DEFINITION. The fields of `FLT`, `FLAGS` and `STAT` as the words the host reads, and every rule that computes a
flag (10_state.md R34 to R40, 45_status_decoder.md R261, 60_exceptions.md R301, R304, R308). The block has no
arithmetic condition codes (R35). -/

namespace Sys2Proof.Machine

/-- R301: the code of a fault kind, the value of `CC` and `FLT.KIND`. -/
def FaultKind.code : FaultKind → BitVec 4
  | .noFault => 0
  | .communicationTimeout => 1
  | .fieldOverflow => 2
  | .invalidEncoding => 3
  | .unsupportedRegister => 4
  | .deviceFault => 5
  | .protocolViolation => 6
  | .illegalOp => 7

/-- R34: the value of `FLT.TBL`. -/
def FaultTable.code : FaultTable → BitVec 4
  | .noTable => 0
  | .st1Table => 1
  | .st2Table => 2
  | .st3Table => 3

/-- R308: the reasons of `IllegalOp`. -/
inductive IllegalReason where
  | unassignedOpcode
  | malformedWord
  | outOfRange
  | noCommand
  | capacity
  | reservedRegister
deriving DecidableEq, Repr

/-- R308: the reason code in `FLT.DET`. -/
def IllegalReason.code : IllegalReason → Half
  | .unassignedOpcode => 1
  | .malformedWord => 2
  | .outOfRange => 3
  | .noCommand => 4
  | .capacity => 5
  | .reservedRegister => 6

/-- R32: the value of `SEQ`. -/
def Phase.code : Phase → BitVec 2
  | .idle => 0
  | .write => 1
  | .poll => 2
  | .check => 3

/-- R34: `FLT` as a 36-bit word: `TBL` 35:32, `DET` 31:16, `SUB` 15:8, zeros 7:4, `KIND` 3:0. -/
def FaultLatch.word (f : FaultLatch) : BitVec 36 := f.tbl.code ++ f.det ++ f.sub ++ 0#4 ++ f.kind.code

/-- R35: `FLAGS` as a 12-bit word: `NS` 11:8, zeros 7:4, `STV` 3, `NV` 2, `SC` 1, `OPEN` 0. -/
def FlagBits.word (f : FlagBits) : BitVec 12 :=
  f.ns ++ 0#4 ++ BitVec.ofBool f.stv ++ BitVec.ofBool f.nv ++ BitVec.ofBool f.sc ++ BitVec.ofBool f.coupon

/-- R40: `STAT` as a 24-bit word: `ACK` 23:16, `ST2` 15:8, `ST1` 7:0. -/
def StatusLatch.word (t : StatusLatch) : BitVec 24 := t.ack ++ t.st2 ++ t.st1

/-- R261: the open-coupon predicate, `(st1 & 0x02) ≠ 0`. -/
def couponOpen (st1 : Byte) : Bool := st1 &&& 0x02#8 != 0#8

/-- R39: `STV <- 0; OPEN <- 0; SC <- 0`. -/
def FlagBits.invalidated (f : FlagBits) : FlagBits := { f with stv := false, coupon := false, sc := false }

/-- R36, R37, R39: the flags of a standard reply with status byte `st1` and `n` payload bytes. -/
def FlagBits.latched (st1 : Byte) (n : Nat) (f : FlagBits) : FlagBits :=
  { f with stv := true, coupon := couponOpen st1, sc := decide (n = 1) }

/-- R38: `NV` and `NS` after a decode. -/
def FlagBits.decoded (nv : Bool) (ns : BitVec 4) (f : FlagBits) : FlagBits := { f with nv := nv, ns := ns }

end Sys2Proof.Machine
end

