-- ==== Sys2Proof/Machine/Ops.lean ====
section
/-! DEFINITION. The named operations over the buffers and registers: reading and writing bytes (00_scope.md R14,
20_memory.md R60, R62), completing an operation (R15), raising, holding and clearing a fault (60_exceptions.md R310
to R314), accepting a transaction of the host port (10_state.md R33), and reset (10_state.md R52). -/

namespace Sys2Proof.Machine

/-- The byte at index `a`. -/
def Memory.read : Memory → Nat → Byte
  | [], _ => unlistedByte
  | (k, b) :: rest, a => if a = k then b else Memory.read rest a

/-- The memory with byte `b` at index `a`, in canonical form. -/
def Memory.write : Memory → Nat → Byte → Memory
  | [], a, b => if b = unlistedByte then [] else [(a, b)]
  | (k, c) :: rest, a, b =>
    if a < k then (if b = unlistedByte then (k, c) :: rest else (a, b) :: (k, c) :: rest)
    else if a = k then (if b = unlistedByte then rest else (k, b) :: rest)
    else (k, c) :: Memory.write rest a b

/-- R14: the bytes of `bs` written to the indices from `a` up, in index order. -/
def Memory.writeBytes : Memory → Nat → ByteString → Memory
  | m, _, [] => m
  | m, a, b :: bs => Memory.writeBytes (Memory.write m a b) (a + 1) bs

/-- R13: the `n` bytes from index `a`, `s[a..a+n)`. -/
def Memory.readBytes (m : Memory) : Nat → Nat → ByteString
  | _, 0 => []
  | a, n + 1 => Memory.read m a :: Memory.readBytes m (a + 1) n

/-- The canonical form: indices strictly rising, no entry equal to what an unlisted index reads as. -/
def Memory.wf (m : Memory) : Bool :=
  decide (m.Pairwise (fun x y => x.1 < y.1)) && m.all (fun c => c.2 != unlistedByte)

/-- R60: every listed index lies below the capacity. -/
def Memory.within (cap : Nat) (m : Memory) : Bool := m.all (fun c => decide (c.1 < cap))

/-- R14: "its content is the byte string `B[0..BLEN)`". -/
def Buffer.content (b : Buffer) : ByteString := b.mem.readBytes 0 b.len.toNat

/-- R14: `B <- s`. -/
def Buffer.load (bs : ByteString) (b : Buffer) : Buffer where
  mem := b.mem.writeBytes 0 bs
  len := half bs.length

/-- R178 (a): `B[BLEN .. BLEN+len(s)) <- s; BLEN <- BLEN + len(s)`. -/
def Buffer.append (bs : ByteString) (b : Buffer) : Buffer where
  mem := b.mem.writeBytes b.len.toNat bs
  len := half (b.len.toNat + bs.length)

/-- R161: `BLEN <- 0`; the bytes stay. -/
def Buffer.clear (b : Buffer) : Buffer := { b with len := 0#16 }

/-- R15: `complete(v)`: "ends the operation with `CC = 0` and `XD = v`". -/
def State.complete (v : Datum) (s : State) : State :=
  { s with completions := ⟨0#4, v⟩ :: s.completions }

/-- R32: `SEQ <- p`. -/
def State.enterPhase (p : Phase) (s : State) : State := { s with seq := p }

/-- R310: `raise K(sub, det, tbl)`, the block's trap entry: the latch takes the fault if it holds none (R314),
`SEQ <- IDLE`, and the completion is `CC = K`, `XD = 0` (R326). -/
def State.raise (k : FaultKind) (sub : Byte) (det : Half) (tbl : FaultTable) (s : State) : State :=
  { s with
    flt := if s.flt.kind = .noFault then ⟨k, sub, det, tbl⟩ else s.flt
    seq := .idle
    completions := ⟨k.code, 0#64⟩ :: s.completions }

/-- R313: the way out of a fault, `FLT <- 0`; "Nothing is restored, because nothing was saved". -/
def State.acknowledge (s : State) : State := { s with flt := .clear }

/-- R308: `raise IllegalOp(0, reason, 0)`. -/
def State.illegal (r : IllegalReason) (s : State) : State := s.raise .illegalOp 0#8 r.code .noTable

/-- R305: the raise of a codec fault. -/
def State.raiseCodec (e : CodecFault) (s : State) : State :=
  match e with
  | .overflow => s.raise .fieldOverflow 0#8 0#16 .noTable
  | .invalid i => s.raise .invalidEncoding 0#8 (half i) .noTable

/-- R312: the refusal while a fault is latched: "it completes at once with `CC = FLT.KIND`, `XD = 0`, and changes no
state at all". -/
def State.refuse (s : State) : State :=
  { s with completions := ⟨s.flt.kind.code, 0#64⟩ :: s.completions }

/-- R312, R295: an operation other than `FACK`, `SRST` and `SR.RD` runs only while no fault is latched. -/
def State.ordinary (body : State → State) (s : State) : State :=
  if s.flt.kind = .noFault then body s else s.refuse

/-- R52, R294: every state element at its reset value; the two ports and the configuration are not state of the block
(R49) and stay, and the transport is not touched (R342). -/
def State.blockReset (s : State) : State :=
  { State.resetWith s.cfg with
    xs := s.xs
    hostIn := s.hostIn
    completions := s.completions
    txScript := s.txScript
    txLog := s.txLog }

/-- R33: the transaction `t` accepted: its operand on the port, the others still to be presented. -/
def State.accept (t : Transaction) (rest : List Transaction) (s : State) : State :=
  { s with xs := t.xs, hostIn := rest }

/-- R295: the opcodes of `FACK`, `SRST` and `SR.RD`, which identify the words that are examined while a fault is
latched (R312). -/
def executesWhileLatched (cw : CommandWord) : Bool :=
  opcodeOf cw == 0x01#8 || opcodeOf cw == 0x02#8 || opcodeOf cw == 0x03#8

/-- R100: the `IllegalOp` reason of a word the decoder rejects. -/
def reasonOfDecodeError : DecodeError → IllegalReason
  | .unassignedOpcode => .unassignedOpcode
  | .malformedWord => .malformedWord

/-- R100, R312, R314: an illegal word raises `IllegalOp`; while a fault is latched it "is refused like a legal one"
unless its opcode is one of the three exceptions. -/
def State.rejectWord (cw : CommandWord) (e : DecodeError) (s : State) : State :=
  if s.flt.kind = .noFault ∨ executesWhileLatched cw = true then s.illegal (reasonOfDecodeError e) else s.refuse

end Sys2Proof.Machine
end

