-- ==== Sys2Proof/Machine/Operands.lean ====
section
/-! DEFINITION. The operand forms: the slices of `XS` (30_encoding.md R99), the four addressing modes
(41_field_pack_unpack.md R178), the fields to encode (40_field_codec.md R133 to R138) and the system registers
(10_state.md R41). -/

namespace Sys2Proof.Machine

/-- R99: the coefficient `C`, "all 64 bits" of `XS`. -/
def State.coefficient (s : State) : Nat := s.xs.toNat

/-- R173: `off = XS`, "all 64 bits". -/
def State.fieldOffset (s : State) : Nat := s.xs.toNat

/-- R263: `XS[7:0]` is st1. -/
def State.operandSt1 (s : State) : Byte := s.xs.extractLsb' 0 8

/-- R263: `XS[15:8]` is st2. -/
def State.operandSt2 (s : State) : Byte := s.xs.extractLsb' 8 8

/-- R265: `XS[15:0]` is the code. -/
def State.operandCode (s : State) : Half := s.xs.extractLsb' 0 16

/-- R29, R178 (c): the bytes `[off, off + w)` of the payload window. -/
def State.windowBytes (off w : Nat) (s : State) : ByteString := s.rpl.mem.readBytes (s.pbase.toNat + off) w

/-- R165: byte `i` of the payload window. -/
def State.windowByte (i : Nat) (s : State) : Byte := s.rpl.mem.read (s.pbase.toNat + i)

/-- R133: the text field. -/
def textField (arg : ByteString) (w : Byte) : Except CodecFault ByteString := .ok (encTxt arg w.toNat)

/-- R134: the ASCII-decimal field of a coefficient. -/
def decimalField (c : Nat) (w : Byte) (sc e : BitVec 4) : Except CodecFault ByteString :=
  encNum (scaleTrunc c sc.toNat e.toNat) w.toNat

/-- R135: the ASCII-decimal field of a digit string; "the digit check comes first". -/
def decimalDigitsField (arg : ByteString) (w : Byte) : Except CodecFault ByteString :=
  match digitsVal arg with
  | .error e => .error e
  | .ok m => encNum m w.toNat

/-- R136: the packed-decimal field of a coefficient. -/
def packedField (c : Nat) (w : Byte) (sc e : BitVec 4) : Except CodecFault ByteString :=
  encBcd (scaleTrunc c sc.toNat e.toNat) w.toNat

/-- R137: the packed-decimal field of a digit string; "the digit check comes first". -/
def packedDigitsField (arg : ByteString) (w : Byte) : Except CodecFault ByteString :=
  match digitsVal arg with
  | .error e => .error e
  | .ok m => encBcd m w.toNat

/-- R138: the raw field, whose input must have exactly the declared width. -/
def rawField (arg : ByteString) (w : Byte) : Except CodecFault ByteString :=
  if w.toNat < arg.length then .error .overflow
  else if arg.length < w.toNat then .error (.invalid arg.length)
  else .ok arg

/-- R121, R133: `RES <- f; complete(W)`, or the codec fault. -/
def State.storeField (w : Byte) (r : Except CodecFault ByteString) (s : State) : State :=
  match r with
  | .error e => s.raiseCodec e
  | .ok f => ({ s with res := s.res.load f }).complete (datumOfByte w)

/-- R166: the common part of every `FPACK.*`: the two checks, then the field, then the append. -/
def State.packField (w : Byte) (r : Except CodecFault ByteString) (s : State) : State :=
  if s.cmd.len = 0#16 then s.illegal .noCommand
  else if s.params.cmdCap < s.cmd.len.toNat + w.toNat then s.illegal .capacity
  else
    match r with
    | .error e => s.raiseCodec e
    | .ok f =>
      let c := s.cmd.append f
      ({ s with cmd := c }).complete (datumOfHalf c.len)

/-- R139 to R141: the result steps of a decode: `RES`, `NV`, `NS`, `XD`. -/
def State.deliver (r : Except CodecFault FieldValue) (s : State) : State :=
  match r with
  | .error e => s.raiseCodec e
  | .ok v => ({ s with res := s.res.load v.bytes, flags := s.flags.decoded v.nv v.ns }).complete v.xd

/-- R139, R303: the common part of every `FDEC.*`: the length check, then the decode of `ARG[0..W)`. -/
def State.decodeArgument (w : Byte) (dec : ByteString → Except CodecFault FieldValue) (s : State) : State :=
  if s.arg.len.toNat = w.toNat then s.deliver (dec s.arg.content)
  else s.raiseCodec (.invalid (min s.arg.len.toNat w.toNat))

/-- R173: the common part of every `FUNPK.*`: the window check, then the decode of the cut; "the sum is formed exactly;
it cannot wrap". -/
def State.unpackField (w : Byte) (dec : ByteString → Except CodecFault FieldValue) (s : State) : State :=
  if s.plen.toNat < s.fieldOffset + w.toNat then s.illegal .outOfRange
  else s.deliver (dec (s.windowBytes s.fieldOffset w.toNat))

/-- R41, R42: the system register of a number, zero-extended to 64 bits; none for a reserved number. -/
def State.systemRegister (n : Byte) (s : State) : Option Datum :=
  if n = 0x00#8 then some (s.flt.word.setWidth 64)
  else if n = 0x01#8 then some (s.flags.word.setWidth 64)
  else if n = 0x02#8 then some (s.stat.word.setWidth 64)
  else if n = 0x03#8 then some (datumOfHalf s.retry)
  else if n = 0x04#8 then some (s.seq.code.setWidth 64)
  else if n = 0x05#8 then some (datumOfHalf s.arg.len)
  else if n = 0x06#8 then some (datumOfHalf s.cmd.len)
  else if n = 0x07#8 then some (datumOfHalf s.rpl.len)
  else if n = 0x08#8 then some (datumOfHalf s.rplWant)
  else if n = 0x09#8 then some (datumOfHalf s.res.len)
  else if n = 0x0A#8 then some (datumOfHalf s.pbase)
  else if n = 0x0B#8 then some (datumOfHalf s.plen)
  else if n = 0x0C#8 then some (s.cmdId.setWidth 64)
  else if n = 0x10#8 then some (datumOfHalf (half s.params.retryCeiling))
  else if n = 0x11#8 then some (s.params.rdregId.setWidth 64)
  else if n = 0x12#8 then some (datumOfHalf (half s.params.argCap))
  else if n = 0x13#8 then some (datumOfHalf (half s.params.cmdCap))
  else if n = 0x14#8 then some (datumOfHalf (half s.params.rplCap))
  else if n = 0x15#8 then some (datumOfHalf (half s.params.resCap))
  else if n = 0x16#8 then some (datum trailerW)
  else if n = 0x17#8 then some (datumOfHalf (half s.params.regTable.length))
  else if n = 0x18#8 then some (datumOfByte (BitVec.ofNat 8 s.params.st1Table.length))
  else if n = 0x19#8 then some (datumOfByte (BitVec.ofNat 8 s.params.st2Table.length))
  else if n = 0x1A#8 then some (datumOfHalf (half s.params.st3Table.length))
  else none

end Sys2Proof.Machine
end

