-- ==== Sys2Proof/Machine/BufferAccess.lean ====
section
/-! DEFINITION. Buffer access, the loads and stores of the host (41_field_pack_unpack.md section 2): `ARG.CLR`,
`ARG.PUSH`, `ARG.RES`, `RES.RD`, `PAY.RD`. -/

namespace Sys2Proof.Machine

/-- R161: `ARG.CLR`; "The bytes of `ARG` are not erased". -/
def execArgClr (s : State) : Host.Outcome State Fault Refusal :=
  .next (s.ordinary fun s => ({ s with arg := s.arg.clear }).complete 0#64)

/-- R162: `ARG.PUSH IMM8`. -/
def execArgPush (b : Byte) (s : State) : Host.Outcome State Fault Refusal :=
  .next (s.ordinary fun s =>
    if s.params.argCap ≤ s.arg.len.toNat then s.illegal .capacity
    else
      let a := s.arg.append [b]
      ({ s with arg := a }).complete (datumOfHalf a.len))

/-- R163: `ARG.RES`. -/
def execArgRes (s : State) : Host.Outcome State Fault Refusal :=
  .next (s.ordinary fun s =>
    if s.params.argCap < s.res.len.toNat then s.illegal .capacity
    else
      let a := s.arg.load s.res.content
      ({ s with arg := a }).complete (datumOfHalf a.len))

/-- R164: `RES.RD IDX16`. -/
def execResRd (idx : Half) (s : State) : Host.Outcome State Fault Refusal :=
  .next (s.ordinary fun s =>
    if s.res.len.toNat ≤ idx.toNat then s.illegal .outOfRange
    else s.complete (datumOfByte (s.res.mem.read idx.toNat)))

/-- R165: `PAY.RD IDX16`. -/
def execPayRd (idx : Half) (s : State) : Host.Outcome State Fault Refusal :=
  .next (s.ordinary fun s =>
    if s.plen.toNat ≤ idx.toNat then s.illegal .outOfRange
    else s.complete (datumOfByte (s.windowByte idx.toNat)))

end Sys2Proof.Machine
end

