-- ==== Sys2Proof/Machine/FieldDecode.lean ====
section
/-! DEFINITION. The decode instructions (40_field_codec.md section 4): `FDEC.*`. -/

namespace Sys2Proof.Machine

/-- R139: `FDEC.TXT W`. -/
def execFdecTxt (w : Byte) (s : State) : Host.Outcome State Fault Refusal :=
  .next (s.ordinary fun s => s.decodeArgument w decodeVerbatim)

/-- R140: `FDEC.NUM W, S`. -/
def execFdecNum (w : Byte) (sc : BitVec 4) (s : State) : Host.Outcome State Fault Refusal :=
  .next (s.ordinary fun s => s.decodeArgument w (fun f => decodeNum f sc))

/-- R141: `FDEC.BCD W, S`. -/
def execFdecBcd (w : Byte) (sc : BitVec 4) (s : State) : Host.Outcome State Fault Refusal :=
  .next (s.ordinary fun s => s.decodeArgument w (fun f => decodeBcd f sc))

/-- R142: `FDEC.RAW W`; "exactly that of `FDEC.TXT`". -/
def execFdecRaw (w : Byte) (s : State) : Host.Outcome State Fault Refusal :=
  .next (s.ordinary fun s => s.decodeArgument w decodeVerbatim)

end Sys2Proof.Machine
end

