-- ==== Sys2Proof/Machine/FieldEncode.lean ====
section
/-! DEFINITION. The encode instructions (40_field_codec.md section 3): `FENC.*`. -/

namespace Sys2Proof.Machine

/-- R133: `FENC.TXT W`. -/
def execFencTxt (w : Byte) (s : State) : Host.Outcome State Fault Refusal :=
  .next (s.ordinary fun s => s.storeField w (textField s.arg.content w))

/-- R134: `FENC.NUM W, S, E ; XS=C`. -/
def execFencNum (w : Byte) (sc e : BitVec 4) (s : State) : Host.Outcome State Fault Refusal :=
  .next (s.ordinary fun s => s.storeField w (decimalField s.coefficient w sc e))

/-- R135: `FENC.NUMD W`. -/
def execFencNumd (w : Byte) (s : State) : Host.Outcome State Fault Refusal :=
  .next (s.ordinary fun s => s.storeField w (decimalDigitsField s.arg.content w))

/-- R136: `FENC.BCD W, S, E ; XS=C`. -/
def execFencBcd (w : Byte) (sc e : BitVec 4) (s : State) : Host.Outcome State Fault Refusal :=
  .next (s.ordinary fun s => s.storeField w (packedField s.coefficient w sc e))

/-- R137: `FENC.BCDD W`. -/
def execFencBcdd (w : Byte) (s : State) : Host.Outcome State Fault Refusal :=
  .next (s.ordinary fun s => s.storeField w (packedDigitsField s.arg.content w))

/-- R138: `FENC.RAW W`. -/
def execFencRaw (w : Byte) (s : State) : Host.Outcome State Fault Refusal :=
  .next (s.ordinary fun s => s.storeField w (rawField s.arg.content w))

end Sys2Proof.Machine
end

