-- ==== Sys2Proof/Machine/FieldPack.lean ====
section
/-! DEFINITION. Packing (41_field_pack_unpack.md section 3): `FPACK.*`; the field is "computed exactly as the `FENC.*` of the
same suffix computes `RES`" (R166). -/

namespace Sys2Proof.Machine

/-- R167: `FPACK.TXT W`. -/
def execFpackTxt (w : Byte) (s : State) : Host.Outcome State Fault Refusal :=
  .next (s.ordinary fun s => s.packField w (textField s.arg.content w))

/-- R168: `FPACK.NUM W, S, E ; XS=C`. -/
def execFpackNum (w : Byte) (sc e : BitVec 4) (s : State) : Host.Outcome State Fault Refusal :=
  .next (s.ordinary fun s => s.packField w (decimalField s.coefficient w sc e))

/-- R169: `FPACK.NUMD W`. -/
def execFpackNumd (w : Byte) (s : State) : Host.Outcome State Fault Refusal :=
  .next (s.ordinary fun s => s.packField w (decimalDigitsField s.arg.content w))

/-- R170: `FPACK.BCD W, S, E ; XS=C`. -/
def execFpackBcd (w : Byte) (sc e : BitVec 4) (s : State) : Host.Outcome State Fault Refusal :=
  .next (s.ordinary fun s => s.packField w (packedField s.coefficient w sc e))

/-- R171: `FPACK.BCDD W`. -/
def execFpackBcdd (w : Byte) (s : State) : Host.Outcome State Fault Refusal :=
  .next (s.ordinary fun s => s.packField w (packedDigitsField s.arg.content w))

/-- R172: `FPACK.RAW W`. -/
def execFpackRaw (w : Byte) (s : State) : Host.Outcome State Fault Refusal :=
  .next (s.ordinary fun s => s.packField w (rawField s.arg.content w))

end Sys2Proof.Machine
end

