-- ==== Sys2Proof/Machine/FieldUnpack.lean ====
section
/-! DEFINITION. Unpacking (41_field_pack_unpack.md section 4): `FUNPK.*`; the field is "decoded exactly as the `FDEC.*` of the same
suffix decodes `ARG[0..W)`" (R173). -/

namespace Sys2Proof.Machine

/-- R174: `FUNPK.TXT W ; XS=off`. -/
def execFunpkTxt (w : Byte) (s : State) : Host.Outcome State Fault Refusal :=
  .next (s.ordinary fun s => s.unpackField w decodeVerbatim)

/-- R175: `FUNPK.NUM W, S ; XS=off`. -/
def execFunpkNum (w : Byte) (sc : BitVec 4) (s : State) : Host.Outcome State Fault Refusal :=
  .next (s.ordinary fun s => s.unpackField w (fun f => decodeNum f sc))

/-- R176: `FUNPK.BCD W, S ; XS=off`. -/
def execFunpkBcd (w : Byte) (sc : BitVec 4) (s : State) : Host.Outcome State Fault Refusal :=
  .next (s.ordinary fun s => s.unpackField w (fun f => decodeBcd f sc))

/-- R177: `FUNPK.RAW W ; XS=off`; "exactly that of `FUNPK.TXT`". -/
def execFunpkRaw (w : Byte) (s : State) : Host.Outcome State Fault Refusal :=
  .next (s.ordinary fun s => s.unpackField w decodeVerbatim)

end Sys2Proof.Machine
end

