-- ==== Sys2Proof/Machine/Status.lean ====
section
/-! DEFINITION. The status decoder (45_status_decoder.md R255 to R269): `status_check`, `ST.DECODE`, `ST3.DECODE`. -/

namespace Sys2Proof.Machine

/-- R256: "An entry `(mask, sub)` matches a status byte `v` exactly when `(v & mask) = mask`". -/
def MaskEntry.hits (v : Byte) (e : MaskEntry) : Bool := v &&& e.mask == e.mask

/-- R260: what `status_check` raises: the first entry of `ST1_TABLE` that matches st1, else the first of `ST2_TABLE`
that matches st2 (R257 to R259). -/
def statusFault (p : Params) (st1 st2 : Byte) : Option (MaskEntry × FaultTable) :=
  match p.st1Table.find? (MaskEntry.hits st1) with
  | some e => some (e, .st1Table)
  | none =>
    match p.st2Table.find? (MaskEntry.hits st2) with
    | some e => some (e, .st2Table)
    | none => none

/-- R260: `status_check(st1, st2)`, then the rest of the operation. -/
def State.statusCheck (st1 st2 : Byte) (k : State → State) (s : State) : State :=
  match statusFault s.params st1 st2 with
  | some (e, tbl) => s.raise .deviceFault e.sub (e.mask.setWidth 16) tbl
  | none => k s

/-- R263: `ST.DECODE`. -/
def execStDecode (s : State) : Host.Outcome State Fault Refusal :=
  .next (s.ordinary fun s =>
    s.statusCheck s.operandSt1 s.operandSt2 (State.complete (if couponOpen s.operandSt1 then 1#64 else 0#64)))

/-- R265: `ST3.DECODE`; a code matches by equality. -/
def execSt3Decode (s : State) : Host.Outcome State Fault Refusal :=
  .next (s.ordinary fun s =>
    match s.params.st3Table.find? (fun e => e.code == s.operandCode) with
    | some e => s.raise .deviceFault e.sub s.operandCode .st3Table
    | none => s.complete 0#64)

end Sys2Proof.Machine
end

