-- ==== Sys2Proof/Machine/Transport.lean ====
section
/-! DEFINITION. The transport port and the transport loop: `TxWrite`, `TxRead` (20_memory.md R66, R67), `read_exact`
(43_transport_loop.md R220 to R229), and `XP.READ` (R230). -/

namespace Sys2Proof.Machine

/-- R66: `TxWrite(s)`: the whole packet in one call; it "returns nothing and cannot fail". -/
def State.txWrite (p : ByteString) (s : State) : State := { s with txLog := .write p :: s.txLog }

/-- R67: the answer to `TxRead(k)`: the next answer of the script, and where the script is empty a free value. -/
def State.txAnswer (k : Nat) (s : State) : ByteString :=
  match s.txScript with
  | c :: _ => c
  | [] => Config.transportAnswer s.txLog k

/-- R67, R68: the state after `TxRead(k)`: the answer is consumed. -/
def State.txConsume (k : Nat) (s : State) : State :=
  { s with txScript := s.txScript.tail, txLog := .read k (s.txAnswer k) :: s.txLog }

/-- How a poll or a read ends (R221): it "can raise `CommunicationTimeout` and `ProtocolViolation` and nothing
else". -/
inductive ReadEnd where
  | complete
  | timeout
  | overlong (len : Nat)
deriving DecidableEq, Repr

/-- R39: "invalidates the previous reply". -/
def State.invalidateReply (s : State) : State :=
  { s with flags := s.flags.invalidated, pbase := 0#16, plen := 0#16 }

/-- R222 line 1: `RPLLEN <- 0; RETRY <- 0; RPLWANT <- n`. -/
def State.startRead (n : Nat) (s : State) : State :=
  { s with rpl := s.rpl.clear, retry := 0#16, rplWant := half n }

/-- R222 line 3: `k <- n - RPLLEN`, the bytes still missing. -/
def State.missing (s : State) : Nat := s.rplWant.toNat - s.rpl.len.toNat

/-- R222 lines 3 to 11: one poll; `none` where the loop goes on. -/
def State.pollOnce (s : State) : State × Option ReadEnd :=
  let k := s.missing
  let c := s.txAnswer k
  let s' := s.txConsume k
  if c.length = 0 then
    let r := half (s'.retry.toNat + 1)
    ({ s' with retry := r }, if s'.params.retryCeiling ≤ r.toNat then some .timeout else none)
  else if k < c.length then (s', some (.overlong c.length))
  else ({ s' with rpl := s'.rpl.append c }, none)

/-- R222 lines 2 to 12: at most `fuel` polls. Each poll lowers the bytes missing plus the empty polls left by at least
one (R228), so fuel of that sum or more never runs out before the read has ended. -/
def State.readLoop : Nat → State → State × ReadEnd
  | 0, s => (s, .complete)
  | fuel + 1, s =>
    if s.missing = 0 then (s, .complete)
    else
      match s.pollOnce with
      | (s', some e) => (s', e)
      | (s', none) => State.readLoop fuel s'

/-- R222: `read_exact(n)`. -/
def State.readExact (n : Nat) (s : State) : State × ReadEnd :=
  (s.startRead n).readLoop (s.params.retryCeiling + n)

/-- R224, R225, R310: what follows a read: the rest of the operation, or the fault of the read. -/
def afterRead (k : State → State) (r : State × ReadEnd) : State :=
  match r with
  | (s, .complete) => k s
  | (s, .timeout) => s.raise .communicationTimeout 0#8 s.rpl.len .noTable
  | (s, .overlong len) => s.raise .protocolViolation 0#8 (half len) .noTable

/-- R230 lines 4 and 5: the whole reply is the window. -/
def State.finishRaw (n : Nat) (s : State) : State :=
  ({ s with pbase := 0#16, plen := half n, seq := .idle }).complete (datum n)

/-- R230: the operation of `XP.READ`, once its check has passed. -/
def State.readOnly (n : Nat) (s : State) : State :=
  afterRead (State.finishRaw n) ((s.invalidateReply.enterPhase .poll).readExact n)

/-- R230: `XP.READ N16`. -/
def execXpRead (n : Half) (s : State) : Host.Outcome State Fault Refusal :=
  .next (s.ordinary fun s =>
    if s.params.rplCap < n.toNat then s.illegal .capacity else s.readOnly n.toNat)

end Sys2Proof.Machine
end

