-- ==== Sys2Proof/Machine/Frame.lean ====
section
/-! DEFINITION. The frame builder and the command cycle (42_frame_builder_checksum.md R190 to R209): `CMD.BEGIN`,
`CMD.PUSH`, `CSUM`, `CMD.SEND`, `CMD.SENDR`. -/

namespace Sys2Proof.Machine

/-- R192: `CMD.BEGIN ID24`. -/
def execCmdBegin (id : BitVec 24) (s : State) : Host.Outcome State Fault Refusal :=
  .next (s.ordinary fun s =>
    let c := s.cmd.load (idBytes id)
    ({ s with cmd := c, cmdId := id }).complete (datumOfHalf c.len))

/-- R193: `CMD.PUSH IMM8`. -/
def execCmdPush (b : Byte) (s : State) : Host.Outcome State Fault Refusal :=
  .next (s.ordinary fun s =>
    if s.cmd.len = 0#16 then s.illegal .noCommand
    else if s.params.cmdCap ≤ s.cmd.len.toNat then s.illegal .capacity
    else
      let c := s.cmd.append [b]
      ({ s with cmd := c }).complete (datumOfHalf c.len))

/-- R198: `CSUM`: `XD[15:0] = CS`, `XD[31:16] = LEN`, `XD[63:32] = 0`. -/
def execCsum (s : State) : Host.Outcome State Fault Refusal :=
  .next (s.ordinary fun s =>
    s.complete (0#32 ++ packetLength s.cmd.content ++ checksum s.cmd.content))

/-- R199: the total length of a standard reply with `n` payload bytes. -/
def standardLength (n : Nat) : Nat := n + ackW + trailerW

/-- R201: the pre-I/O checks of a send with reply length `t`, then the send. -/
def State.sendChecked (t : Nat) (k : State → State) (s : State) : State :=
  if s.cmd.len = 0#16 then s.illegal .noCommand
  else if s.params.rplCap < t then s.illegal .capacity
  else k s

/-- R202, R207 lines 2 and 3: invalidate the previous reply; `SEQ <- WRITE`; one `TxWrite` of the packet; the command
is consumed (R203, R208). -/
def State.sendPacket (s : State) : State :=
  let s := s.invalidateReply.enterPhase .write
  { s.txWrite (packet s.params.stx s.cmd.content) with cmd := s.cmd.clear }

/-- R202 lines 5 to 7: split the reply of total length `T = n + 3`, latch its status, set the window. -/
def State.latchReply (n : Nat) (s : State) : State :=
  let t := standardLength n
  let st1 := s.rpl.mem.read (t - 2)
  { s with
    seq := .check
    stat := { st1 := st1, st2 := s.rpl.mem.read (t - 1), ack := s.rpl.mem.read 0 }
    flags := s.flags.latched st1 n
    pbase := 1#16
    plen := half n }

/-- R202 lines 2 to 7, then `k`: send the command and take a standard reply with `n` payload bytes. -/
def State.exchange (n : Nat) (k : State → State) (s : State) : State :=
  afterRead (fun s => k (s.latchReply n)) ((s.sendPacket.enterPhase .poll).readExact (standardLength n))

/-- R202 line 9, R205: `SEQ <- IDLE; complete(if N16 = 1 then RPL[1] else N16)`. -/
def State.finishSend (n : Nat) (s : State) : State :=
  (s.enterPhase .idle).complete (if n = 1 then datumOfByte (s.rpl.mem.read 1) else datum n)

/-- R202 line 8, R206: the status check, skipped for the generic read-register command. -/
def State.checkReply (k : State → State) (s : State) : State :=
  if s.cmdId = s.params.rdregId then k s else s.statusCheck s.stat.st1 s.stat.st2 k

/-- R202: `CMD.SEND N16`. -/
def execCmdSend (n : Half) (s : State) : Host.Outcome State Fault Refusal :=
  .next (s.ordinary fun s =>
    s.sendChecked (standardLength n.toNat) fun s =>
      s.exchange n.toNat (State.checkReply (State.finishSend n.toNat)))

/-- R207 lines 2 to 6: send the command and take a raw reply of `n` bytes. -/
def State.exchangeRaw (n : Nat) (s : State) : State :=
  afterRead (State.finishRaw n) ((s.sendPacket.enterPhase .poll).readExact n)

/-- R207: `CMD.SENDR N16`. -/
def execCmdSendr (n : Half) (s : State) : Host.Outcome State Fault Refusal :=
  .next (s.ordinary fun s => s.sendChecked n.toNat fun s => s.exchangeRaw n.toNat)

end Sys2Proof.Machine
end

