-- ==== Sys2Proof/Machine/Register.lean ====
section
/-! DEFINITION. The register table and the register reader (44_register_table.md R240 to R250): `REG.LOOKUP`,
`REG.READ`. -/

namespace Sys2Proof.Machine

/-- R241: `lookup(id)`: "the entry of `REG_TABLE` whose `id` field equals `id`, or none". -/
def lookupRegister (p : Params) (id : Byte) : Option RegDescriptor := p.regTable.find? (fun e => e.id == id)

/-- R242: `UnsupportedRegister(0, IMM8, 0)`. -/
def State.unsupportedRegister (id : Byte) (s : State) : State :=
  s.raise .unsupportedRegister 0#8 (id.setWidth 16) .noTable

/-- R242: `REG.LOOKUP IMM8`: `XD[7:0] = width`, `XD[8] = is_bcd`, `XD[63:9] = 0`. -/
def execRegLookup (id : Byte) (s : State) : Host.Outcome State Fault Refusal :=
  .next (s.ordinary fun s =>
    match lookupRegister s.params id with
    | none => s.unsupportedRegister id
    | some e => s.complete (0#55 ++ BitVec.ofBool e.isBcd ++ e.width))

/-- R243 line 3, R245: the read-register command with the identifier as one byte. -/
def State.beginRegisterRead (id : Byte) (s : State) : State :=
  { s with cmd := s.cmd.load (idBytes s.params.rdregId ++ [id]), cmdId := s.params.rdregId }

/-- R243 line 6: the result steps for the payload of register `e`. -/
def decodeRegister (e : RegDescriptor) (p : ByteString) : Except CodecFault FieldValue :=
  if e.isBcd then decodeBcd p 0#4 else decodeVerbatim p

/-- R243 lines 5 to 7: decode the payload `RPL[1 .. 1 + width)`; `SEQ <- IDLE` first. -/
def State.deliverRegister (e : RegDescriptor) (s : State) : State :=
  (s.enterPhase .idle).deliver (decodeRegister e (s.rpl.mem.readBytes 1 e.width.toNat))

/-- R243: `REG.READ IMM8`. The status check of line 4 is made as in `CMD.SEND`, and skipped there because
`CMDID = RDREG_ID` (R206, R246). -/
def execRegRead (id : Byte) (s : State) : Host.Outcome State Fault Refusal :=
  .next (s.ordinary fun s =>
    match lookupRegister s.params id with
    | none => s.unsupportedRegister id
    | some e =>
      if s.params.rplCap < standardLength e.width.toNat then s.illegal .capacity
      else (s.beginRegisterRead id).exchange e.width.toNat (State.checkReply (State.deliverRegister e)))

end Sys2Proof.Machine
end

