-- ==== Sys2Proof/Machine/System.lean ====
section
/-! DEFINITION. The system operations (47_system_ops.md): `NOP`, `FACK`, `SRST`, `SR.RD`. -/

namespace Sys2Proof.Machine

/-- R291: `NOP`; "while a fault is latched it is refused like any ordinary operation". -/
def execNop (s : State) : Host.Outcome State Fault Refusal := .next (s.ordinary (State.complete 0#64))

/-- R292: `FACK`: hand over the latched fault and clear the latch; it "executes whether or not a fault is latched". -/
def execFack (s : State) : Host.Outcome State Fault Refusal :=
  .next (s.acknowledge.complete (s.flt.word.setWidth 64))

/-- R294: `SRST`; it "executes while a fault is latched". -/
def execSrst (s : State) : Host.Outcome State Fault Refusal := .next (s.blockReset.complete 0#64)

/-- R293: `SR.RD IMM8`; it "executes while a fault is latched"; a reserved number raises `IllegalOp` reason 6. -/
def execSrRd (n : Byte) (s : State) : Host.Outcome State Fault Refusal :=
  .next (match s.systemRegister n with
    | some v => s.complete v
    | none => s.illegal .reservedRegister)

end Sys2Proof.Machine
end

