-- ==== Sys2Proof/Machine/Dispatch.lean ====
section
/-! DEFINITION. The meaning of each operation: one arm per row of the opcode table (30_encoding.md R101). -/

namespace Sys2Proof.Machine

/-- The operation `i` run to completion from the state `s` that has accepted its transaction. -/
def exec (i : Instr) (s : State) : Host.Outcome State Fault Refusal :=
  match i with
  | .nop => Sys2Proof.Machine.execNop s
  | .fack => Sys2Proof.Machine.execFack s
  | .srst => Sys2Proof.Machine.execSrst s
  | .srRd n => Sys2Proof.Machine.execSrRd n s
  | .argClr => Sys2Proof.Machine.execArgClr s
  | .argPush b => Sys2Proof.Machine.execArgPush b s
  | .argRes => Sys2Proof.Machine.execArgRes s
  | .resRd idx => Sys2Proof.Machine.execResRd idx s
  | .payRd idx => Sys2Proof.Machine.execPayRd idx s
  | .fencTxt w => Sys2Proof.Machine.execFencTxt w s
  | .fencNum w sc e => Sys2Proof.Machine.execFencNum w sc e s
  | .fencNumd w => Sys2Proof.Machine.execFencNumd w s
  | .fencBcd w sc e => Sys2Proof.Machine.execFencBcd w sc e s
  | .fencBcdd w => Sys2Proof.Machine.execFencBcdd w s
  | .fencRaw w => Sys2Proof.Machine.execFencRaw w s
  | .fdecTxt w => Sys2Proof.Machine.execFdecTxt w s
  | .fdecNum w sc => Sys2Proof.Machine.execFdecNum w sc s
  | .fdecBcd w sc => Sys2Proof.Machine.execFdecBcd w sc s
  | .fdecRaw w => Sys2Proof.Machine.execFdecRaw w s
  | .fpackTxt w => Sys2Proof.Machine.execFpackTxt w s
  | .fpackNum w sc e => Sys2Proof.Machine.execFpackNum w sc e s
  | .fpackNumd w => Sys2Proof.Machine.execFpackNumd w s
  | .fpackBcd w sc e => Sys2Proof.Machine.execFpackBcd w sc e s
  | .fpackBcdd w => Sys2Proof.Machine.execFpackBcdd w s
  | .fpackRaw w => Sys2Proof.Machine.execFpackRaw w s
  | .funpkTxt w => Sys2Proof.Machine.execFunpkTxt w s
  | .funpkNum w sc => Sys2Proof.Machine.execFunpkNum w sc s
  | .funpkBcd w sc => Sys2Proof.Machine.execFunpkBcd w sc s
  | .funpkRaw w => Sys2Proof.Machine.execFunpkRaw w s
  | .cmdBegin id => Sys2Proof.Machine.execCmdBegin id s
  | .cmdPush b => Sys2Proof.Machine.execCmdPush b s
  | .csum => Sys2Proof.Machine.execCsum s
  | .cmdSend n => Sys2Proof.Machine.execCmdSend n s
  | .cmdSendr n => Sys2Proof.Machine.execCmdSendr n s
  | .xpRead n => Sys2Proof.Machine.execXpRead n s
  | .regLookup id => Sys2Proof.Machine.execRegLookup id s
  | .regRead id => Sys2Proof.Machine.execRegRead id s
  | .stDecode => Sys2Proof.Machine.execStDecode s
  | .st3Decode => Sys2Proof.Machine.execSt3Decode s

end Sys2Proof.Machine
end

