-- ==== Sys2Proof/Machine/Step.lean ====
section
/-! DEFINITION. One step of the machine: the next transaction of the host port, run to its completion (00_scope.md R9,
10_state.md R33, 20_memory.md R65). -/

namespace Sys2Proof.Machine

/-- R33, R90, R100, R323: a block whose `SEQ` is not `IDLE` accepts nothing (the host port is busy, U26); an idle block
with no transaction presented holds its state; else the next transaction is accepted, its word decoded, and the
operation run, or the word rejected. -/
def step (s : State) : Host.Outcome State Fault Refusal :=
  if s.seq = .idle then
    match s.hostIn with
    | [] => .next s
    | t :: rest =>
      match decode t.cw with
      | .legal i => exec i (s.accept t rest)
      | .illegal e => .next ((s.accept t rest).rejectWord t.cw e)
  else .fault .hostPortBusy

/-- The state with the command word of these bits presented as the next transaction, its operand `XS` 0 (entry 1). -/
def State.withFetchWord (s : State) (nbits w : Nat) : State :=
  { s with hostIn := ⟨BitVec.ofNat 32 (w % 2 ^ nbits), 0#64⟩ :: s.hostIn }

end Sys2Proof.Machine
end

