-- ==== Sys2Proof/Machine/HostSequences.lean ====
section
/-! DEFINITION. The pseudo-instructions (30_encoding.md R106) and the report decoder (46_report_decoder.md R280 to R288):
"a fixed sequence of real operations that the host issues; none is decoded by the hardware". They are the host's, not
the block's: each is a list of transactions, or a host program that looks at completions, over `step`. -/

namespace Sys2Proof.Machine

/-- The transaction of the operation `i` with operand `xs` (R105). -/
def request (i : Instr) (xs : Datum) : Transaction := ⟨encode i, xs⟩

/-- The operand `XS` for an offset that the host has computed exactly (R286). DESIGN CHOICE (entry 21): the spec does not
say what the host presents for an offset of 2^64 or more; here it presents 2^64 - 1, which lies past every window, so
that R287's `IllegalOp` detail 3 is raised as for any other offset past the payload. -/
def offsetOperand (off : Nat) : Datum := datum (min off (2 ^ 64 - 1))

/-- One transaction of the host: it is presented, the block runs it, and the host has the completion (R9). `none`
where the block is busy (R33). -/
def transact (t : Transaction) (s : State) : Option (Completion × State) :=
  match step { s with hostIn := [t] } with
  | .next s' =>
    match s'.completions with
    | c :: _ => some (c, s')
    | [] => none
  | .fault _ => none
  | .refused _ => none

/-- How a host sequence ends (R106): all its operations completed with `CC = 0`, or one did not and the host stopped
there; `results` holds the completions in issue order. -/
structure HostRun where
  results : List Completion
  finished : Bool
  state : State
deriving DecidableEq, Repr

/-- R106: "If any operation of a sequence completes with `CC ≠ 0` the host stops the sequence there". -/
def issue : List Transaction → State → HostRun
  | [], s => ⟨[], true, s⟩
  | t :: rest, s =>
    match transact t s with
    | none => ⟨[], false, s⟩
    | some (c, s') =>
      if c.cc = 0#4 then
        let r := issue rest s'
        { r with results := c :: r.results }
      else ⟨[c], false, s'⟩

/-- R106: `RES.RD IDX16=i` for `i = 0 .. n-1`. -/
def readResult (n : Nat) : List Transaction := (List.range n).map (fun i => request (.resRd (half i)) 0)

/-- R106: `PAY.RD IDX16=i` for `i = 0 .. n-1`. -/
def readPayload (n : Nat) : List Transaction := (List.range n).map (fun i => request (.payRd (half i)) 0)

/-- What a sequence with a result hands to the host (R106): the completion of its last operation but the reads, `FLAGS`
after it, and the bytes that the reads fetched. -/
structure HostValue where
  completion : Completion
  flags : FlagBits
  bytes : ByteString
deriving DecidableEq, Repr

/-- R106, R38, R16: the "numeric value is `(XD, S)` if `FLAGS.NV`". -/
def HostValue.number (v : HostValue) : Option (Datum × BitVec 4) :=
  if v.flags.nv then some (v.completion.xd, v.flags.ns) else none

/-- How a sequence with a result ends: its value, none where the host stopped before it had it, and the run. -/
structure HostFetch where
  value : Option HostValue
  run : HostRun
deriving DecidableEq, Repr

/-- R106: the operations `ops`, and after them the reads that fetch the bytes of their result. The reads are chosen from
the state after `ops` (its length registers and `FLAGS`), which the host is taken to know (entry 15). -/
def fetch (ops : List Transaction) (reads : State → List Transaction) (s : State) : HostFetch :=
  let r := issue ops s
  match r.finished, r.results.getLast? with
  | true, some c =>
    let q := issue (reads r.state) r.state
    let run : HostRun := { q with results := r.results ++ q.results }
    if q.finished then ⟨some ⟨c, r.state.flags, q.results.map (fun d => d.xd.setWidth 8)⟩, run⟩ else ⟨none, run⟩
  | _, _ => ⟨none, r⟩

/-- R106: "bytes by `RES.RD`": all of the result. -/
def resultReads (s : State) : List Transaction := readResult s.res.len.toNat

/-- R106: "payload bytes by `PAY.RD IDX16=i`, `i = 0 .. PLEN-1`". -/
def payloadReads (s : State) : List Transaction := readPayload s.plen.toNat

/-- R286, R282: the reads after one unpack: none where its value is `(XD, S)`, else "collecting `RES`". -/
def unpackReads (s : State) : List Transaction := if s.flags.nv then [] else resultReads s

/-- R106: `LOAD.ARG s`. -/
def loadArg (bs : ByteString) : List Transaction :=
  request .argClr 0 :: bs.map (fun b => request (.argPush b) 0)

/-- The value and Field Spec of one field to encode (R106, 00_scope.md R18): its bytes or its coefficient. -/
inductive FieldInput where
  | text (t : ByteString) (w : Byte)
  | number (c : Datum) (w : Byte) (sc e : BitVec 4)
  | digits (t : ByteString) (w : Byte)
  | packed (c : Datum) (w : Byte) (sc e : BitVec 4)
  | packedDigits (t : ByteString) (w : Byte)
  | raw (t : ByteString) (w : Byte)
deriving DecidableEq, Repr

/-- R97: the width of a field. -/
def FieldInput.width : FieldInput → Byte
  | .text _ w => w
  | .number _ w _ _ => w
  | .digits _ w => w
  | .packed _ w _ _ => w
  | .packedDigits _ w => w
  | .raw _ w => w

/-- R106: "`LOAD.ARG` if the value is a byte string; then the `FENC.*` of the spec's encoding". -/
def FieldInput.encodeRequests : FieldInput → List Transaction
  | .text t w => loadArg t ++ [request (.fencTxt w) 0]
  | .number c w sc e => [request (.fencNum w sc e) c]
  | .digits t w => loadArg t ++ [request (.fencNumd w) 0]
  | .packed c w sc e => [request (.fencBcd w sc e) c]
  | .packedDigits t w => loadArg t ++ [request (.fencBcdd w) 0]
  | .raw t w => loadArg t ++ [request (.fencRaw w) 0]

/-- R106: "`LOAD.ARG` (if needed) and one `FPACK.*`". -/
def FieldInput.packRequests : FieldInput → List Transaction
  | .text t w => loadArg t ++ [request (.fpackTxt w) 0]
  | .number c w sc e => [request (.fpackNum w sc e) c]
  | .digits t w => loadArg t ++ [request (.fpackNumd w) 0]
  | .packed c w sc e => [request (.fpackBcd w sc e) c]
  | .packedDigits t w => loadArg t ++ [request (.fpackBcdd w) 0]
  | .raw t w => loadArg t ++ [request (.fpackRaw w) 0]

/-- R106: `ENCODE v, spec`: the encoded bytes are the value's `bytes`. -/
def encodeField (f : FieldInput) (s : State) : HostFetch :=
  fetch f.encodeRequests (fun _ => readResult f.width.toNat) s

/-- R106: the `FDEC.*` operations a `DECODE` may end in. -/
inductive FieldOutput where
  | text (w : Byte)
  | number (w : Byte) (sc : BitVec 4)
  | packed (w : Byte) (sc : BitVec 4)
  | raw (w : Byte)
deriving DecidableEq, Repr

/-- The `FDEC.*` of a field. -/
def FieldOutput.decoder : FieldOutput → Instr
  | .text w => .fdecTxt w
  | .number w sc => .fdecNum w sc
  | .packed w sc => .fdecBcd w sc
  | .raw w => .fdecRaw w

/-- R106: `DECODE b, spec`: the value is its `number` or its `bytes`. -/
def decodeField (b : ByteString) (f : FieldOutput) (s : State) : HostFetch :=
  fetch (loadArg b ++ [request f.decoder 0]) resultReads s

/-- R106: an argument of a command: a field, or one byte. -/
inductive CommandArgument where
  | field (f : FieldInput)
  | byte (b : Byte)
deriving DecidableEq, Repr

/-- The operations that append one argument (R106). -/
def CommandArgument.requests : CommandArgument → List Transaction
  | .field f => f.packRequests
  | .byte b => [request (.cmdPush b) 0]

/-- R106: the operations of `SEND.COMMAND` up to its send. -/
def commandRequests (id : BitVec 24) (args : List CommandArgument) (n : Half) (raw : Bool) : List Transaction :=
  request (.cmdBegin id) 0 :: args.flatMap CommandArgument.requests ++
    [request (if raw then .cmdSendr n else .cmdSend n) 0]

/-- R106: `SEND.COMMAND id, f_1..f_k, N, raw`: the payload is the value's `bytes`. -/
def sendCommand (id : BitVec 24) (args : List CommandArgument) (n : Half) (raw : Bool) (s : State) : HostFetch :=
  fetch (commandRequests id args n raw) payloadReads s

/-- R106: `READ.REGISTER id`: the value is its `number` or its `bytes`. -/
def readRegister (id : Byte) (s : State) : HostFetch := fetch [request (.regRead id) 0] resultReads s

/-- R106: `CHECK.STATUS`: read `STAT`, then decode its status bytes. -/
def checkStatus (s : State) : HostRun :=
  match transact (request (.srRd 0x02#8) 0) s with
  | none => ⟨[], false, s⟩
  | some (c, s') =>
    if c.cc = 0#4 then
      let r := issue [request .stDecode ((c.xd.extractLsb' 0 16).setWidth 64)] s'
      { r with results := c :: r.results }
    else ⟨[c], false, s'⟩

/-- R286: the operations of `UNPACK.ARRAY`, slot by slot. -/
def unpackArray (off : Nat) (w : Byte) (sc : BitVec 4) (count stride : Nat) : List Transaction :=
  (List.range count).map (fun j => request (.funpkBcd w sc) (offsetOperand (off + j * stride)))

/-- R286: the same "for a raw array". -/
def unpackRawArray (off : Nat) (w : Byte) (count stride : Nat) : List Transaction :=
  (List.range count).map (fun j => request (.funpkRaw w) (offsetOperand (off + j * stride)))

/-- How a list of unpacks ends: the values decoded, in issue order, whether every unpack completed, and the state. -/
structure Unpacking where
  values : List HostValue
  finished : Bool
  state : State
deriving DecidableEq, Repr

/-- R286, R287: the unpacks one after another, "collecting `(XD, S)` of each" or the bytes of `RES`; at a fault the host
stops with the fields already decoded. `UNPACK.ARRAY` is `collect` of `unpackArray` or `unpackRawArray`. -/
def collect : List Transaction → State → Unpacking
  | [], s => ⟨[], true, s⟩
  | t :: rest, s =>
    let f := fetch [t] unpackReads s
    match f.value with
    | none => ⟨[], false, f.run.state⟩
    | some v =>
      let u := collect rest f.run.state
      { u with values := v :: u.values }

/-- R283: the kinds of a report field. -/
inductive ReportKind where
  | bcd2
  | bcd0
  | raw
deriving DecidableEq, Repr

/-- R283: a scalar field of the report. -/
structure ReportField where
  name : String
  offset : Nat
  width : Byte
  kind : ReportKind
deriving DecidableEq, Repr

/-- R283: an array of the report. -/
structure ReportArray where
  name : String
  offset : Nat
  width : Byte
  kind : ReportKind
  count : Nat
  stride : Nat
deriving DecidableEq, Repr

/-- R283: what a report layout consists of. -/
structure ReportLayout where
  rptId : BitVec 24
  raw : Bool
  len : Half
  dateReg : Byte
  fields : List ReportField
  arrays : List ReportArray
deriving DecidableEq, Repr

/-- R283: an array lies inside a payload of `len` bytes. DESIGN CHOICE (entry 22): the spec does not say what
`offset + (count − 1) × stride + width ≤ RPT_LEN` asks of an array of count 0; here it asks nothing, since such an array
has no slot. -/
def ReportArray.inside (len : Nat) (a : ReportArray) : Bool :=
  decide (a.count = 0) || decide (a.offset + (a.count - 1) * a.stride + a.width.toNat ≤ len)

/-- R283: "Constraints that make a layout legal". -/
def ReportLayout.legal (p : Params) (l : ReportLayout) : Bool :=
  l.fields.all (fun f => decide (f.offset + f.width.toNat ≤ l.len.toNat)) &&
    l.arrays.all (fun a => a.inside l.len.toNat) &&
    decide ((if l.raw then l.len.toNat else standardLength l.len.toNat) ≤ p.rplCap) &&
    (lookupRegister p l.dateReg).isSome

/-- R10, R283: `RPT_LAYOUT`, the open parameter of the host's program for an instance with the parameters `p`: "The
constraints in the last column are part of the parameter's type". "`RPT_LAYOUT` is data of the host's program; the block
does not store it." -/
structure RptLayout (p : Params) where
  layout : ReportLayout
  legal : layout.legal p = true
deriving DecidableEq, Repr

/-- R282: the unpack of one field of a kind at an offset; a raw field is fetched with `FUNPK.RAW` (entry 15). -/
def ReportKind.unpack (k : ReportKind) (w : Byte) (off : Nat) : Transaction :=
  match k with
  | .bcd2 => request (.funpkBcd w 2#4) (offsetOperand off)
  | .bcd0 => request (.funpkBcd w 0#4) (offsetOperand off)
  | .raw => request (.funpkRaw w) (offsetOperand off)

/-- R284: the unpacks of one array. -/
def ReportArray.requests (a : ReportArray) : List Transaction :=
  match a.kind with
  | .bcd2 => unpackArray a.offset a.width 2#4 a.count a.stride
  | .bcd0 => unpackArray a.offset a.width 0#4 a.count a.stride
  | .raw => unpackRawArray a.offset a.width a.count a.stride

/-- R285 lines 6 and 7. -/
def ReportLayout.unpacks (l : ReportLayout) : List Transaction :=
  l.fields.map (fun f => f.kind.unpack f.width f.offset) ++ l.arrays.flatMap ReportArray.requests

/-- R280, R283: the names of the values, in the order of `unpacks`; every slot of an array has the array's name. -/
def ReportLayout.names (l : ReportLayout) : List String :=
  l.fields.map ReportField.name ++ l.arrays.flatMap (fun a => List.replicate a.count a.name)

/-- R285 lines 4 and 5. -/
def ReportLayout.sendRequests (l : ReportLayout) : List Transaction :=
  [request (.cmdBegin l.rptId) 0, request (if l.raw then .cmdSendr l.len else .cmdSend l.len) 0]

/-- How a report read ends (R285). -/
inductive ReportRun where
  /-- R285 line 3: the short-circuit, "the result is the empty list; issue nothing more". -/
  | empty (s : State)
  /-- Every field decoded, under its name. -/
  | values (vs : List (String × HostValue)) (s : State)
  /-- The host stopped: an operation completed with `CC ≠ 0` (its fault is in `FLT`), or the block was busy. `vs` holds
  the fields already decoded, which R287 leaves to the host. -/
  | stopped (vs : List (String × HostValue)) (s : State)
deriving DecidableEq, Repr

/-- R285 lines 6 and 7. -/
def ReportLayout.unpackAll (l : ReportLayout) (s : State) : ReportRun :=
  let u := collect l.unpacks s
  let vs := l.names.zip u.values
  if u.finished then .values vs u.state else .stopped vs u.state

/-- R285: the sequence, for any layout; R287 says what a layout that reaches past the payload meets. -/
def ReportLayout.run (l : ReportLayout) (s : State) : ReportRun :=
  let date := issue [request (.regRead l.dateReg) 0] s
  if date.finished then
    let payload := issue (payloadReads date.state) date.state
    if payload.finished then
      if payload.results.all (fun d => d.xd == 0#64) then .empty payload.state
      else
        let sent := issue l.sendRequests payload.state
        if sent.finished then l.unpackAll sent.state else .stopped [] sent.state
    else .stopped [] payload.state
  else .stopped [] date.state

/-- R285: `READ.REPORT`, with the parameter `RPT_LAYOUT` of the instance's host. -/
def readReport (s : State) (l : RptLayout s.params) : ReportRun := l.layout.run s

end Sys2Proof.Machine
end

