-- ==== Sys2Proof/Machine/Phases.lean ====
section
/-! DEFINITION. The retry state machine with steps of its own (43_transport_loop.md R226): the second description of the
operations with I/O, one phase of `SEQ` at a time. `exec` uses the one-shot procedure of R222; R226 asks a model that
has both to prove them equal, and that equality is one of the statements. -/

namespace Sys2Proof.Machine

/-- The operations with I/O, after their pre-I/O checks (R226). -/
inductive IoOp where
  | send (n : Nat)
  | sendRaw (n : Nat)
  | readOnly (n : Nat)
  | registerRead (e : RegDescriptor)
deriving DecidableEq, Repr

/-- R199, R243: the bytes the operation reads. -/
def IoOp.length : IoOp → Nat
  | .send n => standardLength n
  | .sendRaw n => n
  | .readOnly n => n
  | .registerRead e => standardLength e.width.toNat

/-- R226: whether the operation has the `WRITE` state. -/
def IoOp.writes : IoOp → Bool
  | .send _ => true
  | .sendRaw _ => true
  | .readOnly _ => false
  | .registerRead _ => true

/-- R226, the row `CHECK`: "the caller's post-read work (split, status check, decode, window); complete or raise". -/
def IoOp.finish (op : IoOp) (s : State) : State :=
  match op with
  | .send n => (s.latchReply n).checkReply (State.finishSend n)
  | .sendRaw n => s.finishRaw n
  | .readOnly n => s.finishRaw n
  | .registerRead e => (s.latchReply e.width.toNat).checkReply (State.deliverRegister e)

/-- R226, the row `IDLE`: "invalidate the previous reply"; "For `XP.READ`, which has no `WRITE` state, the three
assignments ... are made on the `IDLE` to `POLL` transition". -/
def IoOp.start (op : IoOp) (s : State) : State :=
  if op.writes then s.invalidateReply.enterPhase .write
  else (s.invalidateReply.enterPhase .poll).startRead op.length

/-- R226: one transition from the phase the state is in; an idle block has none. -/
def IoOp.phaseStep (op : IoOp) (s : State) : State :=
  match s.seq with
  | .idle => s
  | .write =>
    let s := { s.txWrite (packet s.params.stx s.cmd.content) with cmd := s.cmd.clear }
    (s.startRead op.length).enterPhase .poll
  | .poll =>
    if s.missing = 0 then s.enterPhase .check
    else
      match s.pollOnce with
      | (s', none) => s'
      | (s', some e) => afterRead (fun t => t) (s', e)
  | .check => op.finish s

/-- Transitions until the block is idle again, at most `fuel` of them. -/
def IoOp.phaseRun (op : IoOp) : Nat → State → State
  | 0, s => s
  | fuel + 1, s => if s.seq = .idle then s else op.phaseRun fuel (op.phaseStep s)

/-- R222: the same operation by the one-shot procedure, as `exec` performs it. -/
def IoOp.oneShot (op : IoOp) (s : State) : State :=
  match op with
  | .send n => s.exchange n (State.checkReply (State.finishSend n))
  | .sendRaw n => s.exchangeRaw n
  | .readOnly n => s.readOnly n
  | .registerRead e => s.exchange e.width.toNat (State.checkReply (State.deliverRegister e))

end Sys2Proof.Machine
end

