-- ==== Sys2Proof/Safety.lean ====
section
/-! DEFINITION. What counts as a sound state and a safe run of the block, in the terms the statements use: the
invariants the spec gives (10_state.md R27 to R43) and a run that never stops. -/

namespace Sys2Proof.Machine

/-- R14, R27, R60: a buffer of capacity `cap`: canonical bytes, none past the capacity, and "No operation can make a
length exceed its capacity". -/
structure Buffer.Sound (cap : Nat) (b : Buffer) : Prop where
  canonical : b.mem.wf = true
  inside : b.mem.within cap = true
  length : b.len.toNat ≤ cap

/-- R34, R43, R305: `FLT` is 0 when no fault is latched; `SUB` and `TBL` are 0 but for a `DeviceFault`, which names its
table. -/
structure FaultLatch.Sound (f : FaultLatch) : Prop where
  empty : f.kind = .noFault → f = .clear
  other : f.kind ≠ .deviceFault → f.sub = 0#8 ∧ f.tbl = .noTable
  device : f.kind = .deviceFault → f.tbl ≠ .noTable

/-- R36, R37, R39, R40: what the flags and `STAT` say of the last standard reply while `STV = 1`. -/
structure State.ReplyLatched (s : State) : Prop where
  ack : s.stat.ack = s.rpl.mem.read 0
  st1 : s.stat.st1 = s.rpl.mem.read (s.plen.toNat + 1)
  st2 : s.stat.st2 = s.rpl.mem.read (s.plen.toNat + 2)
  coupon : s.flags.coupon = couponOpen s.stat.st1
  scalar : s.flags.sc = decide (s.plen.toNat = 1)
  base : s.pbase = 1#16
  total : s.rpl.len.toNat = s.plen.toNat + 3

/-- The invariant of the block between transactions. -/
structure State.Sound (s : State) : Prop where
  /-- R33. -/
  idle : s.seq = .idle
  arg : s.arg.Sound s.params.argCap
  cmd : s.cmd.Sound s.params.cmdCap
  rpl : s.rpl.Sound s.params.rplCap
  res : s.res.Sound s.params.resCap
  /-- R29: "Invariant: `PBASE + PLEN ≤ RPLLEN` at every idle moment." -/
  window : s.pbase.toNat + s.plen.toNat ≤ s.rpl.len.toNat
  /-- R221, R222. -/
  received : s.rpl.len.toNat ≤ s.rplWant.toNat
  wanted : s.rplWant.toNat ≤ s.params.rplCap
  /-- R31: `RETRY` "never exceeds `RETRY_CEILING`". -/
  budget : s.retry.toNat ≤ s.params.retryCeiling
  latch : s.flt.Sound
  /-- R39. -/
  invalid : s.flags.stv = false → s.flags.coupon = false ∧ s.flags.sc = false
  latched : s.flags.stv = true → s.ReplyLatched

/-- R52: every state element holds its reset value; nothing is said of the bytes of the buffers, but that no length
covers one. -/
structure State.AtReset (s : State) : Prop where
  argLen : s.arg.len = 0#16
  cmdLen : s.cmd.len = 0#16
  rplLen : s.rpl.len = 0#16
  resLen : s.res.len = 0#16
  cmdId : s.cmdId = 0#24
  window : s.pbase = 0#16 ∧ s.plen = 0#16
  loop : s.rplWant = 0#16 ∧ s.retry = 0#16 ∧ s.seq = .idle
  flt : s.flt.word = 0#36
  flags : s.flags.word = 0#12
  stat : s.stat.word = 0#24

/-- A run of `n` steps that does not stop, and where it ends. -/
def State.RunsTo (n : Nat) (s t : State) : Prop := Sys2Proof.core.run n s = .next t

/-- R310 where no fault is latched: the fault in `FLT`, `SEQ = IDLE`, the completion `CC = K`, `XD = 0`, and nothing
else. -/
def State.faulted (k : FaultKind) (sub : Byte) (det : Half) (tbl : FaultTable) (s : State) : State :=
  { s with flt := ⟨k, sub, det, tbl⟩, seq := .idle, completions := ⟨k.code, 0#64⟩ :: s.completions }

/-- R14: `B <- f`, from `b` to `b'`: the content is `f`, and the bytes past it are as before. -/
def Buffer.Holds (b b' : Buffer) (f : ByteString) : Prop :=
  b'.content = f ∧ ∀ a, f.length ≤ a → b'.mem.read a = b.mem.read a

/-- R178 (a): `f` appended to `b` gives `b'`: the bytes outside `f`'s place are as before. -/
def Buffer.Extends (b b' : Buffer) (f : ByteString) : Prop :=
  b'.content = b.content ++ f ∧
    ∀ a, a < b.len.toNat ∨ b.len.toNat + f.length ≤ a → b'.mem.read a = b.mem.read a

/-- R129: a byte from 0x30 to 0x39. -/
abbrev AsciiDigit (b : Byte) : Prop := 0x30 ≤ b.toNat ∧ b.toNat ≤ 0x39

/-- R130: a byte whose nibbles are both at most 9. -/
abbrev BcdByte (b : Byte) : Prop := b.toNat / 16 ≤ 9 ∧ b.toNat % 16 ≤ 9

/-- R129, R130: `i` is the least index of `t` whose byte does not meet `p`. -/
def FirstBad (p : Byte → Prop) (t : ByteString) (i : Nat) : Prop :=
  (∃ b, t[i]? = some b ∧ ¬ p b) ∧ ∀ j b, j < i → t[j]? = some b → p b

/-- R129: the natural number whose decimal digits a string holds, most significant first. -/
def decimalValue : ByteString → Nat
  | [] => 0
  | b :: t => (b.toNat - 0x30) * 10 ^ t.length + decimalValue t

/-- R130: the digit characters of a packed-decimal string. -/
def bcdText (t : ByteString) : ByteString :=
  t.flatMap (fun b => [BitVec.ofNat 8 (0x30 + b.toNat / 16), BitVec.ofNat 8 (0x30 + b.toNat % 16)])

/-- R124: `f` is `enc_txt(t, w)`. -/
def IsTextField (t : ByteString) (w : Nat) (f : ByteString) : Prop :=
  f.length = w ∧ ∀ i, i < w → f[i]? = some ((t[i]?).getD 0x20#8)

/-- R126: `f` is `enc_num(m, w)`. -/
def IsDecimalField (m w : Nat) (f : ByteString) : Prop :=
  f.length = w ∧ ∀ i, i < w → f[i]? = some (BitVec.ofNat 8 (0x30 + m / 10 ^ (w - 1 - i) % 10))

/-- R127: `f` is `enc_bcd(m, w)`. -/
def IsPackedField (m w : Nat) (f : ByteString) : Prop :=
  f.length = w ∧ ∀ i, i < w →
    f[i]? = some (BitVec.ofNat 8 (m / 10 ^ (2 * w - 1 - 2 * i) % 10 * 16 + m / 10 ^ (2 * w - 2 - 2 * i) % 10))

/-- R125: `scale_trunc(C, S, E)` of the operand `XS`. -/
def State.scaledOperand (sc e : BitVec 4) (s : State) : Nat := s.xs.toNat * 10 ^ sc.toNat / 10 ^ e.toNat

/-- R29: the payload, `RPL[PBASE .. PBASE+PLEN)`. -/
def State.payload (s : State) : ByteString := s.rpl.mem.readBytes s.pbase.toNat s.plen.toNat

/-- R173: the field of width `w` at the offset `XS` of the payload. -/
def State.payloadField (w : Byte) (s : State) : ByteString := (s.payload.drop s.xs.toNat).take w.toNat

/-- R38, R131: a decode completes with the bytes `ds` in `RES`, `NV`, `NS` and `XD` as given, and nothing else. -/
structure Decodes (s t : State) (ds : ByteString) (nv : Bool) (ns : BitVec 4) (xd : Datum) : Prop where
  result : s.res.Holds t.res ds
  frame : t = { s with
    res := t.res
    flags := { s.flags with nv := nv, ns := ns }
    completions := ⟨0#4, xd⟩ :: s.completions }

/-- R131: the numeric result of the digit string `ds` with scale `sc`. -/
def DecodesNumber (s t : State) (ds : ByteString) (sc : BitVec 4) : Prop :=
  Decodes s t ds (decide (ds.length ≤ 19)) sc
    (if ds.length ≤ 19 then BitVec.ofNat 64 (decimalValue ds) else 0#64)

/-- R191: `id_bytes(id)`, big-endian. -/
def IsIdentifier (id : BitVec 24) (f : ByteString) : Prop :=
  f.length = (if id.toNat < 0x100 then 1 else if id.toNat < 0x10000 then 2 else 3) ∧
    ∀ i b, f[i]? = some b → b.toNat = id.toNat / 256 ^ (f.length - 1 - i) % 256

/-- R196: `[STX, LEN[7:0], LEN[15:8]] ++ c ++ [CS[7:0], CS[15:8]]`, with `LEN = len(c) + 2` and `CS` the sum of the
bytes modulo 65536 (R195). -/
def packetBytes (stx : Byte) (c : ByteString) : ByteString :=
  let len := c.length + 2
  let cs := (c.map BitVec.toNat).sum % 65536
  [stx, BitVec.ofNat 8 len, BitVec.ofNat 8 (len / 256)] ++ c ++ [BitVec.ofNat 8 cs, BitVec.ofNat 8 (cs / 256)]

/-- R39: the previous reply invalidated. -/
def State.withoutReply (s : State) : State :=
  { s with pbase := 0#16, plen := 0#16, flags := { s.flags with stv := false, coupon := false, sc := false } }

/-- R202, R207 lines 2 and 3: the previous reply invalidated, the packet written, the command consumed. -/
def State.sent (s : State) : State :=
  { s.withoutReply with
    cmd := { s.cmd with len := 0#16 }
    txLog := .write (packetBytes s.params.stx s.cmd.content) :: s.txLog }

/-- R243 line 3: the read-register command in `CMD`. -/
def State.withRegisterCommand (id : Byte) (s : State) : State :=
  { s with cmd := s.cmd.load (idBytes s.params.rdregId ++ [id]), cmdId := s.params.rdregId }

/-- R201, R230, R243: what an operation with I/O does before its read, once its pre-I/O checks have passed: the state
in which the read begins and the number of bytes it wants. `none` for an operation without I/O, or where a check
fails. -/
def State.beforeRead (s : State) : Instr → Option (State × Nat)
  | .cmdSend n =>
    if s.cmd.len = 0#16 ∨ s.params.rplCap < n.toNat + 3 then none else some (s.sent, n.toNat + 3)
  | .cmdSendr n =>
    if s.cmd.len = 0#16 ∨ s.params.rplCap < n.toNat then none else some (s.sent, n.toNat)
  | .xpRead n => if s.params.rplCap < n.toNat then none else some (s.withoutReply, n.toNat)
  | .regRead id =>
    match s.params.regTable.find? (fun e => e.id == id) with
    | none => none
    | some e => some ((s.withRegisterCommand id).sent, e.width.toNat + 3)
  | _ => none

/-- R67: the transport, whose next scripted answers are `script` and which has seen the events `log`, answers the polls
of a read that still misses `k` bytes with `chunks`, in order; past the script its answers are free (entry 2). -/
def Answers : List ByteString → List TxEvent → Nat → List ByteString → Prop
  | _, _, _, [] => True
  | script, log, k, c :: cs =>
    (script.head?).getD (Config.transportAnswer log k) = c ∧ Answers script.tail (.read k c :: log) (k - c.length) cs

/-- R223: the number of empty polls among the answers. -/
def emptyPolls (chunks : List ByteString) : Nat := chunks.countP (fun c => c.isEmpty)

/-- R222 line 3: the events of the polls of a read that misses `k` bytes, on top of `log`. -/
def pollLog : Nat → List ByteString → List TxEvent → List TxEvent
  | _, [], log => log
  | k, c :: cs, log => pollLog (k - c.length) cs (.read k c :: log)

/-- R221, R224: the answers deliver the `n` bytes `reply` with fewer than `ceiling` empty polls, the last answer
completing it. -/
structure Delivers (ceiling n : Nat) (chunks : List ByteString) (reply : ByteString) : Prop where
  joined : chunks.flatten = reply
  total : reply.length = n
  ends : chunks.getLast? ≠ some []
  budget : emptyPolls chunks < ceiling

/-- R224: the answers bring `got`, fewer than `n` bytes, and end with the `ceiling`-th empty poll. -/
structure Exhausts (ceiling n : Nat) (chunks : List ByteString) (got : ByteString) : Prop where
  joined : chunks.flatten = got
  partly : got.length < n
  ends : chunks.getLast? = some []
  budget : emptyPolls chunks = ceiling

/-- R225: the answers bring `got`, fewer than `n` bytes, and then `excess`, longer than what is missing. -/
structure Overruns (ceiling n : Nat) (chunks : List ByteString) (got excess : ByteString) : Prop where
  joined : chunks.flatten = got
  partly : got.length < n
  long : n < got.length + excess.length
  budget : emptyPolls chunks < ceiling

/-- R222, R233: the state of a read of `n` bytes that began in `u`, after the answers `chunks`, with the bytes received in
`rpl`; the operation over. -/
def State.received (u : State) (n : Nat) (chunks : List ByteString) (rpl : Buffer) : State :=
  { u with
    rpl := rpl
    rplWant := half n
    retry := half (emptyPolls chunks)
    seq := .idle
    txScript := u.txScript.drop chunks.length
    txLog := pollLog n chunks u.txLog }

/-- R202 lines 6 and 7: the status and the window of a standard reply with `n` payload bytes. -/
def State.latched (ack st1 st2 : Byte) (n : Nat) (s : State) : State :=
  { s with
    stat := { st1 := st1, st2 := st2, ack := ack }
    flags := { s.flags with stv := true, coupon := st1.getLsbD 1, sc := decide (n = 1) }
    pbase := 1#16
    plen := half n }

/-- R256: the entry matches the byte. -/
abbrev EntryMatches (v : Byte) (e : MaskEntry) : Prop := v &&& e.mask = e.mask

/-- R258: `e` is the first entry of the table that matches `v`. -/
def FirstMatch (table : List MaskEntry) (v : Byte) (e : MaskEntry) : Prop :=
  ∃ before after, table = before ++ e :: after ∧ EntryMatches v e ∧ ∀ x ∈ before, ¬ EntryMatches v x

/-- R260: `status_check(st1, st2)` returns. -/
def StatusClean (p : Params) (st1 st2 : Byte) : Prop :=
  (∀ e ∈ p.st1Table, ¬ EntryMatches st1 e) ∧ ∀ e ∈ p.st2Table, ¬ EntryMatches st2 e

/-- R258 to R260: `status_check(st1, st2)` raises the fault of `e`, an entry of the table `tbl`. -/
def StatusRaises (p : Params) (st1 st2 : Byte) (e : MaskEntry) (tbl : FaultTable) : Prop :=
  (FirstMatch p.st1Table st1 e ∧ tbl = .st1Table) ∨
    ((∀ x ∈ p.st1Table, ¬ EntryMatches st1 x) ∧ FirstMatch p.st2Table st2 e ∧ tbl = .st2Table)

/-- R41: the system registers, each number with what it reads. -/
def State.registerValues (s : State) : List (Byte × Nat) :=
  [(0x00#8, s.flt.kind.code.toNat + 2 ^ 8 * s.flt.sub.toNat + 2 ^ 16 * s.flt.det.toNat +
      2 ^ 32 * s.flt.tbl.code.toNat),
   (0x01#8, s.flags.coupon.toNat + 2 * s.flags.sc.toNat + 4 * s.flags.nv.toNat + 8 * s.flags.stv.toNat +
      2 ^ 8 * s.flags.ns.toNat),
   (0x02#8, s.stat.st1.toNat + 2 ^ 8 * s.stat.st2.toNat + 2 ^ 16 * s.stat.ack.toNat),
   (0x03#8, s.retry.toNat), (0x04#8, 0), (0x05#8, s.arg.len.toNat), (0x06#8, s.cmd.len.toNat),
   (0x07#8, s.rpl.len.toNat), (0x08#8, s.rplWant.toNat), (0x09#8, s.res.len.toNat), (0x0A#8, s.pbase.toNat),
   (0x0B#8, s.plen.toNat), (0x0C#8, s.cmdId.toNat),
   (0x10#8, s.params.retryCeiling), (0x11#8, s.params.rdregId.toNat), (0x12#8, s.params.argCap),
   (0x13#8, s.params.cmdCap), (0x14#8, s.params.rplCap), (0x15#8, s.params.resCap), (0x16#8, 2),
   (0x17#8, s.params.regTable.length), (0x18#8, s.params.st1Table.length), (0x19#8, s.params.st2Table.length),
   (0x1A#8, s.params.st3Table.length)]

/-- R295: the operations that execute while a fault is latched. -/
def runsLatched : Instr → Bool
  | .nop => false
  | .fack => true
  | .srst => true
  | .srRd _ => true
  | .argClr => false
  | .argPush _ => false
  | .argRes => false
  | .resRd _ => false
  | .payRd _ => false
  | .fencTxt _ => false
  | .fencNum _ _ _ => false
  | .fencNumd _ => false
  | .fencBcd _ _ _ => false
  | .fencBcdd _ => false
  | .fencRaw _ => false
  | .fdecTxt _ => false
  | .fdecNum _ _ => false
  | .fdecBcd _ _ => false
  | .fdecRaw _ => false
  | .fpackTxt _ => false
  | .fpackNum _ _ _ => false
  | .fpackNumd _ => false
  | .fpackBcd _ _ _ => false
  | .fpackBcdd _ => false
  | .fpackRaw _ => false
  | .funpkTxt _ => false
  | .funpkNum _ _ => false
  | .funpkBcd _ _ => false
  | .funpkRaw _ => false
  | .cmdBegin _ => false
  | .cmdPush _ => false
  | .csum => false
  | .cmdSend _ => false
  | .cmdSendr _ => false
  | .xpRead _ => false
  | .regLookup _ => false
  | .regRead _ => false
  | .stDecode => false
  | .st3Decode => false

/-- R76: the operations that touch the transport. -/
def touchesTransport : Instr → Bool
  | .nop => false
  | .fack => false
  | .srst => false
  | .srRd _ => false
  | .argClr => false
  | .argPush _ => false
  | .argRes => false
  | .resRd _ => false
  | .payRd _ => false
  | .fencTxt _ => false
  | .fencNum _ _ _ => false
  | .fencNumd _ => false
  | .fencBcd _ _ _ => false
  | .fencBcdd _ => false
  | .fencRaw _ => false
  | .fdecTxt _ => false
  | .fdecNum _ _ => false
  | .fdecBcd _ _ => false
  | .fdecRaw _ => false
  | .fpackTxt _ => false
  | .fpackNum _ _ _ => false
  | .fpackNumd _ => false
  | .fpackBcd _ _ _ => false
  | .fpackBcdd _ => false
  | .fpackRaw _ => false
  | .funpkTxt _ => false
  | .funpkNum _ _ => false
  | .funpkBcd _ _ => false
  | .funpkRaw _ => false
  | .cmdBegin _ => false
  | .cmdPush _ => false
  | .csum => false
  | .cmdSend _ => true
  | .cmdSendr _ => true
  | .xpRead _ => true
  | .regLookup _ => false
  | .regRead _ => true
  | .stDecode => false
  | .st3Decode => false

/-- R76, R208: the operations that write a packet. -/
def sendsPacket : Instr → Bool
  | .nop => false
  | .fack => false
  | .srst => false
  | .srRd _ => false
  | .argClr => false
  | .argPush _ => false
  | .argRes => false
  | .resRd _ => false
  | .payRd _ => false
  | .fencTxt _ => false
  | .fencNum _ _ _ => false
  | .fencNumd _ => false
  | .fencBcd _ _ _ => false
  | .fencBcdd _ => false
  | .fencRaw _ => false
  | .fdecTxt _ => false
  | .fdecNum _ _ => false
  | .fdecBcd _ _ => false
  | .fdecRaw _ => false
  | .fpackTxt _ => false
  | .fpackNum _ _ _ => false
  | .fpackNumd _ => false
  | .fpackBcd _ _ _ => false
  | .fpackBcdd _ => false
  | .fpackRaw _ => false
  | .funpkTxt _ => false
  | .funpkNum _ _ => false
  | .funpkBcd _ _ => false
  | .funpkRaw _ => false
  | .cmdBegin _ => false
  | .cmdPush _ => false
  | .csum => false
  | .cmdSend _ => true
  | .cmdSendr _ => true
  | .xpRead _ => false
  | .regLookup _ => false
  | .regRead _ => true
  | .stDecode => false
  | .st3Decode => false

/-- R133 to R142, R173, R243: the operations that write `RES`. -/
def writesResult : Instr → Bool
  | .nop => false
  | .fack => false
  | .srst => false
  | .srRd _ => false
  | .argClr => false
  | .argPush _ => false
  | .argRes => false
  | .resRd _ => false
  | .payRd _ => false
  | .fencTxt _ => true
  | .fencNum _ _ _ => true
  | .fencNumd _ => true
  | .fencBcd _ _ _ => true
  | .fencBcdd _ => true
  | .fencRaw _ => true
  | .fdecTxt _ => true
  | .fdecNum _ _ => true
  | .fdecBcd _ _ => true
  | .fdecRaw _ => true
  | .fpackTxt _ => false
  | .fpackNum _ _ _ => false
  | .fpackNumd _ => false
  | .fpackBcd _ _ _ => false
  | .fpackBcdd _ => false
  | .fpackRaw _ => false
  | .funpkTxt _ => true
  | .funpkNum _ _ => true
  | .funpkBcd _ _ => true
  | .funpkRaw _ => true
  | .cmdBegin _ => false
  | .cmdPush _ => false
  | .csum => false
  | .cmdSend _ => false
  | .cmdSendr _ => false
  | .xpRead _ => false
  | .regLookup _ => false
  | .regRead _ => true
  | .stDecode => false
  | .st3Decode => false

/-- R166: the operations that append a field to `CMD`. -/
def packsField : Instr → Bool
  | .nop => false
  | .fack => false
  | .srst => false
  | .srRd _ => false
  | .argClr => false
  | .argPush _ => false
  | .argRes => false
  | .resRd _ => false
  | .payRd _ => false
  | .fencTxt _ => false
  | .fencNum _ _ _ => false
  | .fencNumd _ => false
  | .fencBcd _ _ _ => false
  | .fencBcdd _ => false
  | .fencRaw _ => false
  | .fdecTxt _ => false
  | .fdecNum _ _ => false
  | .fdecBcd _ _ => false
  | .fdecRaw _ => false
  | .fpackTxt _ => true
  | .fpackNum _ _ _ => true
  | .fpackNumd _ => true
  | .fpackBcd _ _ _ => true
  | .fpackBcdd _ => true
  | .fpackRaw _ => true
  | .funpkTxt _ => false
  | .funpkNum _ _ => false
  | .funpkBcd _ _ => false
  | .funpkRaw _ => false
  | .cmdBegin _ => false
  | .cmdPush _ => false
  | .csum => false
  | .cmdSend _ => false
  | .cmdSendr _ => false
  | .xpRead _ => false
  | .regLookup _ => false
  | .regRead _ => false
  | .stDecode => false
  | .st3Decode => false

/-- R24: the operations that write `CMD`, but for `SRST`. -/
def writesCommand : Instr → Bool
  | .nop => false
  | .fack => false
  | .srst => false
  | .srRd _ => false
  | .argClr => false
  | .argPush _ => false
  | .argRes => false
  | .resRd _ => false
  | .payRd _ => false
  | .fencTxt _ => false
  | .fencNum _ _ _ => false
  | .fencNumd _ => false
  | .fencBcd _ _ _ => false
  | .fencBcdd _ => false
  | .fencRaw _ => false
  | .fdecTxt _ => false
  | .fdecNum _ _ => false
  | .fdecBcd _ _ => false
  | .fdecRaw _ => false
  | .fpackTxt _ => true
  | .fpackNum _ _ _ => true
  | .fpackNumd _ => true
  | .fpackBcd _ _ _ => true
  | .fpackBcdd _ => true
  | .fpackRaw _ => true
  | .funpkTxt _ => false
  | .funpkNum _ _ => false
  | .funpkBcd _ _ => false
  | .funpkRaw _ => false
  | .cmdBegin _ => true
  | .cmdPush _ => true
  | .csum => false
  | .cmdSend _ => true
  | .cmdSendr _ => true
  | .xpRead _ => false
  | .regLookup _ => false
  | .regRead _ => true
  | .stDecode => false
  | .st3Decode => false

/-- R23: the operations that write `ARG`, but for `SRST`. -/
def writesArgument : Instr → Bool
  | .nop => false
  | .fack => false
  | .srst => false
  | .srRd _ => false
  | .argClr => true
  | .argPush _ => true
  | .argRes => true
  | .resRd _ => false
  | .payRd _ => false
  | .fencTxt _ => false
  | .fencNum _ _ _ => false
  | .fencNumd _ => false
  | .fencBcd _ _ _ => false
  | .fencBcdd _ => false
  | .fencRaw _ => false
  | .fdecTxt _ => false
  | .fdecNum _ _ => false
  | .fdecBcd _ _ => false
  | .fdecRaw _ => false
  | .fpackTxt _ => false
  | .fpackNum _ _ _ => false
  | .fpackNumd _ => false
  | .fpackBcd _ _ _ => false
  | .fpackBcdd _ => false
  | .fpackRaw _ => false
  | .funpkTxt _ => false
  | .funpkNum _ _ => false
  | .funpkBcd _ _ => false
  | .funpkRaw _ => false
  | .cmdBegin _ => false
  | .cmdPush _ => false
  | .csum => false
  | .cmdSend _ => false
  | .cmdSendr _ => false
  | .xpRead _ => false
  | .regLookup _ => false
  | .regRead _ => false
  | .stDecode => false
  | .st3Decode => false

/-- R309: the faults but `IllegalOp` that an operation can raise. -/
def mayRaise : Instr → List FaultKind
  | .nop => []
  | .fack => []
  | .srst => []
  | .srRd _ => []
  | .argClr => []
  | .argPush _ => []
  | .argRes => []
  | .resRd _ => []
  | .payRd _ => []
  | .fencTxt _ => []
  | .fencNum _ _ _ => [.fieldOverflow]
  | .fencNumd _ => [.fieldOverflow, .invalidEncoding]
  | .fencBcd _ _ _ => [.fieldOverflow]
  | .fencBcdd _ => [.fieldOverflow, .invalidEncoding]
  | .fencRaw _ => [.fieldOverflow, .invalidEncoding]
  | .fdecTxt _ => [.invalidEncoding]
  | .fdecNum _ _ => [.invalidEncoding]
  | .fdecBcd _ _ => [.invalidEncoding]
  | .fdecRaw _ => [.invalidEncoding]
  | .fpackTxt _ => []
  | .fpackNum _ _ _ => [.fieldOverflow]
  | .fpackNumd _ => [.fieldOverflow, .invalidEncoding]
  | .fpackBcd _ _ _ => [.fieldOverflow]
  | .fpackBcdd _ => [.fieldOverflow, .invalidEncoding]
  | .fpackRaw _ => [.fieldOverflow, .invalidEncoding]
  | .funpkTxt _ => []
  | .funpkNum _ _ => [.invalidEncoding]
  | .funpkBcd _ _ => [.invalidEncoding]
  | .funpkRaw _ => []
  | .cmdBegin _ => []
  | .cmdPush _ => []
  | .csum => []
  | .cmdSend _ => [.communicationTimeout, .deviceFault, .protocolViolation]
  | .cmdSendr _ => [.communicationTimeout, .protocolViolation]
  | .xpRead _ => [.communicationTimeout, .protocolViolation]
  | .regLookup _ => [.unsupportedRegister]
  | .regRead _ => [.communicationTimeout, .invalidEncoding, .unsupportedRegister, .protocolViolation]
  | .stDecode => [.deviceFault]
  | .st3Decode => [.deviceFault]

/-- R309: the `IllegalOp` reasons of an operation's own. -/
def ownReasons : Instr → List Half
  | .nop => []
  | .fack => []
  | .srst => []
  | .srRd _ => [6]
  | .argClr => []
  | .argPush _ => [5]
  | .argRes => [5]
  | .resRd _ => [3]
  | .payRd _ => [3]
  | .fencTxt _ => []
  | .fencNum _ _ _ => []
  | .fencNumd _ => []
  | .fencBcd _ _ _ => []
  | .fencBcdd _ => []
  | .fencRaw _ => []
  | .fdecTxt _ => []
  | .fdecNum _ _ => []
  | .fdecBcd _ _ => []
  | .fdecRaw _ => []
  | .fpackTxt _ => [4, 5]
  | .fpackNum _ _ _ => [4, 5]
  | .fpackNumd _ => [4, 5]
  | .fpackBcd _ _ _ => [4, 5]
  | .fpackBcdd _ => [4, 5]
  | .fpackRaw _ => [4, 5]
  | .funpkTxt _ => [3]
  | .funpkNum _ _ => [3]
  | .funpkBcd _ _ => [3]
  | .funpkRaw _ => [3]
  | .cmdBegin _ => []
  | .cmdPush _ => [4, 5]
  | .csum => []
  | .cmdSend _ => [4, 5]
  | .cmdSendr _ => [4, 5]
  | .xpRead _ => [5]
  | .regLookup _ => []
  | .regRead _ => []
  | .stDecode => []
  | .st3Decode => []

/-- The packets written on the transport so far, newest first (R66). -/
def packetsWritten (log : List TxEvent) : List ByteString :=
  log.filterMap (fun e => match e with
    | .write p => some p
    | .read _ _ => none)

end Sys2Proof.Machine
end

