-- ==== Sys2Proof/Certificates/Slice0/Obligations.lean ====
section
/-! DEFINITION. The statements for the provers: what the spec's rules say of the decoder, of every operation, of taking
and holding a fault, of the transport loop and of the machine as a whole. -/

open Sys2Proof Sys2Proof.Machine

/-- R99 to R101: a word decodes to an operation exactly when it is that operation's encoding. -/
def Obligations.DecodeInvertsEncode : Prop :=
  ∀ (cw : CommandWord) (i : Instr), decode cw = .legal i ↔ cw = encode i

/-- R100: legality by the table, disjoint rows, and what an illegal word does. -/
def Obligations.IllegalWordsRaise : Prop :=
  ∀ cw : CommandWord,
    ((∃ i, decode cw = .legal i) ↔ wordLegal cw = true) ∧
    (∀ r ∈ wordTable, ∀ q ∈ wordTable, r.admits cw = true → q.admits cw = true → r = q) ∧
    ∀ (s : State) (xs : Datum) (rest : List Transaction),
      s.hostIn = ⟨cw, xs⟩ :: rest → s.seq = .idle → s.flt.kind = .noFault → wordLegal cw = false →
        step s = .next (({ s with xs := xs, hostIn := rest } : State).faulted .illegalOp 0#8
          (if opcodeAssigned cw then 2#16 else 1#16) .noTable)

/-- R98: "The legal combinations are exactly the F-format rows of rule R101." -/
def Obligations.FieldCombinationsAreTheRows : Prop :=
  ∀ cw : CommandWord,
    (opcodeOf cw = 0x20#8 ∨ opcodeOf cw = 0x22#8 → wordLegal cw = (FieldSpec.ofWord cw).legal true) ∧
    (opcodeOf cw = 0x21#8 ∨ opcodeOf cw = 0x23#8 → wordLegal cw = (FieldSpec.ofWord cw).legal false)

/-- Words written out from R91 to R97 and the examples of R105, R286 decode to the operations they stand for. -/
def Obligations.WrittenWordsDecode : Prop :=
  decode 0x00000000#32 = .legal .nop ∧
  decode 0x03000002#32 = .legal (.srRd 0x02#8) ∧
  decode 0x11000041#32 = .legal (.argPush 0x41#8) ∧
  decode 0x13000001#32 = .legal (.resRd 1#16) ∧
  decode 0x200B3330#32 = .legal (.fencNum 11#8 3#4 3#4) ∧
  decode 0x21022050#32 = .legal (.fdecBcd 2#8 2#4) ∧
  decode 0x22060000#32 = .legal (.fpackTxt 6#8) ∧
  decode 0x23032050#32 = .legal (.funpkBcd 3#8 2#4) ∧
  decode 0x30000023#32 = .legal (.cmdBegin 0x23#24) ∧
  decode 0x33000300#32 = .legal (.cmdSend 3#16) ∧
  decode 0x33000501#32 = .legal (.cmdSendr 5#16) ∧
  decode 0x38000400#32 = .legal (.xpRead 4#16) ∧
  decode 0x41000006#32 = .legal (.regRead 6#8) ∧
  decode 0x50000000#32 = .legal .stDecode

/-- R9, R33, R90: a step of the idle block runs the operation its next word decodes to, on that transaction's `XS`. The
queue of presented transactions is the model's own (log entry 1). -/
def Obligations.StepRunsDecoded : Prop :=
  ∀ (s : State) (t : Transaction) (rest : List Transaction) (i : Instr),
    s.seq = .idle → s.hostIn = t :: rest → decode t.cw = .legal i →
      step s = exec i { s with xs := t.xs, hostIn := rest }

/-- R323, R33: with no transaction presented the idle block holds its state (log entry 1); the model's choice for a busy
block (log entry 7) is the fault `hostPortBusy`. -/
def Obligations.StepHoldsOrIsBusy : Prop :=
  ∀ s : State,
    (s.seq = .idle → s.hostIn = [] → step s = .next s) ∧ (s.seq ≠ .idle → step s = .fault .hostPortBusy)

/-- R312, whole: while a fault is latched every word is refused but those with the opcodes of `FACK`, `SRST`, `SR.RD`. -/
def Obligations.RefusedWhileLatched : Prop :=
  ∀ (s : State) (t : Transaction) (rest : List Transaction),
    s.seq = .idle → s.hostIn = t :: rest → s.flt.kind ≠ .noFault →
    (opcodeOf t.cw ≠ 0x01#8 ∧ opcodeOf t.cw ≠ 0x02#8 ∧ opcodeOf t.cw ≠ 0x03#8 →
      step s = .next { s with
        xs := t.xs, hostIn := rest, completions := ⟨s.flt.kind.code, 0#64⟩ :: s.completions }) ∧
    (∀ i, decode t.cw = .legal i → (runsLatched i = true ↔
      opcodeOf t.cw = 0x01#8 ∨ opcodeOf t.cw = 0x02#8 ∨ opcodeOf t.cw = 0x03#8))

/-- R314: the first fault wins. -/
def Obligations.FirstFaultWins : Prop :=
  ∀ (s u : State) (t : Transaction) (rest : List Transaction),
    s.hostIn = t :: rest → s.flt.kind ≠ .noFault → step s = .next u →
    (t.cw ≠ encode .fack → t.cw ≠ encode .srst → u.flt = s.flt) ∧
    ((opcodeOf t.cw = 0x01#8 ∨ opcodeOf t.cw = 0x02#8 ∨ opcodeOf t.cw = 0x03#8) → wordLegal t.cw = false →
      u = { s with xs := t.xs, hostIn := rest, completions := ⟨7#4, 0#64⟩ :: s.completions }) ∧
    (∀ n, t.cw = encode (.srRd n) → n ∉ s.registerValues.map Prod.fst →
      u = { s with xs := t.xs, hostIn := rest, completions := ⟨7#4, 0#64⟩ :: s.completions })

/-- The invariant of the block (R27, R29, R31, R33, R34, R36, R37, R39, R40, R43) is kept by every step. Its lengths are
those of 16-bit registers, which rests on the bound of log entry 4, and its buffers' canonical form is the model's own
(log entry 5). -/
def Obligations.SoundIsKept : Prop :=
  ∀ s t : State, s.Sound → step s = .next t → t.Sound

/-- The reset state meets the invariant, in every configuration; what its buffers' bytes are is the model's choice (log
entry 5). -/
def Obligations.SoundAtReset : Prop :=
  State.reset.Sound ∧ ∀ cfg : Configuration, (State.resetWith cfg).Sound

/-- R52, R294, whole: the reset values after reset and after `SRST`, which touches neither the transport nor the
configuration. -/
def Obligations.ResetValues : Prop :=
  (State.reset.AtReset ∧ ∀ cfg : Configuration, (State.resetWith cfg).AtReset ∧ (State.resetWith cfg).cfg = cfg) ∧
  encode .srst = 0x02000000#32 ∧
  ∀ s : State, ∃ t, exec .srst s = .next t ∧ t.AtReset ∧
    t = { t with
      xs := s.xs, hostIn := s.hostIn, completions := ⟨0#4, 0#64⟩ :: s.completions
      txScript := s.txScript, txLog := s.txLog, cfg := s.cfg }

/-- R8, R9, R11, R33: every transaction has exactly one completion, leaves the block idle and changes no parameter. -/
def Obligations.OneCompletionPerTransaction : Prop :=
  ∀ (s : State) (t : Transaction) (rest : List Transaction), s.seq = .idle → s.hostIn = t :: rest →
    ∃ u c, step s = .next u ∧ u.completions = c :: s.completions ∧ u.hostIn = rest ∧ u.seq = .idle ∧ u.cfg = s.cfg

/-- R33, R232: no run from a sound state ever stops, and it stays sound in one configuration. That an idle step with
nothing presented goes on is the model's choice (log entry 1). -/
def Obligations.RunsNeverStop : Prop :=
  ∀ (n : Nat) (s : State), s.Sound → ∃ t, s.RunsTo n t ∧ t.Sound ∧ t.cfg = s.cfg

/-- R102, R310, R326: from a state with no fault latched, the completion's `CC` is the kind the latch then holds, and
with a fault `XD = 0` and `SEQ = IDLE`. -/
def Obligations.CompletionMatchesLatch : Prop :=
  ∀ (i : Instr) (s t : State), s.flt.kind = .noFault → exec i s = .next t →
    ∃ c, t.completions = c :: s.completions ∧ c.cc = t.flt.kind.code ∧
      (t.flt.kind ≠ .noFault → c.xd = 0#64 ∧ t.seq = .idle)

/-- R311, its first four rows: a fault that strikes before any I/O leaves everything but `FLT` as it was. -/
def Obligations.FaultsArePrecise : Prop :=
  ∀ (i : Instr) (s t : State), s.flt.kind = .noFault → exec i s = .next t → t.flt.kind ≠ .noFault →
    touchesTransport i = false ∨ t.flt.kind = .illegalOp ∨ t.flt.kind = .unsupportedRegister →
      t = s.faulted t.flt.kind t.flt.sub t.flt.det t.flt.tbl

/-- R309, which the spec derives from its instruction rules: which operation can raise which fault, and for which
`IllegalOp` reasons. -/
def Obligations.RaisesOnlyItsFaults : Prop :=
  ∀ (i : Instr) (s t : State), s.flt.kind = .noFault → exec i s = .next t → t.flt.kind ≠ .noFault →
    (t.flt.kind = .illegalOp ∧ t.flt.det ∈ ownReasons i) ∨ t.flt.kind ∈ mayRaise i

/-- R61, which the spec derives from its instruction rules, the column "written by": an operation not listed for a space
leaves it alone. -/
def Obligations.SpacesWritten : Prop :=
  ∀ (i : Instr) (s t : State), exec i s = .next t →
    t.cfg = s.cfg ∧
    (i ≠ .srst →
      (writesArgument i = false → t.arg = s.arg) ∧
      (writesCommand i = false → t.cmd = s.cmd) ∧
      (writesResult i = false → t.res = s.res) ∧
      (touchesTransport i = false → t.rpl = s.rpl)) ∧
    (sendsPacket i = false → packetsWritten t.txLog = packetsWritten s.txLog) ∧
    (touchesTransport i = false → t.txScript = s.txScript ∧ t.txLog = s.txLog)

/-- R291, whole. -/
def Obligations.NopChangesNothing : Prop :=
  encode .nop = 0x00000000#32 ∧
  ∀ s : State,
    (s.flt.kind = .noFault → exec .nop s = .next { s with completions := ⟨0#4, 0#64⟩ :: s.completions }) ∧
    (s.flt.kind ≠ .noFault →
      exec .nop s = .next { s with completions := ⟨s.flt.kind.code, 0#64⟩ :: s.completions })

/-- R292, whole: `FACK` hands over `FLT` and clears it, and changes nothing else. -/
def Obligations.FackHandsOver : Prop :=
  encode .fack = 0x01000000#32 ∧
  ∀ s : State, ∃ xd : Datum, ∃ clear : FaultLatch,
    exec .fack s = .next { s with flt := clear, completions := ⟨0#4, xd⟩ :: s.completions } ∧
    clear.word = 0#36 ∧
    xd.extractLsb' 0 4 = s.flt.kind.code ∧ xd.extractLsb' 4 4 = 0#4 ∧ xd.extractLsb' 8 8 = s.flt.sub ∧
    xd.extractLsb' 16 16 = s.flt.det ∧ xd.extractLsb' 32 4 = s.flt.tbl.code ∧ xd.extractLsb' 36 28 = 0#28

/-- R42, R293: what `SR.RD` reads from each number of R41, latched fault or not, and that a reserved number raises. A
transaction is accepted only when `SEQ = IDLE` (R33), so `SEQ` "always reads 0". -/
def Obligations.SrRdReads : Prop :=
  ∀ (s : State) (n : Byte), s.seq = .idle →
    encode (.srRd n) = 0x03#8 ++ 0#16 ++ n ∧
    (∀ v, (n, v) ∈ s.registerValues →
      exec (.srRd n) s = .next { s with completions := ⟨0#4, BitVec.ofNat 64 v⟩ :: s.completions }) ∧
    (n ∉ s.registerValues.map Prod.fst → s.flt.kind = .noFault →
      exec (.srRd n) s = .next (s.faulted .illegalOp 0#8 6#16 .noTable)) ∧
    (n ∉ s.registerValues.map Prod.fst → s.flt.kind ≠ .noFault →
      exec (.srRd n) s = .next { s with seq := .idle, completions := ⟨7#4, 0#64⟩ :: s.completions })

/-- R161, whole. -/
def Obligations.ArgClrEmpties : Prop :=
  encode .argClr = 0x10000000#32 ∧
  ∀ s : State, s.flt.kind = .noFault → ∃ t,
    exec .argClr s = .next t ∧ t.arg.content = [] ∧
    (∀ a, t.arg.mem.read a = s.arg.mem.read a) ∧
    t = { s with arg := t.arg, completions := ⟨0#4, 0#64⟩ :: s.completions }

/-- R162, whole. -/
def Obligations.ArgPushAppends : Prop :=
  ∀ (s : State) (b : Byte), s.flt.kind = .noFault → s.arg.mem.wf = true →
    encode (.argPush b) = 0x11#8 ++ 0#16 ++ b ∧
    (s.arg.len.toNat < s.params.argCap → ∃ t,
      exec (.argPush b) s = .next t ∧ s.arg.Extends t.arg [b] ∧
      t = { s with
        arg := t.arg, completions := ⟨0#4, BitVec.ofNat 64 (s.arg.len.toNat + 1)⟩ :: s.completions }) ∧
    (s.arg.len.toNat = s.params.argCap →
      exec (.argPush b) s = .next (s.faulted .illegalOp 0#8 5#16 .noTable))

/-- R163, whole. -/
def Obligations.ArgResCopies : Prop :=
  ∀ s : State, s.flt.kind = .noFault → s.arg.mem.wf = true →
    encode .argRes = 0x12000000#32 ∧
    (s.res.len.toNat ≤ s.params.argCap → ∃ t,
      exec .argRes s = .next t ∧ s.arg.Holds t.arg s.res.content ∧
      t = { s with arg := t.arg, completions := ⟨0#4, s.res.len.setWidth 64⟩ :: s.completions }) ∧
    (s.params.argCap < s.res.len.toNat → exec .argRes s = .next (s.faulted .illegalOp 0#8 5#16 .noTable))

/-- R164, whole. -/
def Obligations.ResRdReads : Prop :=
  ∀ (s : State) (idx : Half), s.flt.kind = .noFault →
    encode (.resRd idx) = 0x13#8 ++ 0#8 ++ idx ∧
    (∀ b, s.res.content[idx.toNat]? = some b →
      exec (.resRd idx) s = .next { s with completions := ⟨0#4, b.setWidth 64⟩ :: s.completions }) ∧
    (s.res.len.toNat ≤ idx.toNat →
      exec (.resRd idx) s = .next (s.faulted .illegalOp 0#8 3#16 .noTable))

/-- R165, whole. -/
def Obligations.PayRdReads : Prop :=
  ∀ (s : State) (idx : Half), s.flt.kind = .noFault →
    encode (.payRd idx) = 0x14#8 ++ 0#8 ++ idx ∧
    (∀ b, s.payload[idx.toNat]? = some b →
      exec (.payRd idx) s = .next { s with completions := ⟨0#4, b.setWidth 64⟩ :: s.completions }) ∧
    (s.plen.toNat ≤ idx.toNat →
      exec (.payRd idx) s = .next (s.faulted .illegalOp 0#8 3#16 .noTable))

/-- R124, R133, whole: `FENC.TXT` always completes, padding or truncating. -/
def Obligations.FencTxtStores : Prop :=
  ∀ (s : State) (w : Byte), s.flt.kind = .noFault → s.res.mem.wf = true →
    encode (.fencTxt w) = 0x20#8 ++ w ++ 0#4 ++ 0#4 ++ 0x00#8 ∧
    ∃ t f, exec (.fencTxt w) s = .next t ∧ IsTextField s.arg.content w.toNat f ∧ s.res.Holds t.res f ∧
      t = { s with res := t.res, completions := ⟨0#4, w.setWidth 64⟩ :: s.completions }

/-- R125, R126, R134: `FENC.NUM`. -/
def Obligations.FencNumStores : Prop :=
  ∀ (s : State) (w : Byte) (sc e : BitVec 4), s.flt.kind = .noFault → s.res.mem.wf = true →
    encode (.fencNum w sc e) = 0x20#8 ++ w ++ sc ++ e ++ 0x30#8 ∧
    (s.scaledOperand sc e < 10 ^ w.toNat → ∃ t f,
      exec (.fencNum w sc e) s = .next t ∧ IsDecimalField (s.scaledOperand sc e) w.toNat f ∧
      s.res.Holds t.res f ∧
      t = { s with res := t.res, completions := ⟨0#4, w.setWidth 64⟩ :: s.completions }) ∧
    (10 ^ w.toNat ≤ s.scaledOperand sc e →
      exec (.fencNum w sc e) s = .next (s.faulted .fieldOverflow 0#8 0#16 .noTable))

/-- R126, R129, R135: `FENC.NUMD`; "the digit check comes first". -/
def Obligations.FencNumdStores : Prop :=
  ∀ (s : State) (w : Byte), s.flt.kind = .noFault → s.res.mem.wf = true →
    encode (.fencNumd w) = 0x20#8 ++ w ++ 0#4 ++ 0#4 ++ 0x38#8 ∧
    ((∀ b ∈ s.arg.content, AsciiDigit b) → decimalValue s.arg.content < 10 ^ w.toNat → ∃ t f,
      exec (.fencNumd w) s = .next t ∧ IsDecimalField (decimalValue s.arg.content) w.toNat f ∧
      s.res.Holds t.res f ∧
      t = { s with res := t.res, completions := ⟨0#4, w.setWidth 64⟩ :: s.completions }) ∧
    ((∀ b ∈ s.arg.content, AsciiDigit b) → 10 ^ w.toNat ≤ decimalValue s.arg.content →
      exec (.fencNumd w) s = .next (s.faulted .fieldOverflow 0#8 0#16 .noTable)) ∧
    (∀ i, FirstBad AsciiDigit s.arg.content i →
      exec (.fencNumd w) s = .next (s.faulted .invalidEncoding 0#8 (BitVec.ofNat 16 i) .noTable))

/-- R125, R127, R136: `FENC.BCD`. -/
def Obligations.FencBcdStores : Prop :=
  ∀ (s : State) (w : Byte) (sc e : BitVec 4), s.flt.kind = .noFault → s.res.mem.wf = true →
    encode (.fencBcd w sc e) = 0x20#8 ++ w ++ sc ++ e ++ 0x50#8 ∧
    (s.scaledOperand sc e < 10 ^ (2 * w.toNat) → ∃ t f,
      exec (.fencBcd w sc e) s = .next t ∧ IsPackedField (s.scaledOperand sc e) w.toNat f ∧
      s.res.Holds t.res f ∧
      t = { s with res := t.res, completions := ⟨0#4, w.setWidth 64⟩ :: s.completions }) ∧
    (10 ^ (2 * w.toNat) ≤ s.scaledOperand sc e →
      exec (.fencBcd w sc e) s = .next (s.faulted .fieldOverflow 0#8 0#16 .noTable))

/-- R127, R129, R137: `FENC.BCDD`; "the digit check comes first". -/
def Obligations.FencBcddStores : Prop :=
  ∀ (s : State) (w : Byte), s.flt.kind = .noFault → s.res.mem.wf = true →
    encode (.fencBcdd w) = 0x20#8 ++ w ++ 0#4 ++ 0#4 ++ 0x58#8 ∧
    ((∀ b ∈ s.arg.content, AsciiDigit b) → decimalValue s.arg.content < 10 ^ (2 * w.toNat) → ∃ t f,
      exec (.fencBcdd w) s = .next t ∧ IsPackedField (decimalValue s.arg.content) w.toNat f ∧
      s.res.Holds t.res f ∧
      t = { s with res := t.res, completions := ⟨0#4, w.setWidth 64⟩ :: s.completions }) ∧
    ((∀ b ∈ s.arg.content, AsciiDigit b) → 10 ^ (2 * w.toNat) ≤ decimalValue s.arg.content →
      exec (.fencBcdd w) s = .next (s.faulted .fieldOverflow 0#8 0#16 .noTable)) ∧
    (∀ i, FirstBad AsciiDigit s.arg.content i →
      exec (.fencBcdd w) s = .next (s.faulted .invalidEncoding 0#8 (BitVec.ofNat 16 i) .noTable))

/-- R138, whole: `FENC.RAW`. -/
def Obligations.FencRawStores : Prop :=
  ∀ (s : State) (w : Byte), s.flt.kind = .noFault → s.res.mem.wf = true →
    encode (.fencRaw w) = 0x20#8 ++ w ++ 0#4 ++ 0#4 ++ 0x60#8 ∧
    (s.arg.len.toNat = w.toNat → ∃ t,
      exec (.fencRaw w) s = .next t ∧ s.res.Holds t.res s.arg.content ∧
      t = { s with res := t.res, completions := ⟨0#4, w.setWidth 64⟩ :: s.completions }) ∧
    (w.toNat < s.arg.len.toNat →
      exec (.fencRaw w) s = .next (s.faulted .fieldOverflow 0#8 0#16 .noTable)) ∧
    (s.arg.len.toNat < w.toNat →
      exec (.fencRaw w) s = .next (s.faulted .invalidEncoding 0#8 s.arg.len .noTable))

/-- R139, R142, whole: `FDEC.TXT` and `FDEC.RAW`. -/
def Obligations.FdecVerbatim : Prop :=
  ∀ (s : State) (w : Byte) (i : Instr), i = .fdecTxt w ∨ i = .fdecRaw w →
    s.flt.kind = .noFault → s.res.mem.wf = true →
    encode (.fdecTxt w) = 0x21#8 ++ w ++ 0#4 ++ 0#4 ++ 0x00#8 ∧
    encode (.fdecRaw w) = 0x21#8 ++ w ++ 0#4 ++ 0#4 ++ 0x60#8 ∧
    (s.arg.len.toNat = w.toNat → ∃ t,
      exec i s = .next t ∧ Decodes s t s.arg.content false 0#4 (w.setWidth 64)) ∧
    (s.arg.len.toNat ≠ w.toNat →
      exec i s = .next (s.faulted .invalidEncoding 0#8 (BitVec.ofNat 16 (min s.arg.len.toNat w.toNat)) .noTable))

/-- R129, R131, R140: `FDEC.NUM`; a wrong length before a bad digit. -/
def Obligations.FdecNumDecodes : Prop :=
  ∀ (s : State) (w : Byte) (sc : BitVec 4), s.flt.kind = .noFault → s.res.mem.wf = true →
    encode (.fdecNum w sc) = 0x21#8 ++ w ++ sc ++ 0#4 ++ 0x30#8 ∧
    (s.arg.len.toNat = w.toNat → (∀ b ∈ s.arg.content, AsciiDigit b) → ∃ t,
      exec (.fdecNum w sc) s = .next t ∧ DecodesNumber s t s.arg.content sc) ∧
    (s.arg.len.toNat ≠ w.toNat →
      exec (.fdecNum w sc) s = .next
        (s.faulted .invalidEncoding 0#8 (BitVec.ofNat 16 (min s.arg.len.toNat w.toNat)) .noTable)) ∧
    (s.arg.len.toNat = w.toNat → ∀ i, FirstBad AsciiDigit s.arg.content i →
      exec (.fdecNum w sc) s = .next (s.faulted .invalidEncoding 0#8 (BitVec.ofNat 16 i) .noTable))

/-- R130, R131, R141: `FDEC.BCD`; a wrong length before a bad nibble. -/
def Obligations.FdecBcdDecodes : Prop :=
  ∀ (s : State) (w : Byte) (sc : BitVec 4), s.flt.kind = .noFault → s.res.mem.wf = true →
    encode (.fdecBcd w sc) = 0x21#8 ++ w ++ sc ++ 0#4 ++ 0x50#8 ∧
    (s.arg.len.toNat = w.toNat → (∀ b ∈ s.arg.content, BcdByte b) → ∃ t,
      exec (.fdecBcd w sc) s = .next t ∧ DecodesNumber s t (bcdText s.arg.content) sc) ∧
    (s.arg.len.toNat ≠ w.toNat →
      exec (.fdecBcd w sc) s = .next
        (s.faulted .invalidEncoding 0#8 (BitVec.ofNat 16 (min s.arg.len.toNat w.toNat)) .noTable)) ∧
    (s.arg.len.toNat = w.toNat → ∀ i, FirstBad BcdByte s.arg.content i →
      exec (.fdecBcd w sc) s = .next (s.faulted .invalidEncoding 0#8 (BitVec.ofNat 16 i) .noTable))

/-- R166, R167, R172: `FPACK.TXT` and `FPACK.RAW` append their field. -/
def Obligations.FpackBytesAppends : Prop :=
  ∀ (s : State) (w : Byte), s.flt.kind = .noFault → s.cmd.mem.wf = true →
    s.cmd.len ≠ 0#16 → s.cmd.len.toNat + w.toNat ≤ s.params.cmdCap →
    (∃ t f, exec (.fpackTxt w) s = .next t ∧ IsTextField s.arg.content w.toNat f ∧ s.cmd.Extends t.cmd f ∧
      t = { s with
        cmd := t.cmd
        completions := ⟨0#4, BitVec.ofNat 64 (s.cmd.len.toNat + w.toNat)⟩ :: s.completions }) ∧
    (s.arg.len.toNat = w.toNat → ∃ t,
      exec (.fpackRaw w) s = .next t ∧ s.cmd.Extends t.cmd s.arg.content ∧
      t = { s with
        cmd := t.cmd
        completions := ⟨0#4, BitVec.ofNat 64 (s.cmd.len.toNat + w.toNat)⟩ :: s.completions })

/-- R166, R168, R170: `FPACK.NUM` and `FPACK.BCD` append the field of their coefficient. -/
def Obligations.FpackNumbersAppend : Prop :=
  ∀ (s : State) (w : Byte) (sc e : BitVec 4), s.flt.kind = .noFault → s.cmd.mem.wf = true →
    s.cmd.len ≠ 0#16 → s.cmd.len.toNat + w.toNat ≤ s.params.cmdCap →
    (s.scaledOperand sc e < 10 ^ w.toNat → ∃ t f,
      exec (.fpackNum w sc e) s = .next t ∧ IsDecimalField (s.scaledOperand sc e) w.toNat f ∧
      s.cmd.Extends t.cmd f ∧
      t = { s with
        cmd := t.cmd
        completions := ⟨0#4, BitVec.ofNat 64 (s.cmd.len.toNat + w.toNat)⟩ :: s.completions }) ∧
    (s.scaledOperand sc e < 10 ^ (2 * w.toNat) → ∃ t f,
      exec (.fpackBcd w sc e) s = .next t ∧ IsPackedField (s.scaledOperand sc e) w.toNat f ∧
      s.cmd.Extends t.cmd f ∧
      t = { s with
        cmd := t.cmd
        completions := ⟨0#4, BitVec.ofNat 64 (s.cmd.len.toNat + w.toNat)⟩ :: s.completions })

/-- R166, R169, R171: `FPACK.NUMD` and `FPACK.BCDD` append the field of their digit string. -/
def Obligations.FpackDigitsAppend : Prop :=
  ∀ (s : State) (w : Byte), s.flt.kind = .noFault → s.cmd.mem.wf = true →
    s.cmd.len ≠ 0#16 → s.cmd.len.toNat + w.toNat ≤ s.params.cmdCap → (∀ b ∈ s.arg.content, AsciiDigit b) →
    (decimalValue s.arg.content < 10 ^ w.toNat → ∃ t f,
      exec (.fpackNumd w) s = .next t ∧ IsDecimalField (decimalValue s.arg.content) w.toNat f ∧
      s.cmd.Extends t.cmd f ∧
      t = { s with
        cmd := t.cmd
        completions := ⟨0#4, BitVec.ofNat 64 (s.cmd.len.toNat + w.toNat)⟩ :: s.completions }) ∧
    (decimalValue s.arg.content < 10 ^ (2 * w.toNat) → ∃ t f,
      exec (.fpackBcdd w) s = .next t ∧ IsPackedField (decimalValue s.arg.content) w.toNat f ∧
      s.cmd.Extends t.cmd f ∧
      t = { s with
        cmd := t.cmd
        completions := ⟨0#4, BitVec.ofNat 64 (s.cmd.len.toNat + w.toNat)⟩ :: s.completions })

/-- R166 to R172: where the packs trap, in the order of R166: no command, no room, then the codec faults of the field. -/
def Obligations.FpackTraps : Prop :=
  ∀ (s : State) (w : Byte) (sc e : BitVec 4), s.flt.kind = .noFault →
    let packs := [Instr.fpackTxt w, .fpackNum w sc e, .fpackNumd w, .fpackBcd w sc e, .fpackBcdd w, .fpackRaw w]
    (s.cmd.len = 0#16 → ∀ i ∈ packs, exec i s = .next (s.faulted .illegalOp 0#8 4#16 .noTable)) ∧
    (s.cmd.len ≠ 0#16 → s.params.cmdCap < s.cmd.len.toNat + w.toNat →
      ∀ i ∈ packs, exec i s = .next (s.faulted .illegalOp 0#8 5#16 .noTable)) ∧
    (s.cmd.len ≠ 0#16 → s.cmd.len.toNat + w.toNat ≤ s.params.cmdCap →
      (10 ^ w.toNat ≤ s.scaledOperand sc e →
        exec (.fpackNum w sc e) s = .next (s.faulted .fieldOverflow 0#8 0#16 .noTable)) ∧
      (10 ^ (2 * w.toNat) ≤ s.scaledOperand sc e →
        exec (.fpackBcd w sc e) s = .next (s.faulted .fieldOverflow 0#8 0#16 .noTable)) ∧
      ((∀ b ∈ s.arg.content, AsciiDigit b) → 10 ^ w.toNat ≤ decimalValue s.arg.content →
        exec (.fpackNumd w) s = .next (s.faulted .fieldOverflow 0#8 0#16 .noTable)) ∧
      ((∀ b ∈ s.arg.content, AsciiDigit b) → 10 ^ (2 * w.toNat) ≤ decimalValue s.arg.content →
        exec (.fpackBcdd w) s = .next (s.faulted .fieldOverflow 0#8 0#16 .noTable)) ∧
      (∀ k, FirstBad AsciiDigit s.arg.content k → ∀ i ∈ [Instr.fpackNumd w, .fpackBcdd w],
        exec i s = .next (s.faulted .invalidEncoding 0#8 (BitVec.ofNat 16 k) .noTable)) ∧
      (w.toNat < s.arg.len.toNat →
        exec (.fpackRaw w) s = .next (s.faulted .fieldOverflow 0#8 0#16 .noTable)) ∧
      (s.arg.len.toNat < w.toNat →
        exec (.fpackRaw w) s = .next (s.faulted .invalidEncoding 0#8 s.arg.len .noTable)))

/-- R173, R174, R177, whole: `FUNPK.TXT` and `FUNPK.RAW`. -/
def Obligations.FunpkVerbatim : Prop :=
  ∀ (s : State) (w : Byte) (i : Instr), i = .funpkTxt w ∨ i = .funpkRaw w →
    s.flt.kind = .noFault → s.res.mem.wf = true →
    encode (.funpkTxt w) = 0x23#8 ++ w ++ 0#4 ++ 0#4 ++ 0x00#8 ∧
    encode (.funpkRaw w) = 0x23#8 ++ w ++ 0#4 ++ 0#4 ++ 0x60#8 ∧
    (s.xs.toNat + w.toNat ≤ s.plen.toNat → ∃ t,
      exec i s = .next t ∧ Decodes s t (s.payloadField w) false 0#4 (w.setWidth 64)) ∧
    (s.plen.toNat < s.xs.toNat + w.toNat → exec i s = .next (s.faulted .illegalOp 0#8 3#16 .noTable))

/-- R173, R175: `FUNPK.NUM`. -/
def Obligations.FunpkNumDecodes : Prop :=
  ∀ (s : State) (w : Byte) (sc : BitVec 4), s.flt.kind = .noFault → s.res.mem.wf = true →
    encode (.funpkNum w sc) = 0x23#8 ++ w ++ sc ++ 0#4 ++ 0x30#8 ∧
    (s.xs.toNat + w.toNat ≤ s.plen.toNat → (∀ b ∈ s.payloadField w, AsciiDigit b) → ∃ t,
      exec (.funpkNum w sc) s = .next t ∧ DecodesNumber s t (s.payloadField w) sc) ∧
    (s.xs.toNat + w.toNat ≤ s.plen.toNat → ∀ i, FirstBad AsciiDigit (s.payloadField w) i →
      exec (.funpkNum w sc) s = .next (s.faulted .invalidEncoding 0#8 (BitVec.ofNat 16 i) .noTable)) ∧
    (s.plen.toNat < s.xs.toNat + w.toNat →
      exec (.funpkNum w sc) s = .next (s.faulted .illegalOp 0#8 3#16 .noTable))

/-- R173, R176: `FUNPK.BCD`. -/
def Obligations.FunpkBcdDecodes : Prop :=
  ∀ (s : State) (w : Byte) (sc : BitVec 4), s.flt.kind = .noFault → s.res.mem.wf = true →
    encode (.funpkBcd w sc) = 0x23#8 ++ w ++ sc ++ 0#4 ++ 0x50#8 ∧
    (s.xs.toNat + w.toNat ≤ s.plen.toNat → (∀ b ∈ s.payloadField w, BcdByte b) → ∃ t,
      exec (.funpkBcd w sc) s = .next t ∧ DecodesNumber s t (bcdText (s.payloadField w)) sc) ∧
    (s.xs.toNat + w.toNat ≤ s.plen.toNat → ∀ i, FirstBad BcdByte (s.payloadField w) i →
      exec (.funpkBcd w sc) s = .next (s.faulted .invalidEncoding 0#8 (BitVec.ofNat 16 i) .noTable)) ∧
    (s.plen.toNat < s.xs.toNat + w.toNat →
      exec (.funpkBcd w sc) s = .next (s.faulted .illegalOp 0#8 3#16 .noTable))

/-- R191, R192, whole: `CMD.BEGIN`. -/
def Obligations.CmdBeginStarts : Prop :=
  ∀ (s : State) (id : BitVec 24), s.flt.kind = .noFault → s.cmd.mem.wf = true →
    encode (.cmdBegin id) = 0x30#8 ++ id ∧
    ∃ t f, exec (.cmdBegin id) s = .next t ∧ IsIdentifier id f ∧ s.cmd.Holds t.cmd f ∧
      t = { s with
        cmd := t.cmd, cmdId := id, completions := ⟨0#4, BitVec.ofNat 64 f.length⟩ :: s.completions }

/-- R193, whole: `CMD.PUSH`. -/
def Obligations.CmdPushAppends : Prop :=
  ∀ (s : State) (b : Byte), s.flt.kind = .noFault → s.cmd.mem.wf = true →
    encode (.cmdPush b) = 0x31#8 ++ 0#16 ++ b ∧
    (s.cmd.len ≠ 0#16 → s.cmd.len.toNat < s.params.cmdCap → ∃ t,
      exec (.cmdPush b) s = .next t ∧ s.cmd.Extends t.cmd [b] ∧
      t = { s with
        cmd := t.cmd, completions := ⟨0#4, BitVec.ofNat 64 (s.cmd.len.toNat + 1)⟩ :: s.completions }) ∧
    (s.cmd.len = 0#16 → exec (.cmdPush b) s = .next (s.faulted .illegalOp 0#8 4#16 .noTable)) ∧
    (s.cmd.len ≠ 0#16 → s.cmd.len.toNat = s.params.cmdCap →
      exec (.cmdPush b) s = .next (s.faulted .illegalOp 0#8 5#16 .noTable))

/-- R195, R198: `CSUM`. The algorithm is the spec's own decision D21 (entry 13). -/
def Obligations.CsumSums : Prop :=
  ∀ s : State, s.flt.kind = .noFault → s.cmd.len.toNat ≤ s.params.cmdCap →
    exec .csum s = .next { s with
      completions := ⟨0#4, BitVec.ofNat 64 ((s.cmd.content.map BitVec.toNat).sum % 65536 +
        (s.cmd.len.toNat + 2) * 65536)⟩ :: s.completions }

/-- R202, R205, R206: `CMD.SEND` with a reply that is delivered: it completes, or raises the device fault of the first
matching status entry after the reply has been latched. The packet is the spec's own decision D21 (entry 13). -/
def Obligations.CmdSendRuns : Prop :=
  ∀ (s : State) (n : Half) (chunks : List ByteString) (ack st1 st2 : Byte) (pay : ByteString),
    s.flt.kind = .noFault → s.rpl.mem.wf = true →
    s.cmd.len ≠ 0#16 → n.toNat + 3 ≤ s.params.rplCap →
    Answers s.txScript s.sent.txLog (n.toNat + 3) chunks →
    Delivers s.params.retryCeiling (n.toNat + 3) chunks (ack :: pay ++ [st1, st2]) →
    (s.cmdId = s.params.rdregId ∨ StatusClean s.params st1 st2 → ∃ t,
      exec (.cmdSend n) s = .next t ∧ s.rpl.Holds t.rpl (ack :: pay ++ [st1, st2]) ∧
      t = { (s.sent.received (n.toNat + 3) chunks t.rpl).latched ack st1 st2 n.toNat with
        completions :=
          ⟨0#4, match pay with
            | [b] => b.setWidth 64
            | _ => n.setWidth 64⟩ :: s.completions }) ∧
    (s.cmdId ≠ s.params.rdregId → ∀ e tbl, StatusRaises s.params st1 st2 e tbl → ∃ t,
      exec (.cmdSend n) s = .next t ∧ s.rpl.Holds t.rpl (ack :: pay ++ [st1, st2]) ∧
      t = ((s.sent.received (n.toNat + 3) chunks t.rpl).latched ack st1 st2 n.toNat).faulted
        .deviceFault e.sub (e.mask.setWidth 16) tbl)

/-- R207, R230: `CMD.SENDR` and `XP.READ` with a reply that is delivered: the whole reply is the window, no status. The
packet that `CMD.SENDR` writes is the spec's own decision D21 (entry 13). -/
def Obligations.RawReadsRun : Prop :=
  ∀ (s u : State) (n : Half) (i : Instr) (chunks : List ByteString) (reply : ByteString),
    i = .cmdSendr n ∨ i = .xpRead n →
    s.flt.kind = .noFault → s.rpl.mem.wf = true → s.beforeRead i = some (u, n.toNat) →
    Answers u.txScript u.txLog n.toNat chunks → Delivers s.params.retryCeiling n.toNat chunks reply → ∃ t,
      exec i s = .next t ∧ s.rpl.Holds t.rpl reply ∧
      t = { u.received n.toNat chunks t.rpl with
        pbase := 0#16, plen := n, completions := ⟨0#4, n.setWidth 64⟩ :: s.completions }

/-- R201 and R244, whole, with line 1 of R230: a failed pre-I/O check raises before anything changes and without any
I/O. -/
def Obligations.ChecksPrecedeIo : Prop :=
  ∀ (s : State) (n : Half) (id : Byte), s.flt.kind = .noFault →
    (s.cmd.len = 0#16 → ∀ i ∈ [Instr.cmdSend n, .cmdSendr n],
      exec i s = .next (s.faulted .illegalOp 0#8 4#16 .noTable)) ∧
    (s.cmd.len ≠ 0#16 → s.params.rplCap < n.toNat + 3 →
      exec (.cmdSend n) s = .next (s.faulted .illegalOp 0#8 5#16 .noTable)) ∧
    (s.cmd.len ≠ 0#16 → s.params.rplCap < n.toNat →
      exec (.cmdSendr n) s = .next (s.faulted .illegalOp 0#8 5#16 .noTable)) ∧
    (s.params.rplCap < n.toNat → exec (.xpRead n) s = .next (s.faulted .illegalOp 0#8 5#16 .noTable)) ∧
    ((∀ e ∈ s.params.regTable, e.id ≠ id) →
      exec (.regRead id) s = .next (s.faulted .unsupportedRegister 0#8 (id.setWidth 16) .noTable))

/-- R222, R224, R225, R233, R311: a read that fails: the timeout at the `RETRY_CEILING`-th empty poll, and the
over-long answer. The packet is the spec's own decision D21 (entry 13). -/
def Obligations.ReadFaults : Prop :=
  ∀ (s u : State) (i : Instr) (n : Nat) (chunks : List ByteString) (got : ByteString),
    s.flt.kind = .noFault → s.rpl.mem.wf = true → s.beforeRead i = some (u, n) →
    (Answers u.txScript u.txLog n chunks → Exhausts s.params.retryCeiling n chunks got → ∃ t,
      exec i s = .next t ∧ s.rpl.Holds t.rpl got ∧
      t = (u.received n chunks t.rpl).faulted .communicationTimeout 0#8 (BitVec.ofNat 16 got.length) .noTable) ∧
    (∀ excess, Answers u.txScript u.txLog n (chunks ++ [excess]) →
      Overruns s.params.retryCeiling n chunks got excess → ∃ t,
      exec i s = .next t ∧ s.rpl.Holds t.rpl got ∧
      t = (u.received n (chunks ++ [excess]) t.rpl).faulted
        .protocolViolation 0#8 (BitVec.ofNat 16 excess.length) .noTable)

/-- R76, R208, R228 (which the spec derives from R222): whatever the transport answers, an operation with I/O ends,
after one packet if it sends, and at most `n + RETRY_CEILING - 1` polls, none for `n = 0`. The packet is the spec's own
decision D21 (entry 13). -/
def Obligations.PollsAreBounded : Prop :=
  ∀ (s u : State) (i : Instr) (n : Nat), s.flt.kind = .noFault → s.cmd.mem.wf = true →
    s.beforeRead i = some (u, n) →
    ∃ t chunks, exec i s = .next t ∧ Answers u.txScript u.txLog n chunks ∧ t.txLog = pollLog n chunks u.txLog ∧
      packetsWritten t.txLog =
        (if sendsPacket i = true then [packetBytes s.params.stx
          (match i with
            | .regRead id => idBytes s.params.rdregId ++ [id]
            | _ => s.cmd.content)] else []) ++ packetsWritten s.txLog ∧
      (n = 0 → chunks = []) ∧ (1 ≤ n → chunks.length ≤ n + s.params.retryCeiling - 1)

/-- R231, which the spec derives from R222: two transports that deliver one reply, however chunked, leave states that
differ only in `RETRY` and on the port. -/
def Obligations.ChunkingIsInvisible : Prop :=
  ∀ (s u : State) (i : Instr) (n : Nat) (script : List ByteString) (chunks chunks' : List ByteString)
    (reply : ByteString),
    s.flt.kind = .noFault → s.rpl.mem.wf = true → s.beforeRead i = some (u, n) →
    Answers u.txScript u.txLog n chunks → Delivers s.params.retryCeiling n chunks reply →
    Answers script u.txLog n chunks' → Delivers s.params.retryCeiling n chunks' reply →
    ∃ t t', exec i s = .next t ∧ exec i { s with txScript := script } = .next t' ∧
      t' = { t with retry := t'.retry, txScript := t'.txScript, txLog := t'.txLog }

/-- R241, R242, whole: `REG.LOOKUP`. -/
def Obligations.RegLookupFinds : Prop :=
  ∀ (s : State) (id : Byte), s.flt.kind = .noFault →
    encode (.regLookup id) = 0x40#8 ++ 0#16 ++ id ∧
    (∀ e ∈ s.params.regTable, e.id = id →
      exec (.regLookup id) s = .next { s with
        completions := ⟨0#4, BitVec.ofNat 64 (e.width.toNat + 256 * e.isBcd.toNat)⟩ :: s.completions }) ∧
    ((∀ e ∈ s.params.regTable, e.id ≠ id) →
      exec (.regLookup id) s = .next (s.faulted .unsupportedRegister 0#8 (id.setWidth 16) .noTable))

/-- R243, R245, R246: `REG.READ` of a register of the table with a reply that is delivered. No status table is
consulted. The packet is the spec's own decision D21 (entry 13). -/
def Obligations.RegReadRuns : Prop :=
  ∀ (s u : State) (id : Byte) (e : RegDescriptor) (chunks : List ByteString) (ack st1 st2 : Byte)
    (pay : ByteString),
    s.flt.kind = .noFault → s.rpl.mem.wf = true → s.res.mem.wf = true → s.cmd.mem.wf = true →
    e ∈ s.params.regTable → e.id = id → u = (s.withRegisterCommand id).sent →
    Answers u.txScript u.txLog (e.width.toNat + 3) chunks →
    Delivers s.params.retryCeiling (e.width.toNat + 3) chunks (ack :: pay ++ [st1, st2]) →
    u.txLog = .write (packetBytes s.params.stx (idBytes s.params.rdregId ++ [id])) :: s.txLog ∧
    u.cmd.len = 0#16 ∧ s.cmd.Holds { u.cmd with len := half ((idBytes s.params.rdregId).length + 1) }
      (idBytes s.params.rdregId ++ [id]) ∧
    ∃ rpl, s.rpl.Holds rpl (ack :: pay ++ [st1, st2]) ∧
      let r := (u.received (e.width.toNat + 3) chunks rpl).latched ack st1 st2 e.width.toNat
      (e.isBcd = false → ∃ t,
        exec (.regRead id) s = .next t ∧ Decodes r t pay false 0#4 (e.width.setWidth 64)) ∧
      (e.isBcd = true → (∀ b ∈ pay, BcdByte b) → ∃ t,
        exec (.regRead id) s = .next t ∧ DecodesNumber r t (bcdText pay) 0#4) ∧
      (e.isBcd = true → ∀ k, FirstBad BcdByte pay k →
        exec (.regRead id) s = .next (r.faulted .invalidEncoding 0#8 (BitVec.ofNat 16 k) .noTable))

/-- R260, R263, whole: `ST.DECODE`. -/
def Obligations.StDecodeDecides : Prop :=
  encode .stDecode = 0x50000000#32 ∧
  ∀ (s : State) (st1 st2 : Byte), s.flt.kind = .noFault →
    s.xs.extractLsb' 0 8 = st1 → s.xs.extractLsb' 8 8 = st2 →
    (StatusClean s.params st1 st2 →
      exec .stDecode s = .next { s with
        completions := ⟨0#4, if st1.getLsbD 1 then 1#64 else 0#64⟩ :: s.completions }) ∧
    (∀ e tbl, StatusRaises s.params st1 st2 e tbl →
      exec .stDecode s = .next (s.faulted .deviceFault e.sub (e.mask.setWidth 16) tbl))

/-- R266, which the spec derives from R260 to R262: the outcomes that hold for every legal pair of tables. -/
def Obligations.StatusOutcomes : Prop :=
  ∀ (s : State) (st1 st2 : Byte), s.flt.kind = .noFault →
    s.xs.extractLsb' 0 8 = st1 → s.xs.extractLsb' 8 8 = st2 →
    (st1 = 0x00#8 → st2 = 0x00#8 →
      exec .stDecode s = .next { s with completions := ⟨0#4, 0#64⟩ :: s.completions }) ∧
    (st1 = 0x02#8 → st2 = 0x00#8 →
      exec .stDecode s = .next { s with completions := ⟨0#4, 1#64⟩ :: s.completions }) ∧
    (st1.getLsbD 7 = true → exec .stDecode s = .next (s.faulted .deviceFault 1#8 0x80#16 .st1Table))

/-- R265, whole: `ST3.DECODE`. -/
def Obligations.St3DecodeMatches : Prop :=
  encode .st3Decode = 0x51000000#32 ∧
  ∀ s : State, s.flt.kind = .noFault →
    ((∀ e ∈ s.params.st3Table, e.code ≠ s.xs.extractLsb' 0 16) →
      exec .st3Decode s = .next { s with completions := ⟨0#4, 0#64⟩ :: s.completions }) ∧
    (∀ e ∈ s.params.st3Table, e.code = s.xs.extractLsb' 0 16 →
      exec .st3Decode s = .next (s.faulted .deviceFault e.sub e.code .st3Table))

/-- R226: "The machine with steps and the one-shot pseudocode of rule R222 describe the same behaviour". -/
def Obligations.PhasesEqualOneShot : Prop :=
  ∀ (op : IoOp) (s : State), op.length ≤ s.params.rplCap →
    op.phaseRun (s.params.retryCeiling + op.length + 3) (op.start s) = op.oneShot s

/-- R132 (a), as the spec derives it for this hardware: encode, copy, decode gives the number back, for both numeric
encodings. -/
def Obligations.NumbersRoundTrip : Prop :=
  ∀ (s : State) (w : Byte) (sc : BitVec 4) (m : Nat), s.Sound → s.flt.kind = .noFault →
    (w.toNat ≤ 19 → m < 10 ^ w.toNat →
      let r := issue [request (.fencNum w sc sc) (datum m), request .argRes 0, request (.fdecNum w sc) 0] s
      r.finished = true ∧ r.results.getLast? = some ⟨0#4, BitVec.ofNat 64 m⟩ ∧
        r.state.flags.nv = true ∧ r.state.flags.ns = sc) ∧
    (w.toNat ≤ 9 → m < 10 ^ (2 * w.toNat) →
      let r := issue [request (.fencBcd w sc sc) (datum m), request .argRes 0, request (.fdecBcd w sc) 0] s
      r.finished = true ∧ r.results.getLast? = some ⟨0#4, BitVec.ofNat 64 m⟩ ∧
        r.state.flags.nv = true ∧ r.state.flags.ns = sc)

/-- R132 (b), as the spec derives it for this hardware: decode, copy, encode gives the packed-decimal bytes back, where
the digits fit `ARG`. -/
def Obligations.PackedBytesRoundTrip : Prop :=
  ∀ (s : State) (w : Byte), s.Sound → s.flt.kind = .noFault → s.arg.len.toNat = w.toNat →
    (∀ b ∈ s.arg.content, BcdByte b) → 2 * w.toNat ≤ s.params.argCap →
      let r := issue [request (.fdecBcd w 0#4) 0, request .argRes 0, request (.fencBcdd w) 0] s
      r.finished = true ∧ r.state.res.content = s.arg.content

/-- R250, which the spec derives from R243: `REG.READ` has the effect of the long form, whatever the transport
answers. -/
def Obligations.RegReadIsTheLongForm : Prop :=
  ∀ (s t : State) (id : Byte) (e : RegDescriptor), s.Sound → s.flt.kind = .noFault →
    e ∈ s.params.regTable → e.id = id → exec (.regRead id) s = .next t →
      let unpack := if e.isBcd then Instr.funpkBcd e.width 0#4 else .funpkRaw e.width
      let r := (issue [request (.cmdBegin s.params.rdregId) 0, request (.cmdPush id) 0,
        request (.cmdSend (e.width.setWidth 16)) 0, request unpack 0] s).state
      t.txLog = r.txLog ∧ t.txScript = r.txScript ∧ t.rpl = r.rpl ∧ t.rplWant = r.rplWant ∧ t.retry = r.retry ∧
        t.stat = r.stat ∧ t.pbase = r.pbase ∧ t.plen = r.plen ∧ t.flags = r.flags ∧ t.res = r.res ∧
        t.cmdId = r.cmdId ∧ t.flt = r.flt

/-- R285, R287: the short-circuited report makes exactly one write on the transport, the full one exactly two, one value
for each field and slot, and a stopped one at most two, with values for a prefix of the fields. It holds for every
layout, so for every `readReport`. How the host's sequence reads raw fields is the model's choice (log entry 15). -/
def Obligations.ReportShortCircuit : Prop :=
  ∀ (l : ReportLayout) (s : State),
    (∀ t, l.run s = .empty t →
      (packetsWritten t.txLog).length = (packetsWritten s.txLog).length + 1) ∧
    (∀ vs t, l.run s = .values vs t →
      (packetsWritten t.txLog).length = (packetsWritten s.txLog).length + 2 ∧ vs.map Prod.fst = l.names) ∧
    (∀ vs t, l.run s = .stopped vs t →
      (packetsWritten t.txLog).length ≤ (packetsWritten s.txLog).length + 2 ∧ vs.map Prod.fst <+: l.names)
end

