-- ==== Sys2Proof/Laws/Codec.lean ====
section
/-! SUPPORT. The laws of the field codec and of the frame functions (40_field_codec.md R124 to R132,
42_frame_builder_checksum.md R191): widths, digits, values, and when a codec function faults. -/

namespace Sys2Proof.Machine

/-- R121, R124: a text field has the declared width. -/
@[simp] theorem encTxt_length (t : ByteString) (w : Nat) : (encTxt t w).length = w := by
  simp [encTxt]; omega

/-- R124: byte `i` of a text field. -/
theorem encTxt_getElem? (t : ByteString) (w i : Nat) (h : i < w) :
    (encTxt t w)[i]? = some ((t[i]?).getD 0x20#8) := by
  unfold encTxt
  by_cases hi : i < t.length
  · rw [List.getElem?_append_left (by simp; omega), List.getElem?_take, if_pos h, List.getElem?_eq_getElem hi]
    rfl
  · rw [List.getElem?_append_right (by simp; omega), List.getElem?_replicate, if_pos (by simp; omega),
      List.getElem?_eq_none (by omega)]
    rfl

theorem asciiOfDigit_toNat (d : Nat) (h : d < 10) : (asciiOfDigit d).toNat = 0x30 + d := by
  simp only [asciiOfDigit, BitVec.toNat_ofNat]
  omega

theorem isAsciiDigit_iff (b : Byte) : isAsciiDigit b = true ↔ 0x30 ≤ b.toNat ∧ b.toNat ≤ 0x39 := by
  simp [isAsciiDigit]

theorem isAsciiDigit_asciiOfDigit (d : Nat) (h : d < 10) : isAsciiDigit (asciiOfDigit d) = true := by
  rw [isAsciiDigit_iff, asciiOfDigit_toNat d h]; omega

@[simp] theorem digitsNumber_nil : digitsNumber [] = 0 := rfl

@[simp] theorem digitsNumber_append_one (t : ByteString) (b : Byte) :
    digitsNumber (t ++ [b]) = digitsNumber t * 10 + (b.toNat - 0x30) := by
  simp [digitsNumber]

/-- A string of `n` digits is below `10^n`. -/
theorem digitsNumber_lt (t : ByteString) (h : ∀ b ∈ t, isAsciiDigit b = true) : digitsNumber t < 10 ^ t.length := by
  induction t using List.reverseRecOn with
  | nil => simp
  | append_singleton t b ih =>
    have hb := (isAsciiDigit_iff b).1 (h b (by simp))
    have := ih (fun x hx => h x (by simp [hx]))
    rw [digitsNumber_append_one, List.length_append, List.length_singleton, Nat.pow_succ]
    omega

/-- Two digit strings of one length and one value are equal. -/
theorem digitsNumber_inj (t u : ByteString) (hl : t.length = u.length) (ht : ∀ b ∈ t, isAsciiDigit b = true)
    (hu : ∀ b ∈ u, isAsciiDigit b = true) (hn : digitsNumber t = digitsNumber u) : t = u := by
  induction t using List.reverseRecOn generalizing u with
  | nil => exact (List.length_eq_zero_iff.1 hl.symm).symm
  | append_singleton t b ih =>
    rcases List.eq_nil_or_concat u with rfl | ⟨u, c, rfl⟩
    · simp at hl
    · rw [List.concat_eq_append] at *
      have hb := (isAsciiDigit_iff b).1 (ht b (by simp))
      have hc := (isAsciiDigit_iff c).1 (hu c (by simp))
      simp only [digitsNumber_append_one] at hn
      have hbc : b = c := BitVec.eq_of_toNat_eq (by omega)
      rw [ih u (by simpa using hl) (fun x hx => ht x (by simp [hx])) (fun x hx => hu x (by simp [hx])) (by omega),
        hbc]

/-- The `n` digits of `m` as characters (R126). -/
def digitString (m n : Nat) : ByteString := (List.range n).map (fun i => asciiOfDigit (digitAt m n i))

@[simp] theorem digitString_length (m n : Nat) : (digitString m n).length = n := by simp [digitString]

theorem digitAt_succ (m n j : Nat) (h : j < n) : digitAt m (n + 1) j = digitAt (m / 10) n j := by
  unfold digitAt
  rw [Nat.div_div_eq_div_mul, (by omega : n + 1 - 1 - j = (n - 1 - j) + 1), Nat.pow_succ, Nat.mul_comm]

theorem digitString_succ (m n : Nat) : digitString m (n + 1) = digitString (m / 10) n ++ [asciiOfDigit (m % 10)] := by
  simp only [digitString, List.range_succ, List.map_append, List.map_cons, List.map_nil]
  congr 1
  · exact List.map_congr_left (fun i hi => by rw [digitAt_succ m n i (by simpa using hi)])
  · simp [digitAt]

theorem digitString_digits (m n : Nat) : ∀ b ∈ digitString m n, isAsciiDigit b = true := by
  intro b hb
  obtain ⟨i, -, rfl⟩ := List.mem_map.1 hb
  exact isAsciiDigit_asciiOfDigit _ (Nat.mod_lt _ (by omega))

theorem digitsNumber_digitString (m n : Nat) : digitsNumber (digitString m n) = m % 10 ^ n := by
  induction n generalizing m with
  | zero => simp [digitString, Nat.mod_one]
  | succ n ih =>
    rw [digitString_succ, digitsNumber_append_one, ih, asciiOfDigit_toNat _ (Nat.mod_lt _ (by omega)),
      Nat.add_sub_cancel_left, Nat.pow_succ, Nat.mul_comm (10 ^ n) 10, Nat.mod_mul]
    omega

/-- R126: when `enc_num` answers, and what: the `w` digits of the value. -/
theorem encNum_ok (m w : Nat) (h : m < 10 ^ w) : encNum m w = .ok (digitString m w) := by
  simp [encNum, digitString, Nat.not_le.2 h]

theorem encNum_overflow (m w : Nat) (h : 10 ^ w ≤ m) : encNum m w = .error .overflow := by simp [encNum, h]

/-- R126: all that `enc_num` can do. -/
theorem encNum_cases (m w : Nat) :
    (m < 10 ^ w ∧ encNum m w = .ok (digitString m w)) ∨ (10 ^ w ≤ m ∧ encNum m w = .error .overflow) := by
  rcases Nat.lt_or_ge m (10 ^ w) with h | h
  · exact .inl ⟨h, encNum_ok m w h⟩
  · exact .inr ⟨h, encNum_overflow m w h⟩

theorem highNibble_packDigits (t u : Nat) (ht : t < 10) : (highNibble (packDigits t u)).toNat = t := by
  have : highNibble (packDigits t u) = BitVec.ofNat 4 t := by
    unfold highNibble packDigits
    ext i hi
    simp only [BitVec.getElem_extractLsb', BitVec.getLsbD_append]
    interval_cases i <;> simp [BitVec.getLsbD_eq_getElem]
  rw [this, BitVec.toNat_ofNat]; omega

theorem lowNibble_packDigits (t u : Nat) (hu : u < 10) : (lowNibble (packDigits t u)).toNat = u := by
  have : lowNibble (packDigits t u) = BitVec.ofNat 4 u := by
    unfold lowNibble packDigits
    ext i hi
    simp only [BitVec.getElem_extractLsb', BitVec.getLsbD_append]
    interval_cases i <;> simp [BitVec.getLsbD_eq_getElem]
  rw [this, BitVec.toNat_ofNat]; omega

theorem isBcdByte_iff (b : Byte) : isBcdByte b = true ↔ (highNibble b).toNat ≤ 9 ∧ (lowNibble b).toNat ≤ 9 := by
  simp [isBcdByte]

theorem isBcdByte_packDigits (t u : Nat) (ht : t < 10) (hu : u < 10) : isBcdByte (packDigits t u) = true := by
  rw [isBcdByte_iff, highNibble_packDigits t u ht, lowNibble_packDigits t u hu]; omega

theorem bcdCharacters_packDigits (t u : Nat) (ht : t < 10) (hu : u < 10) :
    bcdCharacters (packDigits t u) = [asciiOfDigit t, asciiOfDigit u] := by
  rw [bcdCharacters, highNibble_packDigits t u ht, lowNibble_packDigits t u hu]

/-- A packed-decimal byte is its two digits packed. -/
theorem packDigits_nibbles (b : Byte) : packDigits (highNibble b).toNat (lowNibble b).toNat = b := by
  unfold packDigits highNibble lowNibble
  simp only [BitVec.ofNat_toNat, BitVec.setWidth_eq]
  ext i hi
  rw [BitVec.getElem_append]
  split
  · simp [BitVec.getLsbD_eq_getElem, hi]
  · rename_i h
    simp only [BitVec.getElem_extractLsb', (by omega : 4 + (i - 4) = i), BitVec.getLsbD_eq_getElem hi]

/-- The `2 w` digits of `m` packed two in a byte (R127). -/
def packedString (m w : Nat) : ByteString :=
  (List.range w).map (fun i => packDigits (digitAt m (2 * w) (2 * i)) (digitAt m (2 * w) (2 * i + 1)))

@[simp] theorem packedString_length (m w : Nat) : (packedString m w).length = w := by simp [packedString]

theorem digitAt_lt (m n j : Nat) : digitAt m n j < 10 := Nat.mod_lt _ (by omega)

theorem packedString_bcd (m w : Nat) : ∀ b ∈ packedString m w, isBcdByte b = true := by
  intro b hb
  obtain ⟨i, -, rfl⟩ := List.mem_map.1 hb
  exact isBcdByte_packDigits _ _ (digitAt_lt ..) (digitAt_lt ..)

theorem range_two_mul (n : Nat) : List.range (2 * n) = (List.range n).flatMap (fun i => [2 * i, 2 * i + 1]) := by
  induction n with
  | zero => rfl
  | succ n ih =>
    rw [List.range_succ, List.flatMap_append, ← ih, (by omega : 2 * (n + 1) = 2 * n + 1 + 1), List.range_succ,
      List.range_succ]
    simp

theorem packedString_characters (m w : Nat) : (packedString m w).flatMap bcdCharacters = digitString m (2 * w) := by
  simp only [packedString, digitString, List.flatMap_map, range_two_mul, List.map_flatMap, List.map_cons,
    List.map_nil]
  congr 1
  funext i
  exact bcdCharacters_packDigits _ _ (digitAt_lt ..) (digitAt_lt ..)

theorem encBcd_ok (m w : Nat) (h : m < 10 ^ (2 * w)) : encBcd m w = .ok (packedString m w) := by
  simp [encBcd, packedString, Nat.not_le.2 h]

theorem encBcd_overflow (m w : Nat) (h : 10 ^ (2 * w) ≤ m) : encBcd m w = .error .overflow := by simp [encBcd, h]

/-- R127: all that `enc_bcd` can do. -/
theorem encBcd_cases (m w : Nat) :
    (m < 10 ^ (2 * w) ∧ encBcd m w = .ok (packedString m w)) ∨
      (10 ^ (2 * w) ≤ m ∧ encBcd m w = .error .overflow) := by
  rcases Nat.lt_or_ge m (10 ^ (2 * w)) with h | h
  · exact .inl ⟨h, encBcd_ok m w h⟩
  · exact .inr ⟨h, encBcd_overflow m w h⟩

theorem bcdCharacters_digits (b : Byte) (h : isBcdByte b = true) :
    ∀ c ∈ bcdCharacters b, isAsciiDigit c = true := by
  have := (isBcdByte_iff b).1 h
  intro c hc
  simp only [bcdCharacters, List.mem_cons, List.not_mem_nil, or_false] at hc
  rcases hc with rfl | rfl <;> exact isAsciiDigit_asciiOfDigit _ (by omega)

theorem flatMap_bcdCharacters_length (b : ByteString) : (b.flatMap bcdCharacters).length = 2 * b.length := by
  induction b with
  | nil => rfl
  | cons c b ih => simp only [List.flatMap_cons, List.length_append, ih, List.length_cons, bcdCharacters,
      List.length_nil]; omega

theorem flatMap_bcdCharacters_digits (b : ByteString) (h : ∀ x ∈ b, isBcdByte x = true) :
    ∀ c ∈ b.flatMap bcdCharacters, isAsciiDigit c = true := by
  intro c hc
  obtain ⟨x, hx, hc⟩ := List.mem_flatMap.1 hc
  exact bcdCharacters_digits x (h x hx) c hc

theorem asciiOfDigit_inj (a b : Nat) (ha : a < 10) (hb : b < 10) (h : asciiOfDigit a = asciiOfDigit b) : a = b := by
  have := congrArg BitVec.toNat h
  rw [asciiOfDigit_toNat a ha, asciiOfDigit_toNat b hb] at this
  omega

/-- The digit characters determine the packed-decimal bytes. -/
theorem flatMap_bcdCharacters_inj (b c : ByteString) (hb : ∀ x ∈ b, isBcdByte x = true)
    (hc : ∀ x ∈ c, isBcdByte x = true) (h : b.flatMap bcdCharacters = c.flatMap bcdCharacters) : b = c := by
  induction b generalizing c with
  | nil =>
    cases c with
    | nil => rfl
    | cons y c => simp [bcdCharacters] at h
  | cons x b ih =>
    cases c with
    | nil => simp [bcdCharacters] at h
    | cons y c =>
      simp only [List.flatMap_cons, bcdCharacters, List.cons_append, List.nil_append, List.cons.injEq] at h
      obtain ⟨h1, h2, h3⟩ := h
      have hx := (isBcdByte_iff x).1 (hb x (by simp))
      have hy := (isBcdByte_iff y).1 (hc y (by simp))
      have e1 := asciiOfDigit_inj _ _ (by omega) (by omega) h1
      have e2 := asciiOfDigit_inj _ _ (by omega) (by omega) h2
      rw [ih c (fun z hz => hb z (by simp [hz])) (fun z hz => hc z (by simp [hz])) h3,
        ← packDigits_nibbles x, ← packDigits_nibbles y, e1, e2]

/-- R129: a digit string has its number. -/
theorem digitsVal_ok (t : ByteString) (h : ∀ b ∈ t, isAsciiDigit b = true) : digitsVal t = .ok (digitsNumber t) := by
  have : t.findIdx? (fun b => !isAsciiDigit b) = none := by
    rw [List.findIdx?_eq_none_iff]; intro b hb; simp [h b hb]
  simp [digitsVal, this]

/-- R129: all that `digits_val` can do: the number of a digit string, or a fault at the first other byte. -/
theorem digitsVal_cases (t : ByteString) :
    ((∀ b ∈ t, isAsciiDigit b = true) ∧ digitsVal t = .ok (digitsNumber t)) ∨
      ∃ i, ∃ h : i < t.length, isAsciiDigit t[i] = false ∧
        (∀ j, ∀ hj : j < i, isAsciiDigit (t[j]'(by omega)) = true) ∧ digitsVal t = .error (.invalid i) := by
  unfold digitsVal
  cases hf : t.findIdx? (fun b => !isAsciiDigit b) with
  | none =>
    left
    rw [List.findIdx?_eq_none_iff] at hf
    exact ⟨fun b hb => by simpa using hf b hb, rfl⟩
  | some i =>
    right
    obtain ⟨hi, h1, h2⟩ := List.findIdx?_eq_some_iff_getElem.1 hf
    exact ⟨i, hi, by simpa using h1, fun j hj => by simpa using h2 j hj, rfl⟩

theorem digitsVal_bad (t : ByteString) (i : Nat) (hi : i < t.length) (h : isAsciiDigit t[i] = false)
    (hj : ∀ j, ∀ hj : j < i, isAsciiDigit (t[j]'(by omega)) = true) : digitsVal t = .error (.invalid i) := by
  have : t.findIdx? (fun b => !isAsciiDigit b) = some i :=
    List.findIdx?_eq_some_iff_getElem.2 ⟨hi, by simp [h], fun j hji => by simp [hj j hji]⟩
  simp [digitsVal, this]

/-- R130: a string of packed-decimal bytes has its digit characters. -/
theorem decBcd_ok (t : ByteString) (h : ∀ b ∈ t, isBcdByte b = true) : decBcd t = .ok (t.flatMap bcdCharacters) := by
  have : t.findIdx? (fun b => !isBcdByte b) = none := by
    rw [List.findIdx?_eq_none_iff]; intro b hb; simp [h b hb]
  simp [decBcd, this]

/-- R130: all that `dec_bcd` can do. -/
theorem decBcd_cases (t : ByteString) :
    ((∀ b ∈ t, isBcdByte b = true) ∧ decBcd t = .ok (t.flatMap bcdCharacters)) ∨
      ∃ i, ∃ h : i < t.length, isBcdByte t[i] = false ∧
        (∀ j, ∀ hj : j < i, isBcdByte (t[j]'(by omega)) = true) ∧ decBcd t = .error (.invalid i) := by
  unfold decBcd
  cases hf : t.findIdx? (fun b => !isBcdByte b) with
  | none =>
    left
    rw [List.findIdx?_eq_none_iff] at hf
    exact ⟨fun b hb => by simpa using hf b hb, rfl⟩
  | some i =>
    right
    obtain ⟨hi, h1, h2⟩ := List.findIdx?_eq_some_iff_getElem.1 hf
    exact ⟨i, hi, by simpa using h1, fun j hj => by simpa using h2 j hj, rfl⟩

theorem decBcd_bad (t : ByteString) (i : Nat) (hi : i < t.length) (h : isBcdByte t[i] = false)
    (hj : ∀ j, ∀ hj : j < i, isBcdByte (t[j]'(by omega)) = true) : decBcd t = .error (.invalid i) := by
  have : t.findIdx? (fun b => !isBcdByte b) = some i :=
    List.findIdx?_eq_some_iff_getElem.2 ⟨hi, by simp [h], fun j hji => by simp [hj j hji]⟩
  simp [decBcd, this]

/-- R131: the bytes and the scale of a numeric result. -/
@[simp] theorem numResult_bytes (ds : ByteString) (sc : BitVec 4) : (numResult ds sc).bytes = ds := by
  unfold numResult; split <;> rfl

@[simp] theorem numResult_ns (ds : ByteString) (sc : BitVec 4) : (numResult ds sc).ns = sc := by
  unfold numResult; split <;> rfl

@[simp] theorem numResult_nv (ds : ByteString) (sc : BitVec 4) : (numResult ds sc).nv = decide (ds.length ≤ 19) := by
  unfold numResult; split <;> simp_all

/-- R131: "Nineteen digits always fit 64 bits". -/
theorem numResult_xd_toNat (ds : ByteString) (sc : BitVec 4) (h : ∀ b ∈ ds, isAsciiDigit b = true) :
    (numResult ds sc).xd.toNat = if ds.length ≤ 19 then digitsNumber ds else 0 := by
  unfold numResult
  split
  · rename_i hl
    have h1 := digitsNumber_lt ds h
    have h2 : 10 ^ ds.length ≤ 10 ^ 19 := Nat.pow_le_pow_right (by omega) hl
    simp only [datum, BitVec.toNat_ofNat]
    exact Nat.mod_eq_of_lt (lt_of_lt_of_le h1 (le_trans h2 (by decide)))
  · rfl

/-- R140: all that the decode of an ASCII-decimal field can do. -/
theorem decodeNum_cases (f : ByteString) (sc : BitVec 4) :
    decodeNum f sc = .ok (numResult f sc) ∨ ∃ i, i < f.length ∧ decodeNum f sc = .error (.invalid i) := by
  unfold decodeNum
  rcases digitsVal_cases f with ⟨-, h⟩ | ⟨i, hi, -, -, h⟩
  · exact .inl (by rw [h])
  · exact .inr ⟨i, hi, by rw [h]⟩

/-- R141: all that the decode of a packed-decimal field can do. -/
theorem decodeBcd_cases (f : ByteString) (sc : BitVec 4) :
    decodeBcd f sc = .ok (numResult (f.flatMap bcdCharacters) sc) ∨
      ∃ i, i < f.length ∧ decodeBcd f sc = .error (.invalid i) := by
  unfold decodeBcd
  rcases decBcd_cases f with ⟨-, h⟩ | ⟨i, hi, -, -, h⟩
  · exact .inl (by rw [h])
  · exact .inr ⟨i, hi, by rw [h]⟩

/-- R191: the length of an identifier. -/
theorem idBytes_length (id : BitVec 24) :
    (idBytes id).length = if id.toNat < 0x100 then 1 else if id.toNat < 0x10000 then 2 else 3 := by
  unfold idBytes; split
  · rfl
  · split <;> rfl

theorem idBytes_length_pos (id : BitVec 24) : 1 ≤ (idBytes id).length := by
  rw [idBytes_length]; split
  · omega
  · split <;> omega

theorem idBytes_length_le (id : BitVec 24) : (idBytes id).length ≤ 3 := by
  rw [idBytes_length]; split
  · omega
  · split <;> omega

/-- R196: "The packet is `len(c) + 5` bytes long." -/
@[simp] theorem packet_length (stx : Byte) (c : ByteString) : (packet stx c).length = c.length + 5 := by
  simp [packet, le16]

end Sys2Proof.Machine
end

