-- ==== Sys2Proof/Laws/Config.lean ====
section
/-! SUPPORT. What the legality of a configuration (00_scope.md R10) gives, constraint by constraint. -/

namespace Sys2Proof

/-- R10: the retry ceiling of a legal configuration. -/
theorem Configuration.ceiling (c : Configuration) :
    1 ≤ c.params.retryCeiling ∧ c.params.retryCeiling ≤ 65535 := by
  have h := c.legal
  simp only [Params.legal, OpenParams.legal, Bool.and_eq_true, decide_eq_true_eq] at h
  omega

/-- R10: the capacities of a legal configuration. -/
theorem Configuration.capacities (c : Configuration) :
    255 ≤ c.params.argCap ∧ c.params.argCap ≤ 65535 ∧ 4 ≤ c.params.cmdCap ∧ c.params.cmdCap ≤ 65533 ∧
      258 ≤ c.params.rplCap ∧ c.params.rplCap ≤ 65535 ∧ 510 ≤ c.params.resCap ∧ c.params.resCap ≤ 65535 := by
  have h := c.legal
  simp only [Params.legal, Bool.and_eq_true, decide_eq_true_eq] at h
  omega


/-- A list whose members have distinct numbers below `n` has at most `n` members. -/
theorem length_le_of_distinct {α : Type} (t : List α) (f : α → Nat) (n : Nat)
    (hp : t.Pairwise (fun a b => f a ≠ f b)) (hb : ∀ a ∈ t, f a < n) : t.length ≤ n := by
  have h1 : (t.map f).Nodup := by rw [List.Nodup, List.pairwise_map]; exact hp
  have h2 : t.map f ⊆ List.range n := by
    intro x hx
    obtain ⟨a, ha, rfl⟩ := List.mem_map.1 hx
    simpa using hb a ha
  simpa using (h1.subperm h2).length_le

/-- Strictly descending nonzero masks are at most 255. -/
theorem descendingMasks_length (t : List MaskEntry) (h : descendingMasks t = true) : t.length ≤ 255 := by
  simp only [descendingMasks, Bool.and_eq_true, decide_eq_true_eq, List.all_eq_true, bne_iff_ne, ne_eq] at h
  have h0 : ∀ e ∈ t, e.mask.toNat ≠ 0 := fun e he hz => h.2 e he (BitVec.eq_of_toNat_eq (by simpa using hz))
  refine length_le_of_distinct t (fun e => e.mask.toNat - 1) 255 (h.1.imp_of_mem ?_) (fun e he => ?_)
  · intro a b ha hb hab
    have := h0 b hb
    omega
  · have := h0 e he
    have := e.mask.isLt
    omega

/-- R10: the sizes of the tables of a legal configuration. -/
theorem Configuration.tables (c : Configuration) :
    c.params.regTable.length ≤ 256 ∧ c.params.st1Table.length ≤ 255 ∧ c.params.st2Table.length ≤ 255 ∧
      c.params.st3Table.length ≤ 65535 := by
  have h := c.legal
  simp only [Params.legal, OpenParams.legal, legalRegTable, legalSt1Table, Bool.and_eq_true,
    decide_eq_true_eq] at h
  refine ⟨by tauto, descendingMasks_length _ (by tauto), descendingMasks_length _ (by tauto), ?_⟩
  have h3 : legalSt3Table c.params.st3Table = true := by tauto
  simp only [legalSt3Table, Bool.and_eq_true, decide_eq_true_eq, List.all_eq_true, bne_iff_ne, ne_eq] at h3
  have h0 : ∀ e ∈ c.params.st3Table, e.code.toNat ≠ 0 :=
    fun e he hz => h3.2 e he (BitVec.eq_of_toNat_eq (by simpa using hz))
  refine length_le_of_distinct _ (fun e => e.code.toNat - 1) 65535 (h3.1.imp_of_mem ?_) (fun e he => ?_)
  · intro a b ha hb hab
    have := h0 a ha
    have := h0 b hb
    have : a.code.toNat ≠ b.code.toNat := fun he => hab (BitVec.eq_of_toNat_eq he)
    omega
  · have := h0 e he
    have := e.code.isLt
    omega

/-- R262: the head of the first status table, and no entry with mask 0x02. -/
theorem Configuration.st1Table (c : Configuration) :
    c.params.st1Table.head? = some ⟨0x80#8, 1#8⟩ ∧ (∀ e ∈ c.params.st1Table, e.mask ≠ 0x02#8 ∧ e.mask ≠ 0#8) ∧
      ∀ e ∈ c.params.st2Table, e.mask ≠ 0#8 := by
  have h := c.legal
  simp only [Params.legal, OpenParams.legal, legalSt1Table, descendingMasks, Bool.and_eq_true, decide_eq_true_eq,
    List.all_eq_true, bne_iff_ne, ne_eq] at h
  refine ⟨by tauto, fun e he => ⟨?_, ?_⟩, ?_⟩ <;> [skip; skip; tauto]
  · have : ∀ e ∈ c.params.st1Table, ¬ e.mask = 0x02#8 := by tauto
    exact this e he
  · have : ∀ e ∈ c.params.st1Table, ¬ e.mask = 0#8 := by tauto
    exact this e he

/-- R46, R241: at most one entry of the register table has an identifier, so searching it finds that one. -/
theorem Configuration.find_register (c : Configuration) (e : RegDescriptor) (he : e ∈ c.params.regTable) :
    c.params.regTable.find? (fun x => x.id == e.id) = some e := by
  have h := c.legal
  simp only [Params.legal, OpenParams.legal, legalRegTable, Bool.and_eq_true, decide_eq_true_eq] at h
  have hp : c.params.regTable.Pairwise (fun a b => a.id ≠ b.id) := by tauto
  obtain ⟨pre, post, hsplit⟩ := List.append_of_mem he
  rw [hsplit] at hp ⊢
  rw [List.find?_append, List.find?_eq_none.2, Option.none_or, List.find?_cons_of_pos (by simp)]
  intro x hx
  have := (List.pairwise_append.1 hp).2.2 x hx e (by simp)
  simpa using this

/-- R48, R265: the same of the secondary table. -/
theorem Configuration.find_code (c : Configuration) (e : CodeEntry) (he : e ∈ c.params.st3Table) :
    c.params.st3Table.find? (fun x => x.code == e.code) = some e := by
  have h := c.legal
  simp only [Params.legal, OpenParams.legal, legalSt3Table, Bool.and_eq_true, decide_eq_true_eq] at h
  have hp : c.params.st3Table.Pairwise (fun a b => a.code ≠ b.code) := by tauto
  obtain ⟨pre, post, hsplit⟩ := List.append_of_mem he
  rw [hsplit] at hp ⊢
  rw [List.find?_append, List.find?_eq_none.2, Option.none_or, List.find?_cons_of_pos (by simp)]
  intro x hx
  have := (List.pairwise_append.1 hp).2.2 x hx e (by simp)
  simpa using this

/-- R46: the width of a register. -/
theorem Configuration.register_width (c : Configuration) (e : RegDescriptor) (he : e ∈ c.params.regTable) :
    1 ≤ e.width.toNat ∧ e.width.toNat ≤ 255 := by
  have h := c.legal
  simp only [Params.legal, OpenParams.legal, legalRegTable, Bool.and_eq_true, List.all_eq_true, bne_iff_ne,
    ne_eq] at h
  have hw : ∀ x ∈ c.params.regTable, ¬ x.width = 0#8 := by tauto
  have h0 := hw e he
  have : e.width.toNat ≠ 0 := fun hz => h0 (BitVec.eq_of_toNat_eq (by simpa using hz))
  have := e.width.isLt
  omega

end Sys2Proof
end

