-- ==== Sys2Proof/Laws/Dispatch.lean ====
section
/-! SUPPORT. The equations of `exec`, one for each operation, and those of the classifications of the operations. They are
elaborated one after another, so that the proofs that use them later do not all wait for them at once. -/

namespace Sys2Proof.Machine

set_option Elab.async false

theorem exec_nop (s : State) : exec .nop s = execNop s := by simp only [exec]

theorem exec_fack (s : State) : exec .fack s = execFack s := rfl

theorem exec_srst (s : State) : exec .srst s = execSrst s := rfl

theorem exec_srRd (n : Byte) (s : State) : exec (.srRd n) s = execSrRd n s := rfl

theorem exec_argClr (s : State) : exec .argClr s = execArgClr s := rfl

theorem exec_argPush (b : Byte) (s : State) : exec (.argPush b) s = execArgPush b s := rfl

theorem exec_argRes (s : State) : exec .argRes s = execArgRes s := rfl

theorem exec_resRd (idx : Half) (s : State) : exec (.resRd idx) s = execResRd idx s := rfl

theorem exec_payRd (idx : Half) (s : State) : exec (.payRd idx) s = execPayRd idx s := rfl

theorem exec_fencTxt (w : Byte) (s : State) : exec (.fencTxt w) s = execFencTxt w s := rfl

theorem exec_fencNum (w : Byte) (sc e : BitVec 4) (s : State) : exec (.fencNum w sc e) s = execFencNum w sc e s := rfl

theorem exec_fencNumd (w : Byte) (s : State) : exec (.fencNumd w) s = execFencNumd w s := rfl

theorem exec_fencBcd (w : Byte) (sc e : BitVec 4) (s : State) : exec (.fencBcd w sc e) s = execFencBcd w sc e s := rfl

theorem exec_fencBcdd (w : Byte) (s : State) : exec (.fencBcdd w) s = execFencBcdd w s := rfl

theorem exec_fencRaw (w : Byte) (s : State) : exec (.fencRaw w) s = execFencRaw w s := rfl

theorem exec_fdecTxt (w : Byte) (s : State) : exec (.fdecTxt w) s = execFdecTxt w s := rfl

theorem exec_fdecNum (w : Byte) (sc : BitVec 4) (s : State) : exec (.fdecNum w sc) s = execFdecNum w sc s := rfl

theorem exec_fdecBcd (w : Byte) (sc : BitVec 4) (s : State) : exec (.fdecBcd w sc) s = execFdecBcd w sc s := rfl

theorem exec_fdecRaw (w : Byte) (s : State) : exec (.fdecRaw w) s = execFdecRaw w s := rfl

theorem exec_fpackTxt (w : Byte) (s : State) : exec (.fpackTxt w) s = execFpackTxt w s := rfl

theorem exec_fpackNum (w : Byte) (sc e : BitVec 4) (s : State)
    : exec (.fpackNum w sc e) s = execFpackNum w sc e s := rfl

theorem exec_fpackNumd (w : Byte) (s : State) : exec (.fpackNumd w) s = execFpackNumd w s := rfl

theorem exec_fpackBcd (w : Byte) (sc e : BitVec 4) (s : State)
    : exec (.fpackBcd w sc e) s = execFpackBcd w sc e s := rfl

theorem exec_fpackBcdd (w : Byte) (s : State) : exec (.fpackBcdd w) s = execFpackBcdd w s := rfl

theorem exec_fpackRaw (w : Byte) (s : State) : exec (.fpackRaw w) s = execFpackRaw w s := rfl

theorem exec_funpkTxt (w : Byte) (s : State) : exec (.funpkTxt w) s = execFunpkTxt w s := rfl

theorem exec_funpkNum (w : Byte) (sc : BitVec 4) (s : State) : exec (.funpkNum w sc) s = execFunpkNum w sc s := rfl

theorem exec_funpkBcd (w : Byte) (sc : BitVec 4) (s : State) : exec (.funpkBcd w sc) s = execFunpkBcd w sc s := rfl

theorem exec_funpkRaw (w : Byte) (s : State) : exec (.funpkRaw w) s = execFunpkRaw w s := rfl

theorem exec_cmdBegin (id : BitVec 24) (s : State) : exec (.cmdBegin id) s = execCmdBegin id s := rfl

theorem exec_cmdPush (b : Byte) (s : State) : exec (.cmdPush b) s = execCmdPush b s := rfl

theorem exec_csum (s : State) : exec .csum s = execCsum s := rfl

theorem exec_cmdSend (n : Half) (s : State) : exec (.cmdSend n) s = execCmdSend n s := rfl

theorem exec_cmdSendr (n : Half) (s : State) : exec (.cmdSendr n) s = execCmdSendr n s := rfl

theorem exec_xpRead (n : Half) (s : State) : exec (.xpRead n) s = execXpRead n s := rfl

theorem exec_regLookup (id : Byte) (s : State) : exec (.regLookup id) s = execRegLookup id s := rfl

theorem exec_regRead (id : Byte) (s : State) : exec (.regRead id) s = execRegRead id s := rfl

theorem exec_stDecode (s : State) : exec .stDecode s = execStDecode s := rfl

theorem exec_st3Decode (s : State) : exec .st3Decode s = execSt3Decode s := rfl

/-- R295 and R61, R76, R208, R309, at `NOP`. -/
theorem classified_nop :
    runsLatched .nop = false ∧ touchesTransport .nop = false ∧ sendsPacket .nop = false ∧
      writesArgument .nop = false ∧ writesCommand .nop = false ∧ writesResult .nop = false ∧
      mayRaise .nop = [] ∧ ownReasons .nop = [] := by
  simp only [runsLatched, touchesTransport, sendsPacket, writesArgument, writesCommand, writesResult, mayRaise,
    ownReasons, and_self]

end Sys2Proof.Machine
end

