-- ==== Sys2Proof/Laws/Encoding.lean ====
section
/-! SUPPORT. The fields of an encoded command word (30_encoding.md R90 to R97). -/

namespace Sys2Proof

theorem toNat_append_eq {a b : Nat} (x : BitVec a) (y : BitVec b) : (x ++ y).toNat = x.toNat * 2 ^ b + y.toNat := by
  rw [BitVec.toNat_append, ← Nat.shiftLeft_add_eq_or_of_lt y.isLt, Nat.shiftLeft_eq]

theorem opcodeOf_append (opc : Byte) (x : BitVec 24) : opcodeOf (opc ++ x) = opc := by
  unfold opcodeOf
  ext i hi
  simp only [BitVec.getElem_extractLsb', BitVec.getLsbD_append]
  have h : ¬ 24 + i < 24 := by omega
  simp [h, BitVec.getLsbD_eq_getElem, hi]

@[simp] theorem opcodeOf_encodeZ (opc : Byte) : opcodeOf (encodeZ opc) = opc := opcodeOf_append opc _

@[simp] theorem opcodeOf_encodeB (opc imm : Byte) : opcodeOf (encodeB opc imm) = opc := by
  unfold opcodeOf encodeB
  ext i hi
  simp only [BitVec.getElem_extractLsb', BitVec.getLsbD_append]
  interval_cases i <;> simp [BitVec.getLsbD_eq_getElem]

@[simp] theorem opcodeOf_encodeX (opc : Byte) (idx : Half) : opcodeOf (encodeX opc idx) = opc := by
  unfold opcodeOf encodeX
  ext i hi
  simp only [BitVec.getElem_extractLsb', BitVec.getLsbD_append]
  interval_cases i <;> simp [BitVec.getLsbD_eq_getElem]

@[simp] theorem opcodeOf_encodeI (opc : Byte) (id : BitVec 24) : opcodeOf (encodeI opc id) = opc :=
  opcodeOf_append opc id

@[simp] theorem opcodeOf_encodeN (opc : Byte) (n : Half) (low : Byte) : opcodeOf (encodeN opc n low) = opc := by
  unfold opcodeOf encodeN
  ext i hi
  simp only [BitVec.getElem_extractLsb', BitVec.getLsbD_append]
  interval_cases i <;> simp [BitVec.getLsbD_eq_getElem]

@[simp] theorem opcodeOf_encodeF (opc w : Byte) (sc e : BitVec 4) (low : Byte) :
    opcodeOf (encodeF opc w sc e low) = opc := by
  unfold opcodeOf encodeF
  ext i hi
  simp only [BitVec.getElem_extractLsb', BitVec.getLsbD_append]
  interval_cases i <;> simp [BitVec.getLsbD_eq_getElem]

@[simp] theorem low24_encodeZ (opc : Byte) : (encodeZ opc).extractLsb' 0 24 = 0#24 := by
  unfold encodeZ
  ext i hi
  simp only [BitVec.getElem_extractLsb', BitVec.getLsbD_append]
  simp [hi]

@[simp] theorem middle_encodeB (opc imm : Byte) : (encodeB opc imm).extractLsb' 8 16 = 0#16 := by
  unfold encodeB
  ext i hi
  simp only [BitVec.getElem_extractLsb', BitVec.getLsbD_append]
  interval_cases i <;> simp

@[simp] theorem imm8_encodeB (opc imm : Byte) : (encodeB opc imm).extractLsb' 0 8 = imm := by
  unfold encodeB
  ext i hi
  simp only [BitVec.getElem_extractLsb', BitVec.getLsbD_append]
  simp [hi]

@[simp] theorem middle_encodeX (opc : Byte) (idx : Half) : (encodeX opc idx).extractLsb' 16 8 = 0#8 := by
  unfold encodeX
  ext i hi
  simp only [BitVec.getElem_extractLsb', BitVec.getLsbD_append]
  interval_cases i <;> simp

@[simp] theorem idx16_encodeX (opc : Byte) (idx : Half) : (encodeX opc idx).extractLsb' 0 16 = idx := by
  unfold encodeX
  ext i hi
  simp only [BitVec.getElem_extractLsb', BitVec.getLsbD_append]
  simp [hi]

@[simp] theorem id24_encodeI (opc : Byte) (id : BitVec 24) : (encodeI opc id).extractLsb' 0 24 = id := by
  unfold encodeI
  ext i hi
  simp only [BitVec.getElem_extractLsb', BitVec.getLsbD_append]
  simp [hi]

@[simp] theorem n16_encodeN (opc : Byte) (n : Half) (low : Byte) : (encodeN opc n low).extractLsb' 8 16 = n := by
  unfold encodeN
  ext i hi
  simp only [BitVec.getElem_extractLsb', BitVec.getLsbD_append]
  interval_cases i <;> simp [BitVec.getLsbD_eq_getElem]

@[simp] theorem low8_encodeN (opc : Byte) (n : Half) (low : Byte) : (encodeN opc n low).extractLsb' 0 8 = low := by
  unfold encodeN
  ext i hi
  simp only [BitVec.getElem_extractLsb', BitVec.getLsbD_append]
  simp [hi]

theorem bit0_encodeN (opc : Byte) (n : Half) (low : Byte) : (encodeN opc n low).getLsbD 0 = low.getLsbD 0 := by
  unfold encodeN
  simp only [BitVec.getLsbD_append]
  simp

@[simp] theorem lowest_encodeN (opc : Byte) (n : Half) (low : Byte) : (encodeN opc n low)[0] = low[0] := by
  have h := bit0_encodeN opc n low
  simpa [BitVec.getLsbD_eq_getElem] using h

@[simp] theorem low7_encodeN (opc : Byte) (n : Half) (low : Byte) :
    (encodeN opc n low).extractLsb' 1 7 = low.extractLsb' 1 7 := by
  unfold encodeN
  ext i hi
  simp only [BitVec.getElem_extractLsb', BitVec.getLsbD_append]
  have h : 1 + i < 8 := by omega
  simp [h]

@[simp] theorem ofWord_encodeF (opc w : Byte) (sc e : BitVec 4) (low : Byte) :
    FieldSpec.ofWord (encodeF opc w sc e low) =
      ⟨w, sc, e, low.extractLsb' 5 3, low.getLsbD 4, low.getLsbD 3, low.extractLsb' 0 3⟩ := by
  simp only [FieldSpec.ofWord, encodeF, FieldSpec.mk.injEq]
  refine ⟨?_, ?_, ?_, ?_, ?_, ?_, ?_⟩
  all_goals first
    | (ext i hi; simp only [BitVec.getElem_extractLsb', BitVec.getLsbD_append];
       interval_cases i <;> simp [BitVec.getLsbD_eq_getElem])
    | simp only [BitVec.getLsbD_append]; simp

/-- R91: a word whose bits 23:0 are 0 is its opcode in format Z. -/
theorem eq_encodeZ (cw : CommandWord) (h : cw.extractLsb' 0 24 = 0#24) : cw = encodeZ (opcodeOf cw) := by
  have h := congrArg BitVec.toNat h
  apply BitVec.eq_of_toNat_eq
  have := cw.isLt
  simp only [encodeZ, opcodeOf, toNat_append_eq, BitVec.extractLsb'_toNat, Nat.shiftRight_eq_div_pow] at h ⊢
  simp at h ⊢
  omega

/-- R92: a word whose bits 23:8 are 0 is its opcode and its low byte in format B. -/
theorem eq_encodeB (cw : CommandWord) (h : cw.extractLsb' 8 16 = 0#16) :
    cw = encodeB (opcodeOf cw) (cw.extractLsb' 0 8) := by
  have h := congrArg BitVec.toNat h
  apply BitVec.eq_of_toNat_eq
  have := cw.isLt
  simp only [encodeB, opcodeOf, toNat_append_eq, BitVec.extractLsb'_toNat, Nat.shiftRight_eq_div_pow] at h ⊢
  simp at h ⊢
  omega

/-- R93: a word whose bits 23:16 are 0 is its opcode and its low 16 bits in format X. -/
theorem eq_encodeX (cw : CommandWord) (h : cw.extractLsb' 16 8 = 0#8) :
    cw = encodeX (opcodeOf cw) (cw.extractLsb' 0 16) := by
  have h := congrArg BitVec.toNat h
  apply BitVec.eq_of_toNat_eq
  have := cw.isLt
  simp only [encodeX, opcodeOf, toNat_append_eq, BitVec.extractLsb'_toNat, Nat.shiftRight_eq_div_pow] at h ⊢
  simp at h ⊢
  omega

/-- R94: every word is its opcode and its bits 23:0 in format I. -/
theorem eq_encodeI (cw : CommandWord) : cw = encodeI (opcodeOf cw) (cw.extractLsb' 0 24) := by
  apply BitVec.eq_of_toNat_eq
  have := cw.isLt
  simp only [encodeI, opcodeOf, toNat_append_eq, BitVec.extractLsb'_toNat, Nat.shiftRight_eq_div_pow]
  omega

/-- R95, R96: every word is its opcode, its bits 23:8 and its low byte in the formats S and R. -/
theorem eq_encodeN (cw : CommandWord) :
    cw = encodeN (opcodeOf cw) (cw.extractLsb' 8 16) (cw.extractLsb' 0 8) := by
  apply BitVec.eq_of_toNat_eq
  have := cw.isLt
  simp only [encodeN, opcodeOf, toNat_append_eq, BitVec.extractLsb'_toNat, Nat.shiftRight_eq_div_pow]
  omega

/-- R97: every word is its opcode, its fields `W`, `S`, `E` and its low byte in format F. -/
theorem eq_encodeF (cw : CommandWord) :
    cw = encodeF (opcodeOf cw) (cw.extractLsb' 16 8) (cw.extractLsb' 12 4) (cw.extractLsb' 8 4)
      (cw.extractLsb' 0 8) := by
  apply BitVec.eq_of_toNat_eq
  have := cw.isLt
  simp only [encodeF, opcodeOf, toNat_append_eq, BitVec.extractLsb'_toNat, Nat.shiftRight_eq_div_pow]
  omega

end Sys2Proof
end

