-- ==== Sys2Proof/Laws/Memory.lean ====
section
/-! SUPPORT. The laws of the byte memories and of the buffers: read after write, the canonical form, the capacity, and
what loading and appending leave (00_scope.md R14, 20_memory.md R60). -/

namespace Sys2Proof.Machine

@[simp] theorem Memory.read_nil (a : Nat) : Memory.read [] a = unlistedByte := rfl

@[simp] theorem Memory.wf_nil : Memory.wf [] = true := rfl

@[simp] theorem Memory.within_nil (cap : Nat) : Memory.within cap [] = true := rfl

/-- The canonical form of a memory with a first entry. -/
theorem Memory.wf_cons (k : Nat) (c : Byte) (m : Memory) :
    Memory.wf ((k, c) :: m) = true ↔
      c ≠ unlistedByte ∧ (∀ x ∈ m, k < x.1) ∧ Memory.wf m = true := by
  simp only [Memory.wf, List.pairwise_cons, List.all_cons, Bool.and_eq_true, decide_eq_true_eq, bne_iff_ne, ne_eq]
  tauto

theorem Memory.within_cons (cap k : Nat) (c : Byte) (m : Memory) :
    Memory.within cap ((k, c) :: m) = true ↔ k < cap ∧ Memory.within cap m = true := by
  simp [Memory.within]

/-- An index below every listed one reads as unlisted. -/
theorem Memory.read_below (m : Memory) (a : Nat) (h : ∀ x ∈ m, a < x.1) : Memory.read m a = unlistedByte := by
  induction m with
  | nil => rfl
  | cons e m ih =>
    obtain ⟨k, c⟩ := e
    have hk : a < k := h (k, c) (by simp)
    simp only [Memory.read, if_neg (by omega : ¬ a = k)]
    exact ih (fun x hx => h x (by simp [hx]))

/-- A write gives the byte written, and leaves every other index alone. -/
theorem Memory.read_write (m : Memory) (a : Nat) (b : Byte) (x : Nat) (h : m.wf = true) :
    Memory.read (Memory.write m a b) x = if x = a then b else Memory.read m x := by
  induction m with
  | nil =>
    simp only [Memory.write]
    split <;> rename_i hb <;> simp [Memory.read, hb]
  | cons e m ih =>
    obtain ⟨k, c⟩ := e
    obtain ⟨hc, hk, hm⟩ := (Memory.wf_cons k c m).1 h
    have hbelow : ∀ y, y ≤ k → Memory.read m y = unlistedByte :=
      fun y hy => Memory.read_below m y (fun z hz => lt_of_le_of_lt hy (hk z hz))
    simp only [Memory.write]
    split
    · rename_i hak
      split
      · rename_i hb
        simp only [Memory.read]
        split
        · rename_i hxk; rw [if_neg (by omega)]
        · split
          · rename_i hxa; rw [hxa, hbelow a (by omega), hb]
          · rfl
      · simp only [Memory.read]
    · split
      · rename_i _ hak
        subst hak
        split
        · rename_i hb
          simp only [Memory.read]
          split
          · rename_i hxa; rw [hxa, hbelow a (by omega), hb]
          · rfl
        · simp only [Memory.read]
          split <;> simp_all
      · rename_i h1 h2
        simp only [Memory.read]
        split
        · rename_i hxk; rw [if_neg (by omega)]
        · rw [ih hm]

@[simp] theorem Memory.read_write_same (m : Memory) (a : Nat) (b : Byte) (h : m.wf = true) :
    Memory.read (Memory.write m a b) a = b := by
  simp [Memory.read_write m a b a h]

theorem Memory.read_write_other (m : Memory) (a : Nat) (b : Byte) (x : Nat) (h : m.wf = true) (hx : x ≠ a) :
    Memory.read (Memory.write m a b) x = Memory.read m x := by
  simp [Memory.read_write m a b x h, hx]

/-- Every entry after a write is an old one or the one written. -/
theorem Memory.mem_write (m : Memory) (a : Nat) (b : Byte) (x : Host.Cell) (h : x ∈ Memory.write m a b) :
    x ∈ m ∨ x = (a, b) := by
  induction m with
  | nil =>
    simp only [Memory.write] at h
    split at h <;> simp_all
  | cons e m ih =>
    obtain ⟨k, c⟩ := e
    simp only [Memory.write] at h
    split at h
    · split at h
      · exact .inl h
      · rcases List.mem_cons.1 h with h | h
        · exact .inr h
        · exact .inl h
    · split at h
      · rename_i hak
        split at h
        · exact .inl (by simp [h])
        · rcases List.mem_cons.1 h with h | h
          · exact .inr (by rw [h, hak])
          · exact .inl (by simp [h])
      · rcases List.mem_cons.1 h with h | h
        · exact .inl (by simp [h])
        · rcases ih h with h | h
          · exact .inl (by simp [h])
          · exact .inr h

/-- A write keeps the canonical form. -/
theorem Memory.wf_write (m : Memory) (a : Nat) (b : Byte) (h : m.wf = true) : (Memory.write m a b).wf = true := by
  induction m with
  | nil =>
    simp only [Memory.write]
    split
    · rfl
    · rename_i hb; simp [Memory.wf_cons, hb]
  | cons e m ih =>
    obtain ⟨k, c⟩ := e
    obtain ⟨hc, hk, hm⟩ := (Memory.wf_cons k c m).1 h
    simp only [Memory.write]
    split
    · rename_i hak
      split
      · exact h
      · rename_i hb
        refine (Memory.wf_cons _ _ _).2 ⟨hb, fun x hx => ?_, h⟩
        rcases List.mem_cons.1 hx with rfl | hx
        · exact hak
        · exact lt_trans hak (hk x hx)
    · split
      · split
        · exact hm
        · rename_i hb; exact (Memory.wf_cons _ _ _).2 ⟨hb, hk, hm⟩
      · rename_i h1 h2
        refine (Memory.wf_cons _ _ _).2 ⟨hc, fun x hx => ?_, ih hm⟩
        rcases Memory.mem_write m a b x hx with hx | rfl
        · exact hk x hx
        · simp only; omega

/-- A write below the capacity stays below it. -/
theorem Memory.within_write (cap : Nat) (m : Memory) (a : Nat) (b : Byte) (h : m.within cap = true) (ha : a < cap) :
    (Memory.write m a b).within cap = true := by
  simp only [Memory.within, List.all_eq_true, decide_eq_true_eq] at *
  intro x hx
  rcases Memory.mem_write m a b x hx with hx | rfl
  · exact h x hx
  · exact ha

theorem Memory.wf_writeBytes (bs : ByteString) (m : Memory) (a : Nat) (h : m.wf = true) :
    (m.writeBytes a bs).wf = true := by
  induction bs generalizing m a with
  | nil => exact h
  | cons b bs ih => exact ih _ _ (Memory.wf_write m a b h)

theorem Memory.within_writeBytes (cap : Nat) (bs : ByteString) (m : Memory) (a : Nat) (h : m.within cap = true)
    (ha : a + bs.length ≤ cap) : (m.writeBytes a bs).within cap = true := by
  induction bs generalizing m a with
  | nil => exact h
  | cons b bs ih =>
    simp only [List.length_cons] at ha
    exact ih _ _ (Memory.within_write cap m a b h (by omega)) (by omega)

/-- What an index reads after a string of bytes was written from `a` up. -/
theorem Memory.read_writeBytes (bs : ByteString) (m : Memory) (a x : Nat) (h : m.wf = true) :
    Memory.read (m.writeBytes a bs) x =
      if x < a then Memory.read m x else (bs[x - a]?).getD (Memory.read m x) := by
  induction bs generalizing m a with
  | nil => simp [Memory.writeBytes]
  | cons b bs ih =>
    simp only [Memory.writeBytes]
    rw [ih _ _ (Memory.wf_write m a b h), Memory.read_write m a b x h]
    by_cases hlt : x < a
    · rw [if_pos hlt, if_pos (by omega), if_neg (by omega)]
    · by_cases heq : x = a
      · subst heq; simp
      · rw [if_neg hlt, if_neg (by omega), if_neg heq]
        rw [(by omega : x - a = (x - (a + 1)) + 1), List.getElem?_cons_succ]

/-- Outside the string written every index reads as before. -/
theorem Memory.read_writeBytes_outside (bs : ByteString) (m : Memory) (a x : Nat) (h : m.wf = true)
    (hx : x < a ∨ a + bs.length ≤ x) : Memory.read (m.writeBytes a bs) x = Memory.read m x := by
  rw [Memory.read_writeBytes bs m a x h]
  split
  · rfl
  · rw [List.getElem?_eq_none (by omega)]; rfl

@[simp] theorem Memory.readBytes_length (m : Memory) (a n : Nat) : (m.readBytes a n).length = n := by
  induction n generalizing a with
  | zero => rfl
  | succ n ih => simp [Memory.readBytes, ih]

theorem Memory.readBytes_getElem? (m : Memory) (a n i : Nat) :
    (m.readBytes a n)[i]? = if i < n then some (Memory.read m (a + i)) else none := by
  induction n generalizing a i with
  | zero => simp [Memory.readBytes]
  | succ n ih =>
    cases i with
    | zero => simp [Memory.readBytes]
    | succ i =>
      simp only [Memory.readBytes, List.getElem?_cons_succ, ih]
      simp [Nat.add_assoc, Nat.add_comm 1 i]

/-- Two cuts are equal when their bytes are. -/
theorem Memory.readBytes_congr (m m' : Memory) (a n : Nat)
    (h : ∀ i, i < n → Memory.read m' (a + i) = Memory.read m (a + i)) : m'.readBytes a n = m.readBytes a n := by
  apply List.ext_getElem?
  intro i
  simp only [Memory.readBytes_getElem?]
  split
  · rename_i hi; rw [h i hi]
  · rfl

theorem Memory.readBytes_append (m : Memory) (a n k : Nat) :
    m.readBytes a (n + k) = m.readBytes a n ++ m.readBytes (a + n) k := by
  induction n generalizing a with
  | zero => simp [Memory.readBytes]
  | succ n ih =>
    rw [(by omega : n + 1 + k = (n + k) + 1)]
    simp only [Memory.readBytes, List.cons_append, ih, (by omega : a + (n + 1) = a + 1 + n)]

/-- Reading back the string written. -/
theorem Memory.readBytes_writeBytes (bs : ByteString) (m : Memory) (a : Nat) (h : m.wf = true) :
    (m.writeBytes a bs).readBytes a bs.length = bs := by
  apply List.ext_getElem?
  intro i
  rw [Memory.readBytes_getElem?]
  split
  · rename_i hi
    rw [Memory.read_writeBytes bs m a (a + i) h, if_neg (by omega), Nat.add_sub_cancel_left,
      List.getElem?_eq_getElem hi]
    rfl
  · rename_i hi; rw [List.getElem?_eq_none (by omega)]

/-- Cutting a window out of a cut. -/
theorem Memory.readBytes_drop_take (m : Memory) (a n i k : Nat) (h : i + k ≤ n) :
    ((m.readBytes a n).drop i).take k = m.readBytes (a + i) k := by
  apply List.ext_getElem?
  intro j
  simp only [List.getElem?_take, List.getElem?_drop, Memory.readBytes_getElem?]
  split
  · simp [(by omega : i + j < n), Nat.add_assoc]
  · simp

/-- Equal bytes make equal canonical memories. -/
theorem Memory.ext_of_wf (m m' : Memory) (h : m.wf = true) (h' : m'.wf = true)
    (hr : ∀ a, Memory.read m a = Memory.read m' a) : m = m' := by
  induction m generalizing m' with
  | nil =>
    cases m' with
    | nil => rfl
    | cons e m' =>
      obtain ⟨k, c⟩ := e
      have := hr k
      simp only [Memory.read, if_true] at this
      exact absurd this.symm ((Memory.wf_cons k c m').1 h').1
  | cons e m ih =>
    obtain ⟨k, c⟩ := e
    obtain ⟨hc, hk, hm⟩ := (Memory.wf_cons k c m).1 h
    cases m' with
    | nil =>
      have := hr k
      simp only [Memory.read, if_true] at this
      exact absurd this hc
    | cons e' m' =>
      obtain ⟨k', c'⟩ := e'
      obtain ⟨hc', hk', hm'⟩ := (Memory.wf_cons k' c' m').1 h'
      have hkk : k = k' := by
        rcases lt_trichotomy k k' with hlt | heq | hlt
        · have := hr k
          simp only [Memory.read, if_true, if_neg (by omega : ¬ k = k')] at this
          rw [Memory.read_below m' k (fun x hx => lt_trans hlt (hk' x hx))] at this
          exact absurd this hc
        · exact heq
        · have := hr k'
          simp only [Memory.read, if_true, if_neg (by omega : ¬ k' = k)] at this
          rw [Memory.read_below m k' (fun x hx => lt_trans hlt (hk x hx))] at this
          exact absurd this.symm hc'
      subst hkk
      have hcc : c = c' := by have := hr k; simpa [Memory.read] using this
      subst hcc
      rw [ih m' hm hm' (fun a => ?_)]
      have := hr a
      simp only [Memory.read] at this
      by_cases ha : a = k
      · subst ha
        rw [Memory.read_below m a hk, Memory.read_below m' a hk']
      · simpa [ha] using this

@[simp] theorem half_toNat (n : Nat) : (half n).toNat = n % 65536 := by simp [half]

theorem half_toNat_of_lt (n : Nat) (h : n < 65536) : (half n).toNat = n := by simp [Nat.mod_eq_of_lt h]

@[simp] theorem half_toNat_self (h : Half) : half h.toNat = h := by simp [half]

@[simp] theorem Buffer.load_len (bs : ByteString) (b : Buffer) : (b.load bs).len = half bs.length := rfl

@[simp] theorem Buffer.append_len (bs : ByteString) (b : Buffer) :
    (b.append bs).len = half (b.len.toNat + bs.length) := rfl

@[simp] theorem Buffer.clear_len (b : Buffer) : b.clear.len = 0#16 := rfl

@[simp] theorem Buffer.clear_mem (b : Buffer) : b.clear.mem = b.mem := rfl

@[simp] theorem Buffer.clear_content (b : Buffer) : b.clear.content = [] := rfl

@[simp] theorem Buffer.empty_content : Buffer.empty.content = [] := rfl

@[simp] theorem Buffer.content_length (b : Buffer) : b.content.length = b.len.toNat := by simp [Buffer.content]

/-- R14: loading a string makes it the content. -/
theorem Buffer.load_content (bs : ByteString) (b : Buffer) (h : b.mem.wf = true) (hl : bs.length < 65536) :
    (b.load bs).content = bs := by
  simp only [Buffer.content, Buffer.load_len, half_toNat_of_lt _ hl]
  exact Memory.readBytes_writeBytes bs b.mem 0 h

/-- Byte `i` of a loaded string. -/
theorem Buffer.load_read (bs : ByteString) (b : Buffer) (h : b.mem.wf = true) (i : Nat) (x : Byte)
    (hx : bs[i]? = some x) : Memory.read (b.load bs).mem i = x := by
  simp only [Buffer.load]
  rw [Memory.read_writeBytes bs b.mem 0 i h, if_neg (by omega), Nat.sub_zero, hx]
  rfl

/-- Loading leaves the bytes past the string. -/
theorem Buffer.load_beyond (bs : ByteString) (b : Buffer) (h : b.mem.wf = true) (a : Nat) (ha : bs.length ≤ a) :
    Memory.read (b.load bs).mem a = Memory.read b.mem a :=
  Memory.read_writeBytes_outside bs b.mem 0 a h (.inr (by omega))

/-- R178 (a): appending a string appends it to the content. -/
theorem Buffer.append_content (bs : ByteString) (b : Buffer) (h : b.mem.wf = true)
    (hl : b.len.toNat + bs.length < 65536) : (b.append bs).content = b.content ++ bs := by
  simp only [Buffer.content, Buffer.append_len, half_toNat_of_lt _ hl, Memory.readBytes_append, Nat.zero_add]
  congr 1
  · exact Memory.readBytes_congr _ _ _ _ (fun i hi =>
      Memory.read_writeBytes_outside bs b.mem _ _ h (.inl (by omega)))
  · exact Memory.readBytes_writeBytes bs b.mem _ h

/-- Appending leaves the bytes outside the string appended. -/
theorem Buffer.append_outside (bs : ByteString) (b : Buffer) (h : b.mem.wf = true) (a : Nat)
    (ha : a < b.len.toNat ∨ b.len.toNat + bs.length ≤ a) :
    Memory.read (b.append bs).mem a = Memory.read b.mem a :=
  Memory.read_writeBytes_outside bs b.mem _ a h ha

end Sys2Proof.Machine
end

