-- ==== Sys2Proof/Laws/Fields.lean ====
section
/-! SUPPORT. The model's codec, frame and status functions in the terms the statements use (Safety.lean): each equals
the rule's own words. -/

namespace Sys2Proof.Machine

theorem asciiDigit_iff (b : Byte) : isAsciiDigit b = true ↔ AsciiDigit b := isAsciiDigit_iff b

theorem highNibble_toNat (b : Byte) : (highNibble b).toNat = b.toNat / 16 := by
  have h := b.isLt
  simp only [highNibble, BitVec.extractLsb'_toNat, Nat.shiftRight_eq_div_pow]
  omega

theorem lowNibble_toNat (b : Byte) : (lowNibble b).toNat = b.toNat % 16 := by
  simp [lowNibble, BitVec.extractLsb'_toNat]

theorem bcdByte_iff (b : Byte) : isBcdByte b = true ↔ BcdByte b := by
  rw [isBcdByte_iff, highNibble_toNat, lowNibble_toNat]

theorem bcdCharacters_eq (t : ByteString) : t.flatMap bcdCharacters = bcdText t := by
  have h : bcdCharacters =
      fun b => [BitVec.ofNat 8 (0x30 + b.toNat / 16), BitVec.ofNat 8 (0x30 + b.toNat % 16)] := by
    funext b
    simp only [bcdCharacters, asciiOfDigit, highNibble_toNat, lowNibble_toNat]
  rw [h, bcdText]

theorem decimalValue_append_one (t : ByteString) (b : Byte) :
    decimalValue (t ++ [b]) = decimalValue t * 10 + (b.toNat - 0x30) := by
  induction t with
  | nil => simp [decimalValue]
  | cons c t ih =>
    simp only [List.cons_append, decimalValue, ih, List.length_append, List.length_singleton, Nat.pow_succ]
    ring

/-- R129: the two ways to say the number of a digit string. -/
theorem digitsNumber_eq (t : ByteString) : digitsNumber t = decimalValue t := by
  induction t using List.reverseRecOn with
  | nil => rfl
  | append_singleton t b ih => rw [digitsNumber_append_one, decimalValue_append_one, ih]

theorem encTxt_isTextField (t : ByteString) (w : Nat) : IsTextField t w (encTxt t w) :=
  ⟨encTxt_length t w, fun i hi => encTxt_getElem? t w i hi⟩

theorem digitString_isDecimalField (m w : Nat) : IsDecimalField m w (digitString m w) := by
  refine ⟨digitString_length m w, fun i hi => ?_⟩
  simp [digitString, List.getElem?_range hi, asciiOfDigit, digitAt]

theorem packDigits_eq (t u : Nat) (ht : t < 10) (hu : u < 10) : packDigits t u = BitVec.ofNat 8 (t * 16 + u) := by
  interval_cases t <;> interval_cases u <;> rfl

theorem packedString_isPackedField (m w : Nat) : IsPackedField m w (packedString m w) := by
  refine ⟨packedString_length m w, fun i hi => ?_⟩
  have h1 : 2 * w - 1 - (2 * i + 1) = 2 * w - 2 - 2 * i := by omega
  rw [← h1]
  simp only [packedString, List.getElem?_map, List.getElem?_range hi, Option.map_some,
    packDigits_eq _ _ (digitAt_lt ..) (digitAt_lt ..)]
  rfl

/-- R129 in the statements' terms: no bad byte, or a first one. -/
theorem digitsVal_firstBad (t : ByteString) (i : Nat) (h : FirstBad AsciiDigit t i) :
    digitsVal t = .error (.invalid i) := by
  obtain ⟨⟨b, hb, hbad⟩, hgood⟩ := h
  obtain ⟨hi, rfl⟩ := List.getElem?_eq_some_iff.1 hb
  refine digitsVal_bad t i hi ?_ (fun j hj => (asciiDigit_iff _).2 (hgood j _ hj (List.getElem?_eq_getElem _)))
  rw [← asciiDigit_iff] at hbad
  simpa using hbad

theorem decBcd_firstBad (t : ByteString) (i : Nat) (h : FirstBad BcdByte t i) :
    decBcd t = .error (.invalid i) := by
  obtain ⟨⟨b, hb, hbad⟩, hgood⟩ := h
  obtain ⟨hi, rfl⟩ := List.getElem?_eq_some_iff.1 hb
  refine decBcd_bad t i hi ?_ (fun j hj => (bcdByte_iff _).2 (hgood j _ hj (List.getElem?_eq_getElem _)))
  rw [← bcdByte_iff] at hbad
  simpa using hbad

theorem digitsVal_of_digits (t : ByteString) (h : ∀ b ∈ t, AsciiDigit b) : digitsVal t = .ok (decimalValue t) := by
  rw [digitsVal_ok t (fun b hb => (asciiDigit_iff b).2 (h b hb)), digitsNumber_eq]

theorem decBcd_of_bcd (t : ByteString) (h : ∀ b ∈ t, BcdByte b) : decBcd t = .ok (bcdText t) := by
  rw [decBcd_ok t (fun b hb => (bcdByte_iff b).2 (h b hb)), bcdCharacters_eq]

/-- R131 in the statements' terms. -/
theorem numResult_eq (ds : ByteString) (sc : BitVec 4) :
    numResult ds sc = ⟨ds, decide (ds.length ≤ 19), sc,
      if ds.length ≤ 19 then BitVec.ofNat 64 (decimalValue ds) else 0#64⟩ := by
  unfold numResult
  split <;> rename_i h <;> simp [h, datum, digitsNumber_eq]

theorem decodeNum_ok (t : ByteString) (sc : BitVec 4) (h : ∀ b ∈ t, AsciiDigit b) :
    decodeNum t sc = .ok (numResult t sc) := by
  simp [decodeNum, digitsVal_of_digits t h]

theorem decodeNum_bad (t : ByteString) (sc : BitVec 4) (i : Nat) (h : FirstBad AsciiDigit t i) :
    decodeNum t sc = .error (.invalid i) := by
  simp [decodeNum, digitsVal_firstBad t i h]

theorem decodeBcd_ok (t : ByteString) (sc : BitVec 4) (h : ∀ b ∈ t, BcdByte b) :
    decodeBcd t sc = .ok (numResult (bcdText t) sc) := by
  simp [decodeBcd, decBcd_of_bcd t h]

theorem decodeBcd_bad (t : ByteString) (sc : BitVec 4) (i : Nat) (h : FirstBad BcdByte t i) :
    decodeBcd t sc = .error (.invalid i) := by
  simp [decodeBcd, decBcd_firstBad t i h]

theorem bcdText_length (t : ByteString) : (bcdText t).length = 2 * t.length := by
  rw [← bcdCharacters_eq, flatMap_bcdCharacters_length]

/-- R191 in the statements' terms. -/
theorem idBytes_isIdentifier (id : BitVec 24) : IsIdentifier id (idBytes id) := by
  refine ⟨idBytes_length id, fun i b hb => ?_⟩
  have hid := id.isLt
  have e0 : (id.extractLsb' 0 8).toNat = id.toNat % 256 := by simp [BitVec.extractLsb'_toNat]
  have e1 : (id.extractLsb' 8 8).toNat = id.toNat / 256 % 256 := by
    simp [BitVec.extractLsb'_toNat, Nat.shiftRight_eq_div_pow]
  have e2 : (id.extractLsb' 16 8).toNat = id.toNat / 65536 % 256 := by
    simp [BitVec.extractLsb'_toNat, Nat.shiftRight_eq_div_pow]
  rcases Nat.lt_or_ge id.toNat 0x100 with h | h
  · simp only [idBytes, if_pos h] at hb ⊢
    rcases i with _ | i <;> simp at hb
    subst hb; simp
  · rcases Nat.lt_or_ge id.toNat 0x10000 with h2 | h2
    · simp only [idBytes, if_neg (Nat.not_lt.2 h), if_pos h2] at hb ⊢
      rcases i with _ | _ | i <;> simp at hb <;> subst hb
      · simpa using e1
      · simp
    · simp only [idBytes, if_neg (Nat.not_lt.2 h), if_neg (Nat.not_lt.2 h2)] at hb ⊢
      rcases i with _ | _ | _ | i <;> simp at hb <;> subst hb
      · simpa using e2
      · simpa using e1
      · simp

theorem checksum_eq (c : ByteString) : checksum c = half ((c.map BitVec.toNat).sum) := by
  have : ∀ (c : ByteString) (k : Nat), c.foldl (fun acc b => acc + b.toNat) k = k + (c.map BitVec.toNat).sum := by
    intro c
    induction c with
    | nil => simp
    | cons b c ih => intro k; rw [List.foldl_cons, ih]; simp [Nat.add_assoc]
  simp [checksum, this]

theorem le16_half (n : Nat) : le16 (half n) = [BitVec.ofNat 8 n, BitVec.ofNat 8 (n / 256)] := by
  have h0 : (half n).extractLsb' 0 8 = BitVec.ofNat 8 n := by
    apply BitVec.eq_of_toNat_eq; simp [BitVec.extractLsb'_toNat]
  have h1 : (half n).extractLsb' 8 8 = BitVec.ofNat 8 (n / 256) := by
    apply BitVec.eq_of_toNat_eq
    simp only [BitVec.extractLsb'_toNat, half_toNat, Nat.shiftRight_eq_div_pow, BitVec.toNat_ofNat]
    omega
  rw [le16, h0, h1]

theorem half_mod (n : Nat) : half (n % 65536) = half n := by
  apply BitVec.eq_of_toNat_eq; simp

/-- R196 in the statements' terms. -/
theorem packet_eq (stx : Byte) (c : ByteString) : packet stx c = packetBytes stx c := by
  unfold packet packetBytes packetLength
  rw [checksum_eq, ← half_mod ((c.map BitVec.toNat).sum), le16_half, le16_half]
  rfl

/-- R261: the open-coupon bit. -/
theorem couponOpen_eq (st1 : Byte) : couponOpen st1 = st1.getLsbD 1 := by
  revert st1; decide

theorem hits_iff (v : Byte) (e : MaskEntry) : MaskEntry.hits v e = true ↔ EntryMatches v e := by
  simp [MaskEntry.hits]

theorem find?_hits_some (t : List MaskEntry) (v : Byte) (e : MaskEntry) (h : FirstMatch t v e) :
    t.find? (MaskEntry.hits v) = some e := by
  obtain ⟨pre, post, rfl, hm, hn⟩ := h
  rw [List.find?_append, List.find?_eq_none.2, Option.none_or, List.find?_cons_of_pos ((hits_iff v e).2 hm)]
  intro x hx hh
  exact hn x hx ((hits_iff v x).1 hh)

theorem find?_hits_none (t : List MaskEntry) (v : Byte) (h : ∀ e ∈ t, ¬ EntryMatches v e) :
    t.find? (MaskEntry.hits v) = none :=
  List.find?_eq_none.2 (fun x hx hh => h x hx ((hits_iff v x).1 hh))

/-- R260 in the statements' terms. -/
theorem statusFault_clean (p : Params) (st1 st2 : Byte) (h : StatusClean p st1 st2) :
    statusFault p st1 st2 = none := by
  simp [statusFault, find?_hits_none _ _ h.1, find?_hits_none _ _ h.2]

theorem statusFault_raises (p : Params) (st1 st2 : Byte) (e : MaskEntry) (tbl : FaultTable)
    (h : StatusRaises p st1 st2 e tbl) : statusFault p st1 st2 = some (e, tbl) := by
  rcases h with ⟨h, rfl⟩ | ⟨h1, h2, rfl⟩
  · simp [statusFault, find?_hits_some _ _ _ h]
  · simp [statusFault, find?_hits_none _ _ h1, find?_hits_some _ _ _ h2]

end Sys2Proof.Machine
end

