-- ==== Sys2Proof/Laws/Flags.lean ====
section
/-! SUPPORT. The words of `FLT`, `FLAGS` and `STAT` as numbers (10_state.md R34, R35, R40). -/

namespace Sys2Proof.Machine

/-- R34: the number `FLT` reads. -/
theorem FaultLatch.word_toNat (f : FaultLatch) : f.word.toNat =
    f.kind.code.toNat + 2 ^ 8 * f.sub.toNat + 2 ^ 16 * f.det.toNat + 2 ^ 32 * f.tbl.code.toNat := by
  unfold FaultLatch.word
  rw [toNat_append_eq, toNat_append_eq, toNat_append_eq, toNat_append_eq]
  simp only [BitVec.toNat_ofNat]
  omega

/-- R35: the number `FLAGS` reads. -/
theorem FlagBits.word_toNat (f : FlagBits) : f.word.toNat =
    f.coupon.toNat + 2 * f.sc.toNat + 4 * f.nv.toNat + 8 * f.stv.toNat + 2 ^ 8 * f.ns.toNat := by
  unfold FlagBits.word
  rw [toNat_append_eq, toNat_append_eq, toNat_append_eq, toNat_append_eq, toNat_append_eq]
  simp only [BitVec.toNat_ofNat, BitVec.toNat_ofBool]
  omega

/-- R40: the number `STAT` reads. -/
theorem StatusLatch.word_toNat (t : StatusLatch) : t.word.toNat =
    t.st1.toNat + 2 ^ 8 * t.st2.toNat + 2 ^ 16 * t.ack.toNat := by
  unfold StatusLatch.word
  rw [toNat_append_eq, toNat_append_eq]
  omega

@[simp] theorem FaultLatch.clear_word : FaultLatch.clear.word = 0#36 := by decide
@[simp] theorem FlagBits.clear_word : FlagBits.clear.word = 0#12 := by decide
@[simp] theorem StatusLatch.clear_word : StatusLatch.clear.word = 0#24 := by decide

/-- R301: the code 0 is the code of no fault. -/
@[simp] theorem FaultKind.code_eq_zero (k : FaultKind) : k.code = 0#4 ↔ k = .noFault := by
  cases k <;> decide

end Sys2Proof.Machine
end

