-- ==== Sys2Proof/Laws/PerInstr.lean ====
section
/-! SUPPORT. Laws about every operation as syntax, one lemma for each constructor of `Instr`. The lemmas are elaborated
one after another: side by side, each would hold a thread that waits for the equations of `encode`. -/

namespace Sys2Proof.Laws.DecodesBack

set_option Elab.async false

/-- The decoder reads the operation back from the word the encoder writes: no bit of an operand is dropped (R90). -/
def Statement (i : Instr) : Prop := decode (encode i) = .legal i

theorem nop : Statement (.nop) := by
  simp [Statement, encode, decode, decodeZ]

theorem fack : Statement (.fack) := by
  simp [Statement, encode, decode, decodeZ]

theorem srst : Statement (.srst) := by
  simp [Statement, encode, decode, decodeZ]

theorem srRd (n : Byte) : Statement (.srRd n) := by
  simp [Statement, encode, decode, decodeB]

theorem argClr : Statement (.argClr) := by
  simp [Statement, encode, decode, decodeZ]

theorem argPush (b : Byte) : Statement (.argPush b) := by
  simp [Statement, encode, decode, decodeB]

theorem argRes : Statement (.argRes) := by
  simp [Statement, encode, decode, decodeZ]

theorem resRd (idx : Half) : Statement (.resRd idx) := by
  simp [Statement, encode, decode, decodeX]

theorem payRd (idx : Half) : Statement (.payRd idx) := by
  simp [Statement, encode, decode, decodeX]

theorem fencTxt (w : Byte) : Statement (.fencTxt w) := by
  simp [Statement, encode, decode, decodeFEncode, FieldSpec.legal, FieldSpec.alignmentLegal, FieldSpec.scaleLegal, FieldSpec.exponentLegal,
    FieldSpec.digitModeLegal, FieldSpec.numeric]

theorem fencNum (w : Byte) (sc e : BitVec 4) : Statement (.fencNum w sc e) := by
  simp [Statement, encode, decode, decodeFEncode, FieldSpec.legal, FieldSpec.alignmentLegal, FieldSpec.scaleLegal, FieldSpec.exponentLegal,
    FieldSpec.digitModeLegal, FieldSpec.numeric]

theorem fencNumd (w : Byte) : Statement (.fencNumd w) := by
  simp [Statement, encode, decode, decodeFEncode, FieldSpec.legal, FieldSpec.alignmentLegal, FieldSpec.scaleLegal, FieldSpec.exponentLegal,
    FieldSpec.digitModeLegal, FieldSpec.numeric]

theorem fencBcd (w : Byte) (sc e : BitVec 4) : Statement (.fencBcd w sc e) := by
  simp [Statement, encode, decode, decodeFEncode, FieldSpec.legal, FieldSpec.alignmentLegal, FieldSpec.scaleLegal, FieldSpec.exponentLegal,
    FieldSpec.digitModeLegal, FieldSpec.numeric]

theorem fencBcdd (w : Byte) : Statement (.fencBcdd w) := by
  simp [Statement, encode, decode, decodeFEncode, FieldSpec.legal, FieldSpec.alignmentLegal, FieldSpec.scaleLegal, FieldSpec.exponentLegal,
    FieldSpec.digitModeLegal, FieldSpec.numeric]

theorem fencRaw (w : Byte) : Statement (.fencRaw w) := by
  simp [Statement, encode, decode, decodeFEncode, FieldSpec.legal, FieldSpec.alignmentLegal, FieldSpec.scaleLegal, FieldSpec.exponentLegal,
    FieldSpec.digitModeLegal, FieldSpec.numeric]

theorem fdecTxt (w : Byte) : Statement (.fdecTxt w) := by
  simp [Statement, encode, decode, decodeFDecode, FieldSpec.legal, FieldSpec.alignmentLegal, FieldSpec.scaleLegal, FieldSpec.exponentLegal,
    FieldSpec.digitModeLegal, FieldSpec.numeric]

theorem fdecNum (w : Byte) (sc : BitVec 4) : Statement (.fdecNum w sc) := by
  simp [Statement, encode, decode, decodeFDecode, FieldSpec.legal, FieldSpec.alignmentLegal, FieldSpec.scaleLegal, FieldSpec.exponentLegal,
    FieldSpec.digitModeLegal, FieldSpec.numeric]

theorem fdecBcd (w : Byte) (sc : BitVec 4) : Statement (.fdecBcd w sc) := by
  simp [Statement, encode, decode, decodeFDecode, FieldSpec.legal, FieldSpec.alignmentLegal, FieldSpec.scaleLegal, FieldSpec.exponentLegal,
    FieldSpec.digitModeLegal, FieldSpec.numeric]

theorem fdecRaw (w : Byte) : Statement (.fdecRaw w) := by
  simp [Statement, encode, decode, decodeFDecode, FieldSpec.legal, FieldSpec.alignmentLegal, FieldSpec.scaleLegal, FieldSpec.exponentLegal,
    FieldSpec.digitModeLegal, FieldSpec.numeric]

theorem fpackTxt (w : Byte) : Statement (.fpackTxt w) := by
  simp [Statement, encode, decode, decodeFEncode, FieldSpec.legal, FieldSpec.alignmentLegal, FieldSpec.scaleLegal, FieldSpec.exponentLegal,
    FieldSpec.digitModeLegal, FieldSpec.numeric]

theorem fpackNum (w : Byte) (sc e : BitVec 4) : Statement (.fpackNum w sc e) := by
  simp [Statement, encode, decode, decodeFEncode, FieldSpec.legal, FieldSpec.alignmentLegal, FieldSpec.scaleLegal, FieldSpec.exponentLegal,
    FieldSpec.digitModeLegal, FieldSpec.numeric]

theorem fpackNumd (w : Byte) : Statement (.fpackNumd w) := by
  simp [Statement, encode, decode, decodeFEncode, FieldSpec.legal, FieldSpec.alignmentLegal, FieldSpec.scaleLegal, FieldSpec.exponentLegal,
    FieldSpec.digitModeLegal, FieldSpec.numeric]

theorem fpackBcd (w : Byte) (sc e : BitVec 4) : Statement (.fpackBcd w sc e) := by
  simp [Statement, encode, decode, decodeFEncode, FieldSpec.legal, FieldSpec.alignmentLegal, FieldSpec.scaleLegal, FieldSpec.exponentLegal,
    FieldSpec.digitModeLegal, FieldSpec.numeric]

theorem fpackBcdd (w : Byte) : Statement (.fpackBcdd w) := by
  simp [Statement, encode, decode, decodeFEncode, FieldSpec.legal, FieldSpec.alignmentLegal, FieldSpec.scaleLegal, FieldSpec.exponentLegal,
    FieldSpec.digitModeLegal, FieldSpec.numeric]

theorem fpackRaw (w : Byte) : Statement (.fpackRaw w) := by
  simp [Statement, encode, decode, decodeFEncode, FieldSpec.legal, FieldSpec.alignmentLegal, FieldSpec.scaleLegal, FieldSpec.exponentLegal,
    FieldSpec.digitModeLegal, FieldSpec.numeric]

theorem funpkTxt (w : Byte) : Statement (.funpkTxt w) := by
  simp [Statement, encode, decode, decodeFDecode, FieldSpec.legal, FieldSpec.alignmentLegal, FieldSpec.scaleLegal, FieldSpec.exponentLegal,
    FieldSpec.digitModeLegal, FieldSpec.numeric]

theorem funpkNum (w : Byte) (sc : BitVec 4) : Statement (.funpkNum w sc) := by
  simp [Statement, encode, decode, decodeFDecode, FieldSpec.legal, FieldSpec.alignmentLegal, FieldSpec.scaleLegal, FieldSpec.exponentLegal,
    FieldSpec.digitModeLegal, FieldSpec.numeric]

theorem funpkBcd (w : Byte) (sc : BitVec 4) : Statement (.funpkBcd w sc) := by
  simp [Statement, encode, decode, decodeFDecode, FieldSpec.legal, FieldSpec.alignmentLegal, FieldSpec.scaleLegal, FieldSpec.exponentLegal,
    FieldSpec.digitModeLegal, FieldSpec.numeric]

theorem funpkRaw (w : Byte) : Statement (.funpkRaw w) := by
  simp [Statement, encode, decode, decodeFDecode, FieldSpec.legal, FieldSpec.alignmentLegal, FieldSpec.scaleLegal, FieldSpec.exponentLegal,
    FieldSpec.digitModeLegal, FieldSpec.numeric]

theorem cmdBegin (id : BitVec 24) : Statement (.cmdBegin id) := by
  simp [Statement, encode, decode, decodeI]

theorem cmdPush (b : Byte) : Statement (.cmdPush b) := by
  simp [Statement, encode, decode, decodeB]

theorem csum : Statement (.csum) := by
  simp [Statement, encode, decode, decodeZ]

theorem cmdSend (n : Half) : Statement (.cmdSend n) := by
  simp [Statement, encode, decode, decodeS]

theorem cmdSendr (n : Half) : Statement (.cmdSendr n) := by
  simp [Statement, encode, decode, decodeS]

theorem xpRead (n : Half) : Statement (.xpRead n) := by
  simp [Statement, encode, decode, decodeR]

theorem regLookup (id : Byte) : Statement (.regLookup id) := by
  simp [Statement, encode, decode, decodeB]

theorem regRead (id : Byte) : Statement (.regRead id) := by
  simp [Statement, encode, decode, decodeB]

theorem stDecode : Statement (.stDecode) := by
  simp [Statement, encode, decode, decodeZ]

theorem st3Decode : Statement (.st3Decode) := by
  simp [Statement, encode, decode, decodeZ]

end Sys2Proof.Laws.DecodesBack
end

