-- ==== Sys2Proof/Laws/Host.lean ====
section
/-! SUPPORT. The host's sequences one operation at a time (30_encoding.md R106): what one transaction does, and how a
sequence goes on or stops. -/

namespace Sys2Proof.Machine

/-- R9, R33, R90: the transaction of `i` presented to an idle block runs `i`. -/
theorem step_request (i : Instr) (xs : Datum) (s : State) (h : s.seq = .idle)
    (hd : decode (encode i) = .legal i) :
    step { s with hostIn := [request i xs] } = exec i { s with xs := xs, hostIn := [] } := by
  show (if s.seq = .idle then _ else _) = _
  rw [if_pos h]
  show (match decode (encode i) with
    | .legal i => exec i _
    | .illegal e => .next _) = _
  rw [hd]
  rfl

/-- R9: the completion the host has after a transaction. -/
theorem transact_request (i : Instr) (xs : Datum) (s t : State) (c : Completion) (cs : List Completion)
    (h : s.seq = .idle) (hd : decode (encode i) = .legal i)
    (he : exec i { s with xs := xs, hostIn := [] } = .next t) (hc : t.completions = c :: cs) :
    transact (request i xs) s = some (c, t) := by
  unfold transact
  rw [step_request i xs s h hd, he]
  simp only [hc]

/-- R106: a completion with `CC = 0`: the sequence goes on. -/
theorem issue_cons (t : Transaction) (rest : List Transaction) (s s' : State) (c : Completion)
    (h : transact t s = some (c, s')) (hc : c.cc = 0#4) :
    issue (t :: rest) s =
      ⟨c :: (issue rest s').results, (issue rest s').finished, (issue rest s').state⟩ := by
  simp only [issue, h, hc, if_true]

/-- R106: "If any operation of a sequence completes with `CC ≠ 0` the host stops the sequence there". -/
theorem issue_stop (t : Transaction) (rest : List Transaction) (s s' : State) (c : Completion)
    (h : transact t s = some (c, s')) (hc : c.cc ≠ 0#4) : issue (t :: rest) s = ⟨[c], false, s'⟩ := by
  simp only [issue, h, hc, if_false]

/-- R286: an offset below 2^64 is presented as it is. -/
theorem offsetOperand_toNat (off : Nat) (h : off < 2 ^ 64) : (offsetOperand off).toNat = off := by
  simp only [offsetOperand, datum, BitVec.toNat_ofNat]
  omega

/-- R287: an offset past every window is presented as one past every window. -/
theorem offsetOperand_past (off n : Nat) (hn : n < 2 ^ 64) (h : n ≤ off) : n ≤ (offsetOperand off).toNat := by
  simp only [offsetOperand, datum, BitVec.toNat_ofNat]
  omega

/-- R283: every scalar field of a legal layout lies inside the payload. -/
theorem ReportLayout.legal_field {p : Params} {l : ReportLayout} (h : l.legal p = true) {f : ReportField}
    (hf : f ∈ l.fields) : f.offset + f.width.toNat ≤ l.len.toNat := by
  simp only [ReportLayout.legal, Bool.and_eq_true, List.all_eq_true, decide_eq_true_eq] at h
  exact h.1.1.1 f hf

/-- R283, R284: every slot of an array of a legal layout lies inside the payload. -/
theorem ReportLayout.legal_slot {p : Params} {l : ReportLayout} (h : l.legal p = true) {a : ReportArray}
    (ha : a ∈ l.arrays) {j : Nat} (hj : j < a.count) : a.offset + j * a.stride + a.width.toNat ≤ l.len.toNat := by
  simp only [ReportLayout.legal, Bool.and_eq_true, List.all_eq_true] at h
  have hi := h.1.1.2 a ha
  simp only [ReportArray.inside, Bool.or_eq_true, decide_eq_true_eq] at hi
  have hm := Nat.mul_le_mul_right a.stride (show j ≤ a.count - 1 by omega)
  omega

/-- R106: a sequence whose operations completed and whose reads completed hands over its value. -/
theorem fetch_done (ops : List Transaction) (reads : State → List Transaction) (s : State) (c : Completion)
    (h : (issue ops s).finished = true) (hc : (issue ops s).results.getLast? = some c)
    (hr : (issue (reads (issue ops s).state) (issue ops s).state).finished = true) :
    (fetch ops reads s).value = some ⟨c, (issue ops s).state.flags,
      (issue (reads (issue ops s).state) (issue ops s).state).results.map (fun d => d.xd.setWidth 8)⟩ ∧
    (fetch ops reads s).run.state = (issue (reads (issue ops s).state) (issue ops s).state).state := by
  simp only [fetch, h, hc, hr, if_true, and_self]

/-- R106: a sequence that stops in its operations hands over nothing. -/
theorem fetch_stop (ops : List Transaction) (reads : State → List Transaction) (s : State)
    (h : (issue ops s).finished = false) : fetch ops reads s = ⟨none, issue ops s⟩ := by
  simp only [fetch, h]

/-- R287: the values decoded before a stop stay with the host. -/
theorem collect_cons (t : Transaction) (rest : List Transaction) (s : State) (v : HostValue)
    (h : (fetch [t] unpackReads s).value = some v) :
    (collect (t :: rest) s).values = v :: (collect rest (fetch [t] unpackReads s).run.state).values ∧
    (collect (t :: rest) s).finished = (collect rest (fetch [t] unpackReads s).run.state).finished ∧
    (collect (t :: rest) s).state = (collect rest (fetch [t] unpackReads s).run.state).state := by
  simp only [collect, h, and_self]

/-- R287: an unpack without a value ends the unpacking. -/
theorem collect_stop (t : Transaction) (rest : List Transaction) (s : State)
    (h : (fetch [t] unpackReads s).value = none) :
    collect (t :: rest) s = ⟨[], false, (fetch [t] unpackReads s).run.state⟩ := by
  simp only [collect, h]

/-- R286: no unpacking has more values than unpacks, and a finished one has a value for each. -/
theorem collect_length (ts : List Transaction) (s : State) :
    (collect ts s).values.length ≤ ts.length ∧
      ((collect ts s).finished = true → (collect ts s).values.length = ts.length) := by
  induction ts generalizing s with
  | nil => exact ⟨Nat.le_refl _, fun _ => rfl⟩
  | cons t rest ih =>
    cases hv : (fetch [t] unpackReads s).value with
    | none => rw [collect_stop t rest s hv]; simp
    | some v =>
      obtain ⟨h1, h2, -⟩ := collect_cons t rest s v hv
      have := ih (fetch [t] unpackReads s).run.state
      rw [h1, h2]
      simpa using this

/-- R280: one name for each unpack. -/
theorem ReportLayout.names_length (l : ReportLayout) : l.names.length = l.unpacks.length := by
  have h : ∀ as : List ReportArray,
      (as.flatMap (fun a => List.replicate a.count a.name)).length = (as.flatMap ReportArray.requests).length := by
    intro as
    induction as with
    | nil => rfl
    | cons a as ih =>
      simp only [List.flatMap_cons, List.length_append, ih, List.length_replicate]
      cases hk : a.kind <;> simp [ReportArray.requests, hk, unpackArray, unpackRawArray]
  simp [ReportLayout.names, ReportLayout.unpacks, h]

end Sys2Proof.Machine
end

