-- ==== Sys2Proof/Laws/State.lean ====
section
/-! SUPPORT. What each update of the state does to each field: one lemma per field per update. -/

namespace Sys2Proof.Machine

variable (s : State)

@[simp] theorem State.complete_arg (v : Datum) : (s.complete v).arg = s.arg := rfl
@[simp] theorem State.complete_cmd (v : Datum) : (s.complete v).cmd = s.cmd := rfl
@[simp] theorem State.complete_rpl (v : Datum) : (s.complete v).rpl = s.rpl := rfl
@[simp] theorem State.complete_res (v : Datum) : (s.complete v).res = s.res := rfl
@[simp] theorem State.complete_cmdId (v : Datum) : (s.complete v).cmdId = s.cmdId := rfl
@[simp] theorem State.complete_pbase (v : Datum) : (s.complete v).pbase = s.pbase := rfl
@[simp] theorem State.complete_plen (v : Datum) : (s.complete v).plen = s.plen := rfl
@[simp] theorem State.complete_rplWant (v : Datum) : (s.complete v).rplWant = s.rplWant := rfl
@[simp] theorem State.complete_retry (v : Datum) : (s.complete v).retry = s.retry := rfl
@[simp] theorem State.complete_seq (v : Datum) : (s.complete v).seq = s.seq := rfl
@[simp] theorem State.complete_flt (v : Datum) : (s.complete v).flt = s.flt := rfl
@[simp] theorem State.complete_flags (v : Datum) : (s.complete v).flags = s.flags := rfl
@[simp] theorem State.complete_stat (v : Datum) : (s.complete v).stat = s.stat := rfl
@[simp] theorem State.complete_xs (v : Datum) : (s.complete v).xs = s.xs := rfl
@[simp] theorem State.complete_hostIn (v : Datum) : (s.complete v).hostIn = s.hostIn := rfl
@[simp] theorem State.complete_completions (v : Datum) : (s.complete v).completions = ⟨0#4, v⟩ :: s.completions := rfl
@[simp] theorem State.complete_txScript (v : Datum) : (s.complete v).txScript = s.txScript := rfl
@[simp] theorem State.complete_txLog (v : Datum) : (s.complete v).txLog = s.txLog := rfl
@[simp] theorem State.complete_cfg (v : Datum) : (s.complete v).cfg = s.cfg := rfl

@[simp] theorem State.raise_arg (k : FaultKind) (sub : Byte) (det : Half) (tbl : FaultTable) :
    (s.raise k sub det tbl).arg =
      s.arg := rfl
@[simp] theorem State.raise_cmd (k : FaultKind) (sub : Byte) (det : Half) (tbl : FaultTable) :
    (s.raise k sub det tbl).cmd =
      s.cmd := rfl
@[simp] theorem State.raise_rpl (k : FaultKind) (sub : Byte) (det : Half) (tbl : FaultTable) :
    (s.raise k sub det tbl).rpl =
      s.rpl := rfl
@[simp] theorem State.raise_res (k : FaultKind) (sub : Byte) (det : Half) (tbl : FaultTable) :
    (s.raise k sub det tbl).res =
      s.res := rfl
@[simp] theorem State.raise_cmdId (k : FaultKind) (sub : Byte) (det : Half) (tbl : FaultTable) :
    (s.raise k sub det tbl).cmdId =
      s.cmdId := rfl
@[simp] theorem State.raise_pbase (k : FaultKind) (sub : Byte) (det : Half) (tbl : FaultTable) :
    (s.raise k sub det tbl).pbase =
      s.pbase := rfl
@[simp] theorem State.raise_plen (k : FaultKind) (sub : Byte) (det : Half) (tbl : FaultTable) :
    (s.raise k sub det tbl).plen =
      s.plen := rfl
@[simp] theorem State.raise_rplWant (k : FaultKind) (sub : Byte) (det : Half) (tbl : FaultTable) :
    (s.raise k sub det tbl).rplWant =
      s.rplWant := rfl
@[simp] theorem State.raise_retry (k : FaultKind) (sub : Byte) (det : Half) (tbl : FaultTable) :
    (s.raise k sub det tbl).retry =
      s.retry := rfl
@[simp] theorem State.raise_seq (k : FaultKind) (sub : Byte) (det : Half) (tbl : FaultTable) :
    (s.raise k sub det tbl).seq =
      .idle := rfl
@[simp] theorem State.raise_flt (k : FaultKind) (sub : Byte) (det : Half) (tbl : FaultTable) :
    (s.raise k sub det tbl).flt =
      if s.flt.kind = .noFault then ⟨k, sub, det, tbl⟩ else s.flt := rfl
@[simp] theorem State.raise_flags (k : FaultKind) (sub : Byte) (det : Half) (tbl : FaultTable) :
    (s.raise k sub det tbl).flags =
      s.flags := rfl
@[simp] theorem State.raise_stat (k : FaultKind) (sub : Byte) (det : Half) (tbl : FaultTable) :
    (s.raise k sub det tbl).stat =
      s.stat := rfl
@[simp] theorem State.raise_xs (k : FaultKind) (sub : Byte) (det : Half) (tbl : FaultTable) :
    (s.raise k sub det tbl).xs =
      s.xs := rfl
@[simp] theorem State.raise_hostIn (k : FaultKind) (sub : Byte) (det : Half) (tbl : FaultTable) :
    (s.raise k sub det tbl).hostIn =
      s.hostIn := rfl
@[simp] theorem State.raise_completions (k : FaultKind) (sub : Byte) (det : Half) (tbl : FaultTable) :
    (s.raise k sub det tbl).completions =
      ⟨k.code, 0#64⟩ :: s.completions := rfl
@[simp] theorem State.raise_txScript (k : FaultKind) (sub : Byte) (det : Half) (tbl : FaultTable) :
    (s.raise k sub det tbl).txScript =
      s.txScript := rfl
@[simp] theorem State.raise_txLog (k : FaultKind) (sub : Byte) (det : Half) (tbl : FaultTable) :
    (s.raise k sub det tbl).txLog =
      s.txLog := rfl
@[simp] theorem State.raise_cfg (k : FaultKind) (sub : Byte) (det : Half) (tbl : FaultTable) :
    (s.raise k sub det tbl).cfg =
      s.cfg := rfl

@[simp] theorem State.acknowledge_arg : (s.acknowledge).arg = s.arg := rfl
@[simp] theorem State.acknowledge_cmd : (s.acknowledge).cmd = s.cmd := rfl
@[simp] theorem State.acknowledge_rpl : (s.acknowledge).rpl = s.rpl := rfl
@[simp] theorem State.acknowledge_res : (s.acknowledge).res = s.res := rfl
@[simp] theorem State.acknowledge_cmdId : (s.acknowledge).cmdId = s.cmdId := rfl
@[simp] theorem State.acknowledge_pbase : (s.acknowledge).pbase = s.pbase := rfl
@[simp] theorem State.acknowledge_plen : (s.acknowledge).plen = s.plen := rfl
@[simp] theorem State.acknowledge_rplWant : (s.acknowledge).rplWant = s.rplWant := rfl
@[simp] theorem State.acknowledge_retry : (s.acknowledge).retry = s.retry := rfl
@[simp] theorem State.acknowledge_seq : (s.acknowledge).seq = s.seq := rfl
@[simp] theorem State.acknowledge_flt : (s.acknowledge).flt = .clear := rfl
@[simp] theorem State.acknowledge_flags : (s.acknowledge).flags = s.flags := rfl
@[simp] theorem State.acknowledge_stat : (s.acknowledge).stat = s.stat := rfl
@[simp] theorem State.acknowledge_xs : (s.acknowledge).xs = s.xs := rfl
@[simp] theorem State.acknowledge_hostIn : (s.acknowledge).hostIn = s.hostIn := rfl
@[simp] theorem State.acknowledge_completions : (s.acknowledge).completions = s.completions := rfl
@[simp] theorem State.acknowledge_txScript : (s.acknowledge).txScript = s.txScript := rfl
@[simp] theorem State.acknowledge_txLog : (s.acknowledge).txLog = s.txLog := rfl
@[simp] theorem State.acknowledge_cfg : (s.acknowledge).cfg = s.cfg := rfl

@[simp] theorem State.refuse_arg : (s.refuse).arg = s.arg := rfl
@[simp] theorem State.refuse_cmd : (s.refuse).cmd = s.cmd := rfl
@[simp] theorem State.refuse_rpl : (s.refuse).rpl = s.rpl := rfl
@[simp] theorem State.refuse_res : (s.refuse).res = s.res := rfl
@[simp] theorem State.refuse_cmdId : (s.refuse).cmdId = s.cmdId := rfl
@[simp] theorem State.refuse_pbase : (s.refuse).pbase = s.pbase := rfl
@[simp] theorem State.refuse_plen : (s.refuse).plen = s.plen := rfl
@[simp] theorem State.refuse_rplWant : (s.refuse).rplWant = s.rplWant := rfl
@[simp] theorem State.refuse_retry : (s.refuse).retry = s.retry := rfl
@[simp] theorem State.refuse_seq : (s.refuse).seq = s.seq := rfl
@[simp] theorem State.refuse_flt : (s.refuse).flt = s.flt := rfl
@[simp] theorem State.refuse_flags : (s.refuse).flags = s.flags := rfl
@[simp] theorem State.refuse_stat : (s.refuse).stat = s.stat := rfl
@[simp] theorem State.refuse_xs : (s.refuse).xs = s.xs := rfl
@[simp] theorem State.refuse_hostIn : (s.refuse).hostIn = s.hostIn := rfl
@[simp] theorem State.refuse_completions : (s.refuse).completions = ⟨s.flt.kind.code, 0#64⟩ :: s.completions := rfl
@[simp] theorem State.refuse_txScript : (s.refuse).txScript = s.txScript := rfl
@[simp] theorem State.refuse_txLog : (s.refuse).txLog = s.txLog := rfl
@[simp] theorem State.refuse_cfg : (s.refuse).cfg = s.cfg := rfl

@[simp] theorem State.enterPhase_arg (p : Phase) : (s.enterPhase p).arg = s.arg := rfl
@[simp] theorem State.enterPhase_cmd (p : Phase) : (s.enterPhase p).cmd = s.cmd := rfl
@[simp] theorem State.enterPhase_rpl (p : Phase) : (s.enterPhase p).rpl = s.rpl := rfl
@[simp] theorem State.enterPhase_res (p : Phase) : (s.enterPhase p).res = s.res := rfl
@[simp] theorem State.enterPhase_cmdId (p : Phase) : (s.enterPhase p).cmdId = s.cmdId := rfl
@[simp] theorem State.enterPhase_pbase (p : Phase) : (s.enterPhase p).pbase = s.pbase := rfl
@[simp] theorem State.enterPhase_plen (p : Phase) : (s.enterPhase p).plen = s.plen := rfl
@[simp] theorem State.enterPhase_rplWant (p : Phase) : (s.enterPhase p).rplWant = s.rplWant := rfl
@[simp] theorem State.enterPhase_retry (p : Phase) : (s.enterPhase p).retry = s.retry := rfl
@[simp] theorem State.enterPhase_seq (p : Phase) : (s.enterPhase p).seq = p := rfl
@[simp] theorem State.enterPhase_flt (p : Phase) : (s.enterPhase p).flt = s.flt := rfl
@[simp] theorem State.enterPhase_flags (p : Phase) : (s.enterPhase p).flags = s.flags := rfl
@[simp] theorem State.enterPhase_stat (p : Phase) : (s.enterPhase p).stat = s.stat := rfl
@[simp] theorem State.enterPhase_xs (p : Phase) : (s.enterPhase p).xs = s.xs := rfl
@[simp] theorem State.enterPhase_hostIn (p : Phase) : (s.enterPhase p).hostIn = s.hostIn := rfl
@[simp] theorem State.enterPhase_completions (p : Phase) : (s.enterPhase p).completions = s.completions := rfl
@[simp] theorem State.enterPhase_txScript (p : Phase) : (s.enterPhase p).txScript = s.txScript := rfl
@[simp] theorem State.enterPhase_txLog (p : Phase) : (s.enterPhase p).txLog = s.txLog := rfl
@[simp] theorem State.enterPhase_cfg (p : Phase) : (s.enterPhase p).cfg = s.cfg := rfl

@[simp] theorem State.accept_arg (t : Transaction) (rest : List Transaction) : (s.accept t rest).arg = s.arg := rfl
@[simp] theorem State.accept_cmd (t : Transaction) (rest : List Transaction) : (s.accept t rest).cmd = s.cmd := rfl
@[simp] theorem State.accept_rpl (t : Transaction) (rest : List Transaction) : (s.accept t rest).rpl = s.rpl := rfl
@[simp] theorem State.accept_res (t : Transaction) (rest : List Transaction) : (s.accept t rest).res = s.res := rfl
@[simp] theorem State.accept_cmdId (t : Transaction) (rest : List Transaction) :
    (s.accept t rest).cmdId =
      s.cmdId := rfl
@[simp] theorem State.accept_pbase (t : Transaction) (rest : List Transaction) :
    (s.accept t rest).pbase =
      s.pbase := rfl
@[simp] theorem State.accept_plen (t : Transaction) (rest : List Transaction) : (s.accept t rest).plen = s.plen := rfl
@[simp] theorem State.accept_rplWant (t : Transaction) (rest : List Transaction) :
    (s.accept t rest).rplWant =
      s.rplWant := rfl
@[simp] theorem State.accept_retry (t : Transaction) (rest : List Transaction) :
    (s.accept t rest).retry =
      s.retry := rfl
@[simp] theorem State.accept_seq (t : Transaction) (rest : List Transaction) : (s.accept t rest).seq = s.seq := rfl
@[simp] theorem State.accept_flt (t : Transaction) (rest : List Transaction) : (s.accept t rest).flt = s.flt := rfl
@[simp] theorem State.accept_flags (t : Transaction) (rest : List Transaction) :
    (s.accept t rest).flags =
      s.flags := rfl
@[simp] theorem State.accept_stat (t : Transaction) (rest : List Transaction) : (s.accept t rest).stat = s.stat := rfl
@[simp] theorem State.accept_xs (t : Transaction) (rest : List Transaction) : (s.accept t rest).xs = t.xs := rfl
@[simp] theorem State.accept_hostIn (t : Transaction) (rest : List Transaction) :
    (s.accept t rest).hostIn =
      rest := rfl
@[simp] theorem State.accept_completions (t : Transaction) (rest : List Transaction) :
    (s.accept t rest).completions =
      s.completions := rfl
@[simp] theorem State.accept_txScript (t : Transaction) (rest : List Transaction) :
    (s.accept t rest).txScript =
      s.txScript := rfl
@[simp] theorem State.accept_txLog (t : Transaction) (rest : List Transaction) :
    (s.accept t rest).txLog =
      s.txLog := rfl
@[simp] theorem State.accept_cfg (t : Transaction) (rest : List Transaction) : (s.accept t rest).cfg = s.cfg := rfl

@[simp] theorem State.txWrite_arg (p : ByteString) : (s.txWrite p).arg = s.arg := rfl
@[simp] theorem State.txWrite_cmd (p : ByteString) : (s.txWrite p).cmd = s.cmd := rfl
@[simp] theorem State.txWrite_rpl (p : ByteString) : (s.txWrite p).rpl = s.rpl := rfl
@[simp] theorem State.txWrite_res (p : ByteString) : (s.txWrite p).res = s.res := rfl
@[simp] theorem State.txWrite_cmdId (p : ByteString) : (s.txWrite p).cmdId = s.cmdId := rfl
@[simp] theorem State.txWrite_pbase (p : ByteString) : (s.txWrite p).pbase = s.pbase := rfl
@[simp] theorem State.txWrite_plen (p : ByteString) : (s.txWrite p).plen = s.plen := rfl
@[simp] theorem State.txWrite_rplWant (p : ByteString) : (s.txWrite p).rplWant = s.rplWant := rfl
@[simp] theorem State.txWrite_retry (p : ByteString) : (s.txWrite p).retry = s.retry := rfl
@[simp] theorem State.txWrite_seq (p : ByteString) : (s.txWrite p).seq = s.seq := rfl
@[simp] theorem State.txWrite_flt (p : ByteString) : (s.txWrite p).flt = s.flt := rfl
@[simp] theorem State.txWrite_flags (p : ByteString) : (s.txWrite p).flags = s.flags := rfl
@[simp] theorem State.txWrite_stat (p : ByteString) : (s.txWrite p).stat = s.stat := rfl
@[simp] theorem State.txWrite_xs (p : ByteString) : (s.txWrite p).xs = s.xs := rfl
@[simp] theorem State.txWrite_hostIn (p : ByteString) : (s.txWrite p).hostIn = s.hostIn := rfl
@[simp] theorem State.txWrite_completions (p : ByteString) : (s.txWrite p).completions = s.completions := rfl
@[simp] theorem State.txWrite_txScript (p : ByteString) : (s.txWrite p).txScript = s.txScript := rfl
@[simp] theorem State.txWrite_txLog (p : ByteString) : (s.txWrite p).txLog = .write p :: s.txLog := rfl
@[simp] theorem State.txWrite_cfg (p : ByteString) : (s.txWrite p).cfg = s.cfg := rfl

@[simp] theorem State.txConsume_arg (k : Nat) : (s.txConsume k).arg = s.arg := rfl
@[simp] theorem State.txConsume_cmd (k : Nat) : (s.txConsume k).cmd = s.cmd := rfl
@[simp] theorem State.txConsume_rpl (k : Nat) : (s.txConsume k).rpl = s.rpl := rfl
@[simp] theorem State.txConsume_res (k : Nat) : (s.txConsume k).res = s.res := rfl
@[simp] theorem State.txConsume_cmdId (k : Nat) : (s.txConsume k).cmdId = s.cmdId := rfl
@[simp] theorem State.txConsume_pbase (k : Nat) : (s.txConsume k).pbase = s.pbase := rfl
@[simp] theorem State.txConsume_plen (k : Nat) : (s.txConsume k).plen = s.plen := rfl
@[simp] theorem State.txConsume_rplWant (k : Nat) : (s.txConsume k).rplWant = s.rplWant := rfl
@[simp] theorem State.txConsume_retry (k : Nat) : (s.txConsume k).retry = s.retry := rfl
@[simp] theorem State.txConsume_seq (k : Nat) : (s.txConsume k).seq = s.seq := rfl
@[simp] theorem State.txConsume_flt (k : Nat) : (s.txConsume k).flt = s.flt := rfl
@[simp] theorem State.txConsume_flags (k : Nat) : (s.txConsume k).flags = s.flags := rfl
@[simp] theorem State.txConsume_stat (k : Nat) : (s.txConsume k).stat = s.stat := rfl
@[simp] theorem State.txConsume_xs (k : Nat) : (s.txConsume k).xs = s.xs := rfl
@[simp] theorem State.txConsume_hostIn (k : Nat) : (s.txConsume k).hostIn = s.hostIn := rfl
@[simp] theorem State.txConsume_completions (k : Nat) : (s.txConsume k).completions = s.completions := rfl
@[simp] theorem State.txConsume_txScript (k : Nat) : (s.txConsume k).txScript = s.txScript.tail := rfl
@[simp] theorem State.txConsume_txLog (k : Nat) : (s.txConsume k).txLog = .read k (s.txAnswer k) :: s.txLog := rfl
@[simp] theorem State.txConsume_cfg (k : Nat) : (s.txConsume k).cfg = s.cfg := rfl

@[simp] theorem State.invalidateReply_arg : (s.invalidateReply).arg = s.arg := rfl
@[simp] theorem State.invalidateReply_cmd : (s.invalidateReply).cmd = s.cmd := rfl
@[simp] theorem State.invalidateReply_rpl : (s.invalidateReply).rpl = s.rpl := rfl
@[simp] theorem State.invalidateReply_res : (s.invalidateReply).res = s.res := rfl
@[simp] theorem State.invalidateReply_cmdId : (s.invalidateReply).cmdId = s.cmdId := rfl
@[simp] theorem State.invalidateReply_pbase : (s.invalidateReply).pbase = 0#16 := rfl
@[simp] theorem State.invalidateReply_plen : (s.invalidateReply).plen = 0#16 := rfl
@[simp] theorem State.invalidateReply_rplWant : (s.invalidateReply).rplWant = s.rplWant := rfl
@[simp] theorem State.invalidateReply_retry : (s.invalidateReply).retry = s.retry := rfl
@[simp] theorem State.invalidateReply_seq : (s.invalidateReply).seq = s.seq := rfl
@[simp] theorem State.invalidateReply_flt : (s.invalidateReply).flt = s.flt := rfl
@[simp] theorem State.invalidateReply_flags : (s.invalidateReply).flags = s.flags.invalidated := rfl
@[simp] theorem State.invalidateReply_stat : (s.invalidateReply).stat = s.stat := rfl
@[simp] theorem State.invalidateReply_xs : (s.invalidateReply).xs = s.xs := rfl
@[simp] theorem State.invalidateReply_hostIn : (s.invalidateReply).hostIn = s.hostIn := rfl
@[simp] theorem State.invalidateReply_completions : (s.invalidateReply).completions = s.completions := rfl
@[simp] theorem State.invalidateReply_txScript : (s.invalidateReply).txScript = s.txScript := rfl
@[simp] theorem State.invalidateReply_txLog : (s.invalidateReply).txLog = s.txLog := rfl
@[simp] theorem State.invalidateReply_cfg : (s.invalidateReply).cfg = s.cfg := rfl

@[simp] theorem State.startRead_arg (n : Nat) : (s.startRead n).arg = s.arg := rfl
@[simp] theorem State.startRead_cmd (n : Nat) : (s.startRead n).cmd = s.cmd := rfl
@[simp] theorem State.startRead_rpl (n : Nat) : (s.startRead n).rpl = s.rpl.clear := rfl
@[simp] theorem State.startRead_res (n : Nat) : (s.startRead n).res = s.res := rfl
@[simp] theorem State.startRead_cmdId (n : Nat) : (s.startRead n).cmdId = s.cmdId := rfl
@[simp] theorem State.startRead_pbase (n : Nat) : (s.startRead n).pbase = s.pbase := rfl
@[simp] theorem State.startRead_plen (n : Nat) : (s.startRead n).plen = s.plen := rfl
@[simp] theorem State.startRead_rplWant (n : Nat) : (s.startRead n).rplWant = half n := rfl
@[simp] theorem State.startRead_retry (n : Nat) : (s.startRead n).retry = 0#16 := rfl
@[simp] theorem State.startRead_seq (n : Nat) : (s.startRead n).seq = s.seq := rfl
@[simp] theorem State.startRead_flt (n : Nat) : (s.startRead n).flt = s.flt := rfl
@[simp] theorem State.startRead_flags (n : Nat) : (s.startRead n).flags = s.flags := rfl
@[simp] theorem State.startRead_stat (n : Nat) : (s.startRead n).stat = s.stat := rfl
@[simp] theorem State.startRead_xs (n : Nat) : (s.startRead n).xs = s.xs := rfl
@[simp] theorem State.startRead_hostIn (n : Nat) : (s.startRead n).hostIn = s.hostIn := rfl
@[simp] theorem State.startRead_completions (n : Nat) : (s.startRead n).completions = s.completions := rfl
@[simp] theorem State.startRead_txScript (n : Nat) : (s.startRead n).txScript = s.txScript := rfl
@[simp] theorem State.startRead_txLog (n : Nat) : (s.startRead n).txLog = s.txLog := rfl
@[simp] theorem State.startRead_cfg (n : Nat) : (s.startRead n).cfg = s.cfg := rfl

@[simp] theorem State.sendPacket_arg : (s.sendPacket).arg = s.arg := rfl
@[simp] theorem State.sendPacket_cmd : (s.sendPacket).cmd = s.cmd.clear := rfl
@[simp] theorem State.sendPacket_rpl : (s.sendPacket).rpl = s.rpl := rfl
@[simp] theorem State.sendPacket_res : (s.sendPacket).res = s.res := rfl
@[simp] theorem State.sendPacket_cmdId : (s.sendPacket).cmdId = s.cmdId := rfl
@[simp] theorem State.sendPacket_pbase : (s.sendPacket).pbase = 0#16 := rfl
@[simp] theorem State.sendPacket_plen : (s.sendPacket).plen = 0#16 := rfl
@[simp] theorem State.sendPacket_rplWant : (s.sendPacket).rplWant = s.rplWant := rfl
@[simp] theorem State.sendPacket_retry : (s.sendPacket).retry = s.retry := rfl
@[simp] theorem State.sendPacket_seq : (s.sendPacket).seq = .write := rfl
@[simp] theorem State.sendPacket_flt : (s.sendPacket).flt = s.flt := rfl
@[simp] theorem State.sendPacket_flags : (s.sendPacket).flags = s.flags.invalidated := rfl
@[simp] theorem State.sendPacket_stat : (s.sendPacket).stat = s.stat := rfl
@[simp] theorem State.sendPacket_xs : (s.sendPacket).xs = s.xs := rfl
@[simp] theorem State.sendPacket_hostIn : (s.sendPacket).hostIn = s.hostIn := rfl
@[simp] theorem State.sendPacket_completions : (s.sendPacket).completions = s.completions := rfl
@[simp] theorem State.sendPacket_txScript : (s.sendPacket).txScript = s.txScript := rfl
@[simp] theorem State.sendPacket_txLog :
    (s.sendPacket).txLog =
      .write (packet s.params.stx s.cmd.content) :: s.txLog := rfl
@[simp] theorem State.sendPacket_cfg : (s.sendPacket).cfg = s.cfg := rfl

@[simp] theorem State.latchReply_arg (n : Nat) : (s.latchReply n).arg = s.arg := rfl
@[simp] theorem State.latchReply_cmd (n : Nat) : (s.latchReply n).cmd = s.cmd := rfl
@[simp] theorem State.latchReply_rpl (n : Nat) : (s.latchReply n).rpl = s.rpl := rfl
@[simp] theorem State.latchReply_res (n : Nat) : (s.latchReply n).res = s.res := rfl
@[simp] theorem State.latchReply_cmdId (n : Nat) : (s.latchReply n).cmdId = s.cmdId := rfl
@[simp] theorem State.latchReply_pbase (n : Nat) : (s.latchReply n).pbase = 1#16 := rfl
@[simp] theorem State.latchReply_plen (n : Nat) : (s.latchReply n).plen = half n := rfl
@[simp] theorem State.latchReply_rplWant (n : Nat) : (s.latchReply n).rplWant = s.rplWant := rfl
@[simp] theorem State.latchReply_retry (n : Nat) : (s.latchReply n).retry = s.retry := rfl
@[simp] theorem State.latchReply_seq (n : Nat) : (s.latchReply n).seq = .check := rfl
@[simp] theorem State.latchReply_flt (n : Nat) : (s.latchReply n).flt = s.flt := rfl
@[simp] theorem State.latchReply_flags (n : Nat) :
    (s.latchReply n).flags =
      s.flags.latched (s.rpl.mem.read (standardLength n - 2)) n := rfl
@[simp] theorem State.latchReply_stat (n : Nat) :
    (s.latchReply n).stat =
      ⟨s.rpl.mem.read (standardLength n - 2), s.rpl.mem.read (standardLength n - 1), s.rpl.mem.read 0⟩ := rfl
@[simp] theorem State.latchReply_xs (n : Nat) : (s.latchReply n).xs = s.xs := rfl
@[simp] theorem State.latchReply_hostIn (n : Nat) : (s.latchReply n).hostIn = s.hostIn := rfl
@[simp] theorem State.latchReply_completions (n : Nat) : (s.latchReply n).completions = s.completions := rfl
@[simp] theorem State.latchReply_txScript (n : Nat) : (s.latchReply n).txScript = s.txScript := rfl
@[simp] theorem State.latchReply_txLog (n : Nat) : (s.latchReply n).txLog = s.txLog := rfl
@[simp] theorem State.latchReply_cfg (n : Nat) : (s.latchReply n).cfg = s.cfg := rfl

@[simp] theorem State.beginRegisterRead_arg (id : Byte) : (s.beginRegisterRead id).arg = s.arg := rfl
@[simp] theorem State.beginRegisterRead_cmd (id : Byte) :
    (s.beginRegisterRead id).cmd =
      s.cmd.load (idBytes s.params.rdregId ++ [id]) := rfl
@[simp] theorem State.beginRegisterRead_rpl (id : Byte) : (s.beginRegisterRead id).rpl = s.rpl := rfl
@[simp] theorem State.beginRegisterRead_res (id : Byte) : (s.beginRegisterRead id).res = s.res := rfl
@[simp] theorem State.beginRegisterRead_cmdId (id : Byte) : (s.beginRegisterRead id).cmdId = s.params.rdregId := rfl
@[simp] theorem State.beginRegisterRead_pbase (id : Byte) : (s.beginRegisterRead id).pbase = s.pbase := rfl
@[simp] theorem State.beginRegisterRead_plen (id : Byte) : (s.beginRegisterRead id).plen = s.plen := rfl
@[simp] theorem State.beginRegisterRead_rplWant (id : Byte) : (s.beginRegisterRead id).rplWant = s.rplWant := rfl
@[simp] theorem State.beginRegisterRead_retry (id : Byte) : (s.beginRegisterRead id).retry = s.retry := rfl
@[simp] theorem State.beginRegisterRead_seq (id : Byte) : (s.beginRegisterRead id).seq = s.seq := rfl
@[simp] theorem State.beginRegisterRead_flt (id : Byte) : (s.beginRegisterRead id).flt = s.flt := rfl
@[simp] theorem State.beginRegisterRead_flags (id : Byte) : (s.beginRegisterRead id).flags = s.flags := rfl
@[simp] theorem State.beginRegisterRead_stat (id : Byte) : (s.beginRegisterRead id).stat = s.stat := rfl
@[simp] theorem State.beginRegisterRead_xs (id : Byte) : (s.beginRegisterRead id).xs = s.xs := rfl
@[simp] theorem State.beginRegisterRead_hostIn (id : Byte) : (s.beginRegisterRead id).hostIn = s.hostIn := rfl
@[simp] theorem State.beginRegisterRead_completions (id : Byte) :
    (s.beginRegisterRead id).completions =
      s.completions := rfl
@[simp] theorem State.beginRegisterRead_txScript (id : Byte) : (s.beginRegisterRead id).txScript = s.txScript := rfl
@[simp] theorem State.beginRegisterRead_txLog (id : Byte) : (s.beginRegisterRead id).txLog = s.txLog := rfl
@[simp] theorem State.beginRegisterRead_cfg (id : Byte) : (s.beginRegisterRead id).cfg = s.cfg := rfl

@[simp] theorem State.blockReset_arg : (s.blockReset).arg = .empty := rfl
@[simp] theorem State.blockReset_cmd : (s.blockReset).cmd = .empty := rfl
@[simp] theorem State.blockReset_rpl : (s.blockReset).rpl = .empty := rfl
@[simp] theorem State.blockReset_res : (s.blockReset).res = .empty := rfl
@[simp] theorem State.blockReset_cmdId : (s.blockReset).cmdId = 0#24 := rfl
@[simp] theorem State.blockReset_pbase : (s.blockReset).pbase = 0#16 := rfl
@[simp] theorem State.blockReset_plen : (s.blockReset).plen = 0#16 := rfl
@[simp] theorem State.blockReset_rplWant : (s.blockReset).rplWant = 0#16 := rfl
@[simp] theorem State.blockReset_retry : (s.blockReset).retry = 0#16 := rfl
@[simp] theorem State.blockReset_seq : (s.blockReset).seq = .idle := rfl
@[simp] theorem State.blockReset_flt : (s.blockReset).flt = .clear := rfl
@[simp] theorem State.blockReset_flags : (s.blockReset).flags = .clear := rfl
@[simp] theorem State.blockReset_stat : (s.blockReset).stat = .clear := rfl
@[simp] theorem State.blockReset_xs : (s.blockReset).xs = s.xs := rfl
@[simp] theorem State.blockReset_hostIn : (s.blockReset).hostIn = s.hostIn := rfl
@[simp] theorem State.blockReset_completions : (s.blockReset).completions = s.completions := rfl
@[simp] theorem State.blockReset_txScript : (s.blockReset).txScript = s.txScript := rfl
@[simp] theorem State.blockReset_txLog : (s.blockReset).txLog = s.txLog := rfl
@[simp] theorem State.blockReset_cfg : (s.blockReset).cfg = s.cfg := rfl

end Sys2Proof.Machine
end

