-- ==== Sys2Proof/Laws/Ops.lean ====
section
/-! SUPPORT. One lemma per shared operation that says what it does: the latched refusal, the raise, the common parts of
the field operations (60_exceptions.md R310, R312; 40_field_codec.md; 41_field_pack_unpack.md R166, R173). -/

namespace Sys2Proof.Machine

/-- R312, R295: the ordinary operations with nothing latched. -/
theorem State.ordinary_clear (body : State → State) (s : State) (h : s.flt.kind = .noFault) :
    s.ordinary body = body s := by simp [State.ordinary, h]

/-- R312: the ordinary operations while a fault is latched. -/
theorem State.ordinary_latched (body : State → State) (s : State) (h : s.flt.kind ≠ .noFault) :
    s.ordinary body = s.refuse := by simp [State.ordinary, h]

/-- R310 with nothing latched. -/
theorem State.raise_clear (k : FaultKind) (sub : Byte) (det : Half) (tbl : FaultTable) (s : State)
    (h : s.flt.kind = .noFault) : s.raise k sub det tbl = s.faulted k sub det tbl := by
  simp [State.raise, State.faulted, h]

/-- R314: a raise while a fault is latched leaves `FLT` alone. -/
theorem State.raise_latched (k : FaultKind) (sub : Byte) (det : Half) (tbl : FaultTable) (s : State)
    (h : s.flt.kind ≠ .noFault) :
    s.raise k sub det tbl = { s with seq := .idle, completions := ⟨k.code, 0#64⟩ :: s.completions } := by
  simp [State.raise, h]

theorem State.illegal_clear (r : IllegalReason) (s : State) (h : s.flt.kind = .noFault) :
    s.illegal r = s.faulted .illegalOp 0#8 r.code .noTable := State.raise_clear _ _ _ _ s h

theorem State.raiseCodec_overflow (s : State) (h : s.flt.kind = .noFault) :
    s.raiseCodec .overflow = s.faulted .fieldOverflow 0#8 0#16 .noTable := State.raise_clear _ _ _ _ s h

theorem State.raiseCodec_invalid (i : Nat) (s : State) (h : s.flt.kind = .noFault) :
    s.raiseCodec (.invalid i) = s.faulted .invalidEncoding 0#8 (half i) .noTable := State.raise_clear _ _ _ _ s h

/-- R14: `B <- f`. -/
theorem Buffer.load_holds (b : Buffer) (f : ByteString) (h : b.mem.wf = true) (hf : f.length < 65536) :
    b.Holds (b.load f) f :=
  ⟨Buffer.load_content f b h hf, fun a ha => Buffer.load_beyond f b h a ha⟩

/-- R178 (a): append. -/
theorem Buffer.append_extends (b : Buffer) (f : ByteString) (h : b.mem.wf = true)
    (hf : b.len.toNat + f.length < 65536) : b.Extends (b.append f) f :=
  ⟨Buffer.append_content f b h hf, fun a ha => Buffer.append_outside f b h a ha⟩

theorem datumOfHalf_half (n : Nat) (h : n < 65536) : datumOfHalf (half n) = BitVec.ofNat 64 n := by
  apply BitVec.eq_of_toNat_eq
  simp only [datumOfHalf, BitVec.toNat_setWidth, half_toNat, BitVec.toNat_ofNat]
  omega

/-- R134: all that an ASCII-decimal field of a coefficient can be. -/
theorem decimalField_cases (c : Nat) (w : Byte) (sc e : BitVec 4) :
    (∃ f, f.length = w.toNat ∧ decimalField c w sc e = .ok f) ∨ decimalField c w sc e = .error .overflow := by
  unfold decimalField
  rcases encNum_cases (scaleTrunc c sc.toNat e.toNat) w.toNat with ⟨-, h⟩ | ⟨-, h⟩
  · exact .inl ⟨_, by simp, h⟩
  · exact .inr h

/-- R136: all that a packed-decimal field of a coefficient can be. -/
theorem packedField_cases (c : Nat) (w : Byte) (sc e : BitVec 4) :
    (∃ f, f.length = w.toNat ∧ packedField c w sc e = .ok f) ∨ packedField c w sc e = .error .overflow := by
  unfold packedField
  rcases encBcd_cases (scaleTrunc c sc.toNat e.toNat) w.toNat with ⟨-, h⟩ | ⟨-, h⟩
  · exact .inl ⟨_, by simp, h⟩
  · exact .inr h

/-- R135: all that an ASCII-decimal field of a digit string can be. -/
theorem decimalDigitsField_cases (arg : ByteString) (w : Byte) :
    (∃ f, f.length = w.toNat ∧ decimalDigitsField arg w = .ok f) ∨ ∃ e, decimalDigitsField arg w = .error e := by
  unfold decimalDigitsField
  rcases digitsVal_cases arg with ⟨-, h⟩ | ⟨i, -, -, -, h⟩
  · rcases encNum_cases (digitsNumber arg) w.toNat with ⟨-, h'⟩ | ⟨-, h'⟩
    · exact .inl ⟨digitString (digitsNumber arg) w.toNat, by simp, by rw [h]; exact h'⟩
    · exact .inr ⟨_, by rw [h]; exact h'⟩
  · exact .inr ⟨_, by rw [h]⟩

/-- R137: all that a packed-decimal field of a digit string can be. -/
theorem packedDigitsField_cases (arg : ByteString) (w : Byte) :
    (∃ f, f.length = w.toNat ∧ packedDigitsField arg w = .ok f) ∨ ∃ e, packedDigitsField arg w = .error e := by
  unfold packedDigitsField
  rcases digitsVal_cases arg with ⟨-, h⟩ | ⟨i, -, -, -, h⟩
  · rcases encBcd_cases (digitsNumber arg) w.toNat with ⟨-, h'⟩ | ⟨-, h'⟩
    · exact .inl ⟨packedString (digitsNumber arg) w.toNat, by simp, by rw [h]; exact h'⟩
    · exact .inr ⟨_, by rw [h]; exact h'⟩
  · exact .inr ⟨_, by rw [h]⟩

/-- R138: all that a raw field can be. -/
theorem rawField_cases (arg : ByteString) (w : Byte) :
    (arg.length = w.toNat ∧ rawField arg w = .ok arg) ∨ ∃ e, rawField arg w = .error e := by
  unfold rawField
  split
  · exact .inr ⟨_, rfl⟩
  · split
    · exact .inr ⟨_, rfl⟩
    · exact .inl ⟨by omega, rfl⟩

/-- R133: the common part of the `FENC.*`, where the field exists. -/
theorem State.storeField_ok (w : Byte) (f : ByteString) (s : State) (hw : s.res.mem.wf = true)
    (hf : f.length < 65536) : ∃ t, s.storeField w (.ok f) = t ∧ s.res.Holds t.res f ∧
      t = { s with res := t.res, completions := ⟨0#4, w.setWidth 64⟩ :: s.completions } :=
  ⟨_, rfl, Buffer.load_holds s.res f hw hf, rfl⟩

/-- R166: the common part of the `FPACK.*`, where the field exists and fits. -/
theorem State.packField_ok (w : Byte) (f : ByteString) (s : State) (hw : s.cmd.mem.wf = true)
    (hl : f.length = w.toNat) (h0 : s.cmd.len ≠ 0#16) (h1 : s.cmd.len.toNat + w.toNat ≤ s.params.cmdCap) :
    ∃ t, s.packField w (.ok f) = t ∧ s.cmd.Extends t.cmd f ∧
      t = { s with
        cmd := t.cmd
        completions := ⟨0#4, BitVec.ofNat 64 (s.cmd.len.toNat + w.toNat)⟩ :: s.completions } := by
  have hcap := s.cfg.capacities
  have hlt : s.cmd.len.toNat + f.length < 65536 := by unfold State.params at h1; omega
  refine ⟨_, rfl, ?_, ?_⟩ <;>
    simp only [State.packField, h0, if_false, if_neg (Nat.not_lt.2 h1), State.complete, Buffer.append_len]
  · exact Buffer.append_extends s.cmd f hw hlt
  · rw [datumOfHalf_half _ hlt, hl]

theorem State.packField_error (w : Byte) (e : CodecFault) (s : State) (h0 : s.cmd.len ≠ 0#16)
    (h1 : s.cmd.len.toNat + w.toNat ≤ s.params.cmdCap) : s.packField w (.error e) = s.raiseCodec e := by
  simp only [State.packField, h0, if_false, if_neg (Nat.not_lt.2 h1)]

theorem State.packField_noCommand (w : Byte) (r : Except CodecFault ByteString) (s : State) (h : s.cmd.len = 0#16) :
    s.packField w r = s.illegal .noCommand := by simp [State.packField, h]

theorem State.packField_capacity (w : Byte) (r : Except CodecFault ByteString) (s : State) (h0 : s.cmd.len ≠ 0#16)
    (h1 : s.params.cmdCap < s.cmd.len.toNat + w.toNat) : s.packField w r = s.illegal .capacity := by
  simp [State.packField, h0, h1]

/-- R139 to R141: the result steps of a decode. -/
theorem State.deliver_ok (v : FieldValue) (s : State) (hw : s.res.mem.wf = true) (hf : v.bytes.length < 65536) :
    Decodes s (s.deliver (.ok v)) v.bytes v.nv v.ns v.xd :=
  ⟨Buffer.load_holds s.res v.bytes hw hf, rfl⟩

theorem State.deliver_number (ds : ByteString) (sc : BitVec 4) (s : State) (hw : s.res.mem.wf = true)
    (hf : ds.length < 65536) : DecodesNumber s (s.deliver (.ok (numResult ds sc))) ds sc := by
  rw [numResult_eq]
  exact State.deliver_ok _ s hw hf

/-- R139: a field of the declared width is decoded. -/
theorem State.decodeArgument_eq (w : Byte) (dec : ByteString → Except CodecFault FieldValue) (s : State)
    (h : s.arg.len.toNat = w.toNat) : s.decodeArgument w dec = s.deliver (dec s.arg.content) := by
  simp [State.decodeArgument, h]

/-- R139, R303: a field of another length is not. -/
theorem State.decodeArgument_ne (w : Byte) (dec : ByteString → Except CodecFault FieldValue) (s : State)
    (h : s.arg.len.toNat ≠ w.toNat) :
    s.decodeArgument w dec = s.raiseCodec (.invalid (min s.arg.len.toNat w.toNat)) := by
  simp [State.decodeArgument, h]

@[simp] theorem State.payload_length (s : State) : s.payload.length = s.plen.toNat := by simp [State.payload]

/-- R173: the cut of the window. -/
theorem State.payloadField_eq (w : Byte) (s : State) (h : s.xs.toNat + w.toNat ≤ s.plen.toNat) :
    s.payloadField w = s.windowBytes s.fieldOffset w.toNat :=
  Memory.readBytes_drop_take _ _ _ _ _ h

theorem State.payloadField_length (w : Byte) (s : State) (h : s.xs.toNat + w.toNat ≤ s.plen.toNat) :
    (s.payloadField w).length = w.toNat := by
  rw [State.payloadField_eq w s h]; simp [State.windowBytes]

theorem State.unpackField_inside (w : Byte) (dec : ByteString → Except CodecFault FieldValue) (s : State)
    (h : s.xs.toNat + w.toNat ≤ s.plen.toNat) : s.unpackField w dec = s.deliver (dec (s.payloadField w)) := by
  rw [State.payloadField_eq w s h, State.unpackField, if_neg (by unfold State.fieldOffset; omega)]

theorem State.unpackField_outside (w : Byte) (dec : ByteString → Except CodecFault FieldValue) (s : State)
    (h : s.plen.toNat < s.xs.toNat + w.toNat) : s.unpackField w dec = s.illegal .outOfRange := by
  rw [State.unpackField, if_pos (by unfold State.fieldOffset; omega)]

/-- R260: the status check with its two outcomes. -/
theorem State.statusCheck_clean (st1 st2 : Byte) (k : State → State) (s : State)
    (h : StatusClean s.params st1 st2) : s.statusCheck st1 st2 k = k s := by
  simp [State.statusCheck, statusFault_clean _ _ _ h]

theorem State.statusCheck_raises (st1 st2 : Byte) (k : State → State) (s : State) (e : MaskEntry)
    (tbl : FaultTable) (h : StatusRaises s.params st1 st2 e tbl) (hf : s.flt.kind = .noFault) :
    s.statusCheck st1 st2 k = s.faulted .deviceFault e.sub (e.mask.setWidth 16) tbl := by
  simp [State.statusCheck, statusFault_raises _ _ _ _ _ h, State.raise_clear _ _ _ _ _ hf]

end Sys2Proof.Machine
end

