-- ==== Sys2Proof/Laws/Transport.lean ====
section
/-! SUPPORT. The laws of the transport loop (43_transport_loop.md R221 to R233): where `read_exact` ends and in which
state, for answers that deliver the reply, exhaust the budget or overrun it, and that one of the three always
happens. -/

namespace Sys2Proof.Machine

/-- R67: the answer of a poll, from the script or free. -/
theorem State.txAnswer_eq (s : State) (k : Nat) :
    s.txAnswer k = (s.txScript.head?).getD (Config.transportAnswer s.txLog k) := by
  unfold State.txAnswer; cases s.txScript <;> rfl

theorem Memory.writeBytes_append (m : Memory) (a : Nat) (x y : ByteString) :
    m.writeBytes a (x ++ y) = (m.writeBytes a x).writeBytes (a + x.length) y := by
  induction x generalizing m a with
  | nil => rfl
  | cons b x ih =>
    simp only [List.cons_append, Memory.writeBytes, ih, List.length_cons]
    congr 1; omega

@[simp] theorem Buffer.append_nil (b : Buffer) : b.append [] = b := by
  cases b; simp [Buffer.append, Memory.writeBytes]

/-- Appending two strings one after the other appends their concatenation. -/
theorem Buffer.append_append (b : Buffer) (x y : ByteString) (h : b.len.toNat + x.length < 65536) :
    (b.append x).append y = b.append (x ++ y) := by
  simp only [Buffer.append, Memory.writeBytes_append, half_toNat_of_lt _ h, List.length_append, Nat.add_assoc]

/-- Appending to an emptied buffer loads it. -/
@[simp] theorem Buffer.clear_append (b : Buffer) (x : ByteString) : b.clear.append x = b.load x := by
  simp [Buffer.append, Buffer.clear, Buffer.load]

@[simp] theorem emptyPolls_nil : emptyPolls [] = 0 := rfl

theorem emptyPolls_cons (c : ByteString) (cs : List ByteString) :
    emptyPolls (c :: cs) = (if c.length = 0 then 1 else 0) + emptyPolls cs := by
  cases c <;> simp [emptyPolls, Nat.add_comm]

theorem emptyPolls_append (a b : List ByteString) : emptyPolls (a ++ b) = emptyPolls a + emptyPolls b := by
  simp [emptyPolls]

/-- The state of a read after more answers: the bytes `got` appended, the polls counted and consumed. -/
def State.polled (chunks : List ByteString) (got : ByteString) (s : State) : State :=
  { s with
    rpl := s.rpl.append got
    retry := half (s.retry.toNat + emptyPolls chunks)
    txScript := s.txScript.drop chunks.length
    txLog := pollLog s.missing chunks s.txLog }

@[simp] theorem State.polled_nil (s : State) : s.polled [] [] = s := by
  cases s; simp [State.polled, pollLog]

/-- One poll, all that it can do (R222 lines 3 to 11). -/
theorem State.pollOnce_cases (s : State) (c : ByteString) (hc : s.txAnswer s.missing = c) :
    (c.length = 0 ∧ s.pollOnce = (s.polled [c] [],
      if s.params.retryCeiling ≤ (half (s.retry.toNat + 1)).toNat then some .timeout else none)) ∨
    (c.length ≠ 0 ∧ s.missing < c.length ∧ s.pollOnce = (s.polled [c] [], some (.overlong c.length))) ∨
    (c.length ≠ 0 ∧ c.length ≤ s.missing ∧ s.pollOnce = (s.polled [c] c, none)) := by
  unfold State.pollOnce State.polled
  simp only [hc, emptyPolls_cons, emptyPolls_nil, pollLog, Buffer.append_nil, State.txConsume, List.length_singleton,
    List.drop_one]
  split
  · rename_i h0; left; exact ⟨h0, by simp⟩
  · rename_i h0
    split
    · rename_i h1; right; left; exact ⟨h0, h1, by simp⟩
    · rename_i h1; right; right; exact ⟨h0, by omega, by simp⟩

@[simp] theorem State.polled_rplWant (c : List ByteString) (g : ByteString) (s : State) :
    (s.polled c g).rplWant = s.rplWant := rfl
@[simp] theorem State.polled_rpl (c : List ByteString) (g : ByteString) (s : State) :
    (s.polled c g).rpl = s.rpl.append g := rfl
@[simp] theorem State.polled_retry (c : List ByteString) (g : ByteString) (s : State) :
    (s.polled c g).retry = half (s.retry.toNat + emptyPolls c) := rfl
@[simp] theorem State.polled_cfg (c : List ByteString) (g : ByteString) (s : State) :
    (s.polled c g).cfg = s.cfg := rfl
@[simp] theorem State.polled_txScript (c : List ByteString) (g : ByteString) (s : State) :
    (s.polled c g).txScript = s.txScript.drop c.length := rfl
@[simp] theorem State.polled_txLog (c : List ByteString) (g : ByteString) (s : State) :
    (s.polled c g).txLog = pollLog s.missing c s.txLog := rfl

theorem State.missing_polled (s : State) (c : List ByteString) (g : ByteString)
    (h : s.rpl.len.toNat ≤ s.rplWant.toNat) (hg : g.length ≤ s.missing) :
    (s.polled c g).missing = s.missing - g.length ∧
      (s.polled c g).rpl.len.toNat = s.rpl.len.toNat + g.length := by
  have h2 := s.rplWant.isLt
  unfold State.missing at *
  simp only [State.polled_rplWant, State.polled_rpl, Buffer.append_len]
  rw [half_toNat_of_lt _ (by omega)]
  omega

theorem pollLog_append (a b : List ByteString) (k : Nat) (log : List TxEvent) :
    pollLog k (a ++ b) log = pollLog (k - a.flatten.length) b (pollLog k a log) := by
  induction a generalizing k log with
  | nil => rfl
  | cons c a ih =>
    simp only [List.cons_append, pollLog, ih, List.flatten_cons, List.length_append]
    congr 1; omega

theorem Answers_append (a b : List ByteString) (script : List ByteString) (log : List TxEvent) (k : Nat) :
    Answers script log k (a ++ b) ↔
      Answers script log k a ∧ Answers (script.drop a.length) (pollLog k a log) (k - a.flatten.length) b := by
  induction a generalizing script log k with
  | nil => simp [Answers, pollLog]
  | cons c a ih =>
    have hd : script.tail.drop a.length = script.drop (a.length + 1) := by
      rw [← List.drop_one, List.drop_drop, Nat.add_comm]
    simp only [List.cons_append, Answers, ih, pollLog, List.flatten_cons, List.length_append, List.length_cons, hd,
      and_assoc, Nat.sub_sub]

/-- Polls after polls. -/
theorem State.polled_append (s : State) (a b : List ByteString) (g : ByteString)
    (h : s.rpl.len.toNat ≤ s.rplWant.toNat) (ha : a.flatten.length ≤ s.missing)
    (hk : s.retry.toNat + emptyPolls a < 65536) :
    (s.polled a a.flatten).polled b g = s.polled (a ++ b) (a.flatten ++ g) := by
  have h2 := s.rplWant.isLt
  have hm := (State.missing_polled s a a.flatten h ha).1
  have hlen : s.rpl.len.toNat + a.flatten.length < 65536 := by unfold State.missing at ha; omega
  unfold State.polled at *
  simp only [State.mk.injEq, true_and, and_true]
  refine ⟨Buffer.append_append _ _ _ hlen, ?_, by rw [List.drop_drop, List.length_append], ?_⟩
  · rw [half_toNat_of_lt _ hk, emptyPolls_append]; congr 1; omega
  · rw [hm, pollLog_append]

/-- Answers without a byte, but for none at all, end with an empty one. -/
theorem getLast?_of_flatten_nil (chunks : List ByteString) (h : chunks ≠ []) (hf : chunks.flatten = []) :
    chunks.getLast? = some [] := by
  rw [List.getLast?_eq_some_getLast h]
  exact congrArg some (List.flatten_eq_nil_iff.1 hf _ (List.getLast_mem h))

theorem emptyPolls_concat_nil (pre : List ByteString) : emptyPolls (pre ++ [[]]) = emptyPolls pre + 1 := by
  rw [emptyPolls_append]; rfl

/-- What one empty poll leaves of the budget. -/
theorem State.retry_polled_empty (s : State) (c : ByteString) (h : c.length = 0)
    (hk : s.retry.toNat + 1 < 65536) : (s.polled [c] []).retry.toNat = s.retry.toNat + 1 := by
  simp only [State.polled_retry, emptyPolls_cons, emptyPolls_nil, h, if_true]
  rw [half_toNat_of_lt _ (by omega)]

theorem State.retry_polled_bytes (s : State) (c g : ByteString) (h : c.length ≠ 0) :
    (s.polled [c] g).retry = s.retry := by
  simp [State.polled_retry, emptyPolls_cons, h]

/-- Polls that neither complete the read nor end it: the loop goes on from where they leave it. -/
theorem State.readLoop_prefix (chunks : List ByteString) (fuel : Nat) (s : State)
    (hle : s.rpl.len.toNat ≤ s.rplWant.toNat) (ha : Answers s.txScript s.txLog s.missing chunks)
    (hn : chunks.flatten.length < s.missing) (hb : s.retry.toNat + emptyPolls chunks < s.params.retryCeiling) :
    s.readLoop (chunks.length + fuel) = (s.polled chunks chunks.flatten).readLoop fuel := by
  have hceil := s.cfg.ceiling.2
  induction chunks generalizing s with
  | nil => simp
  | cons c cs ih =>
    have hm : s.missing ≠ 0 := by omega
    obtain ⟨hc, ha⟩ := ha
    rw [← State.txAnswer_eq] at hc
    simp only [List.flatten_cons, List.length_append, emptyPolls_cons] at hn hb
    rw [List.length_cons, Nat.add_right_comm, State.readLoop, if_neg hm]
    have hk : s.retry.toNat + emptyPolls [c] < 65536 := by
      rw [emptyPolls_cons, emptyPolls_nil]; unfold State.params at *; omega
    rcases s.pollOnce_cases c hc with ⟨h0, he⟩ | ⟨-, h1, -⟩ | ⟨h0, h1, he⟩
    · have hc0 : c = [] := List.length_eq_zero_iff.1 h0
      subst hc0
      rw [if_pos h0] at hb
      have hr := s.retry_polled_empty [] h0 (by unfold State.params at *; omega)
      have hmm := s.missing_polled [[]] [] hle (by simp)
      rw [he, if_neg (by rw [half_toNat_of_lt _ (by unfold State.params at *; omega)]; omega)]
      simp only
      rw [ih (s.polled [[]] []) (by simpa using hle) (by rw [hmm.1]; simpa [pollLog] using ha)
        (by rw [hmm.1]; simpa using hn)
        (by rw [hr]; unfold State.params at *; simp only [State.polled_cfg]; omega) (by simpa using hceil)]
      exact congrArg _ (State.polled_append s [[]] cs cs.flatten hle (by simp) hk)
    · omega
    · rw [if_neg h0] at hb
      have hmm := s.missing_polled [c] c hle h1
      have hr := s.retry_polled_bytes c c h0
      rw [he]
      simp only
      rw [ih (s.polled [c] c)
        (by rw [hmm.2]; unfold State.missing at h1; simp only [State.polled_rplWant]; omega)
        (by rw [hmm.1]; simpa [pollLog] using ha) (by rw [hmm.1]; omega)
        (by rw [hr]; unfold State.params at *; simp only [State.polled_cfg]; omega) (by simpa using hceil)]
      have := State.polled_append s [c] cs cs.flatten hle (by simpa using h1) hk
      simp only [List.flatten_cons, List.flatten_nil, List.append_nil, List.singleton_append] at this ⊢
      rw [this]

/-- R221, R231: answers that deliver what is missing complete the read. -/
theorem State.readLoop_delivers (chunks : List ByteString) (fuel : Nat) (s : State)
    (hle : s.rpl.len.toNat ≤ s.rplWant.toNat) (ha : Answers s.txScript s.txLog s.missing chunks)
    (hn : chunks.flatten.length = s.missing) (hl : chunks.getLast? ≠ some [])
    (hb : s.retry.toNat + emptyPolls chunks < s.params.retryCeiling) (hf : chunks.length ≤ fuel) :
    s.readLoop fuel = (s.polled chunks chunks.flatten, .complete) := by
  have hceil := s.cfg.ceiling.2
  rcases List.eq_nil_or_concat chunks with rfl | ⟨pre, c, rfl⟩
  · cases fuel <;> simp [State.readLoop, ← hn]
  · rw [List.concat_eq_append] at *
    have hc0 : c.length ≠ 0 := fun h => hl (by simp [List.length_eq_zero_iff.1 h])
    rw [List.flatten_append, List.length_append, List.flatten_singleton] at hn
    rw [emptyPolls_append, emptyPolls_cons, if_neg hc0, emptyPolls_nil] at hb
    obtain ⟨hpre, hlast⟩ := (Answers_append _ _ _ _ _).1 ha
    have hmm := s.missing_polled pre pre.flatten hle (by omega)
    obtain ⟨fuel, rfl⟩ : ∃ k, fuel = pre.length + (k + 1) :=
      ⟨fuel - pre.length - 1, by simp at hf; omega⟩
    rw [State.readLoop_prefix pre _ s hle hpre (by omega) (by omega), State.readLoop, if_neg (by omega)]
    have hc : (s.polled pre pre.flatten).txAnswer (s.polled pre pre.flatten).missing = c := by
      rw [State.txAnswer_eq, hmm.1]; exact hlast.1
    have hfin := State.polled_append s pre [c] c hle (by omega) (by unfold State.params at *; omega)
    rcases (s.polled pre pre.flatten).pollOnce_cases c hc with ⟨h0, -⟩ | ⟨-, h1, -⟩ | ⟨-, -, he⟩
    · exact absurd h0 hc0
    · omega
    · rw [he]
      simp only
      rw [hfin, List.flatten_append, List.flatten_singleton]
      have hm0 : (s.polled (pre ++ [c]) (pre.flatten ++ c)).missing = 0 := by
        rw [(s.missing_polled (pre ++ [c]) (pre.flatten ++ c) hle (by rw [List.length_append]; omega)).1,
          List.length_append]; omega
      cases fuel <;> simp [State.readLoop, hm0]

/-- R224: the empty poll that exhausts the budget ends the read. -/
theorem State.readLoop_exhausts (pre : List ByteString) (fuel : Nat) (s : State)
    (hle : s.rpl.len.toNat ≤ s.rplWant.toNat) (ha : Answers s.txScript s.txLog s.missing (pre ++ [[]]))
    (hn : pre.flatten.length < s.missing) (hb : s.retry.toNat + emptyPolls pre + 1 = s.params.retryCeiling)
    (hf : pre.length < fuel) :
    s.readLoop fuel = (s.polled (pre ++ [[]]) pre.flatten, .timeout) := by
  have hceil := s.cfg.ceiling.2
  obtain ⟨hpre, hlast⟩ := (Answers_append _ _ _ _ _).1 ha
  have hmm := s.missing_polled pre pre.flatten hle (by omega)
  obtain ⟨fuel, rfl⟩ : ∃ k, fuel = pre.length + (k + 1) := ⟨fuel - pre.length - 1, by omega⟩
  rw [State.readLoop_prefix pre _ s hle hpre hn (by omega), State.readLoop, if_neg (by omega)]
  have hc : (s.polled pre pre.flatten).txAnswer (s.polled pre pre.flatten).missing = [] := by
    rw [State.txAnswer_eq, hmm.1]; exact hlast.1
  have hk : s.retry.toNat + emptyPolls pre < 65536 := by unfold State.params at *; omega
  have hfin := State.polled_append s pre [[]] [] hle (by omega) hk
  rcases (s.polled pre pre.flatten).pollOnce_cases [] hc with ⟨-, he⟩ | ⟨h0, -⟩ | ⟨h0, -⟩
  · rw [he, if_pos]
    · simp only
      rw [hfin, List.append_nil]
    · rw [State.polled_retry, half_toNat_of_lt _ hk, half_toNat_of_lt _ (by unfold State.params at *; omega)]
      unfold State.params at *; simp only [State.polled_cfg]; omega
  · exact absurd rfl h0
  · exact absurd rfl h0

/-- R225: an answer longer than what is missing ends the read; nothing of it is stored. -/
theorem State.readLoop_overruns (pre : List ByteString) (excess : ByteString) (fuel : Nat) (s : State)
    (hle : s.rpl.len.toNat ≤ s.rplWant.toNat) (ha : Answers s.txScript s.txLog s.missing (pre ++ [excess]))
    (hn : pre.flatten.length < s.missing) (hx : s.missing < pre.flatten.length + excess.length)
    (hb : s.retry.toNat + emptyPolls pre < s.params.retryCeiling) (hf : pre.length < fuel) :
    s.readLoop fuel = (s.polled (pre ++ [excess]) pre.flatten, .overlong excess.length) := by
  have hceil := s.cfg.ceiling.2
  obtain ⟨hpre, hlast⟩ := (Answers_append _ _ _ _ _).1 ha
  have hmm := s.missing_polled pre pre.flatten hle (by omega)
  obtain ⟨fuel, rfl⟩ : ∃ k, fuel = pre.length + (k + 1) := ⟨fuel - pre.length - 1, by omega⟩
  rw [State.readLoop_prefix pre _ s hle hpre hn (by omega), State.readLoop, if_neg (by omega)]
  have hc : (s.polled pre pre.flatten).txAnswer (s.polled pre pre.flatten).missing = excess := by
    rw [State.txAnswer_eq, hmm.1]; exact hlast.1
  have hfin := State.polled_append s pre [excess] [] hle (by omega) (by unfold State.params at *; omega)
  rcases (s.polled pre pre.flatten).pollOnce_cases excess hc with ⟨h0, -⟩ | ⟨-, -, he⟩ | ⟨-, h1, -⟩
  · omega
  · rw [he]
    simp only
    rw [hfin, List.append_nil]
  · omega

/-- R228: whatever the transport answers, some answers end the read, in one of the three ways, within the bound. -/
theorem State.answers_end (measure : Nat) (script : List ByteString) (log : List TxEvent) (missing budget : Nat)
    (hm : missing + budget ≤ measure) (hb : 1 ≤ budget) (h1 : 1 ≤ missing) :
    ∃ chunks, Answers script log missing chunks ∧ chunks.length ≤ missing + budget - 1 ∧
      ((chunks.flatten.length = missing ∧ chunks.getLast? ≠ some [] ∧ emptyPolls chunks < budget) ∨
        (∃ pre, chunks = pre ++ [[]] ∧ pre.flatten.length < missing ∧ emptyPolls pre + 1 = budget) ∨
        (∃ pre excess, chunks = pre ++ [excess] ∧ pre.flatten.length < missing ∧
          missing < pre.flatten.length + excess.length ∧ emptyPolls pre < budget)) := by
  induction measure generalizing script log missing budget with
  | zero => omega
  | succ measure ih =>
    obtain ⟨c, hc⟩ : ∃ c, (script.head?).getD (Config.transportAnswer log missing) = c := ⟨_, rfl⟩
    by_cases h0 : c.length = 0
    · have hc0 : c = [] := List.length_eq_zero_iff.1 h0
      subst hc0
      by_cases hlast : budget = 1
      · exact ⟨[[]], ⟨hc, trivial⟩, by simp; omega, .inr (.inl ⟨[], rfl, h1, by simp [hlast]⟩)⟩
      · obtain ⟨cs, ha, hl, hcases⟩ := ih script.tail (.read missing [] :: log) missing (budget - 1) (by omega)
          (by omega) h1
        refine ⟨[] :: cs, ⟨hc, ha⟩, by simp; omega, ?_⟩
        rcases hcases with ⟨hf, hg, he⟩ | ⟨pre, rfl, hf, he⟩ | ⟨pre, excess, rfl, hf, hx, he⟩
        · refine .inl ⟨by simpa using hf, ?_, by rw [emptyPolls_cons]; simp; omega⟩
          cases cs with
          | nil => simp at hf; omega
          | cons d ds => rw [List.getLast?_cons_cons]; exact hg
        · exact .inr (.inl ⟨[] :: pre, rfl, by simpa using hf, by rw [emptyPolls_cons]; simp; omega⟩)
        · exact .inr (.inr ⟨[] :: pre, excess, rfl, by simpa using hf, by simpa using hx, by
            rw [emptyPolls_cons]; simp; omega⟩)
    · by_cases hlong : missing < c.length
      · exact ⟨[c], ⟨hc, trivial⟩, by simp; omega, .inr (.inr ⟨[], c, rfl, h1, by simpa using hlong, by simp; omega⟩)⟩
      · by_cases hall : c.length = missing
        · exact ⟨[c], ⟨hc, trivial⟩, by simp; omega, .inl ⟨by simpa using hall, by simp; intro h; simp [h] at h0, by
            rw [emptyPolls_cons, if_neg h0]; simp; omega⟩⟩
        · obtain ⟨cs, ha, hl, hcases⟩ := ih script.tail (.read missing c :: log) (missing - c.length) budget
            (by omega) hb (by omega)
          refine ⟨c :: cs, ⟨hc, ha⟩, by simp; omega, ?_⟩
          rcases hcases with ⟨hf, hg, he⟩ | ⟨pre, rfl, hf, he⟩ | ⟨pre, excess, rfl, hf, hx, he⟩
          · refine .inl ⟨by rw [List.flatten_cons, List.length_append]; omega, ?_, by
              rw [emptyPolls_cons, if_neg h0]; omega⟩
            cases cs with
            | nil => simp at hf; omega
            | cons d ds => rw [List.getLast?_cons_cons]; exact hg
          · exact .inr (.inl ⟨c :: pre, rfl, by rw [List.flatten_cons, List.length_append]; omega, by
              rw [emptyPolls_cons, if_neg h0]; omega⟩)
          · exact .inr (.inr ⟨c :: pre, excess, rfl, by rw [List.flatten_cons, List.length_append]; omega,
              by rw [List.flatten_cons, List.length_append]; omega, by
              rw [emptyPolls_cons, if_neg h0]; omega⟩)

theorem length_le_of_chunks (chunks : List ByteString) :
    chunks.length ≤ emptyPolls chunks + chunks.flatten.length := by
  induction chunks with
  | nil => simp
  | cons c cs ih =>
    rw [emptyPolls_cons, List.flatten_cons, List.length_append, List.length_cons]
    split <;> omega

/-- The state after the polls of a `read_exact(n)` that began in `u` and received `got`; the phase is not changed. -/
def State.afterPolls (u : State) (n : Nat) (chunks : List ByteString) (got : ByteString) : State :=
  { u with
    rpl := u.rpl.load got
    rplWant := half n
    retry := half (emptyPolls chunks)
    txScript := u.txScript.drop chunks.length
    txLog := pollLog n chunks u.txLog }

theorem State.startRead_missing (u : State) (n : Nat) (h : n < 65536) : (u.startRead n).missing = n := by
  simp [State.missing, Nat.mod_eq_of_lt h]

theorem State.startRead_polled (u : State) (n : Nat) (h : n < 65536) (chunks : List ByteString) (got : ByteString) :
    (u.startRead n).polled chunks got = u.afterPolls n chunks got := by
  have hm := u.startRead_missing n h
  unfold State.polled State.afterPolls
  rw [hm]
  simp [State.startRead]

/-- R221, R231: answers that deliver the reply. -/
theorem State.readExact_delivers (u : State) (n : Nat) (hn : n < 65536) (chunks : List ByteString)
    (reply : ByteString) (ha : Answers u.txScript u.txLog n chunks)
    (hd : Delivers u.params.retryCeiling n chunks reply) :
    u.readExact n = (u.afterPolls n chunks reply, .complete) := by
  have hm := u.startRead_missing n hn
  have hlen := length_le_of_chunks chunks
  have hfl : chunks.flatten.length = n := by rw [hd.joined, hd.total]
  have hb := hd.budget
  unfold State.readExact
  rw [State.readLoop_delivers chunks _ (u.startRead n) (by simp) (by rw [hm]; exact ha) (by rw [hm]; exact hfl)
    hd.ends (by simpa [State.params] using hd.budget) (by omega), State.startRead_polled u n hn, hd.joined]

/-- R224: answers that exhaust the budget. -/
theorem State.readExact_exhausts (u : State) (n : Nat) (hn : n < 65536) (chunks : List ByteString)
    (got : ByteString) (ha : Answers u.txScript u.txLog n chunks)
    (hd : Exhausts u.params.retryCeiling n chunks got) :
    u.readExact n = (u.afterPolls n chunks got, .timeout) := by
  have hm := u.startRead_missing n hn
  obtain ⟨pre, rfl⟩ := List.getLast?_eq_some_iff.1 hd.ends
  have hj : pre.flatten = got := by simpa using hd.joined
  have hlen := length_le_of_chunks pre
  have hb := hd.budget
  rw [emptyPolls_concat_nil] at hb
  have hp := hd.partly
  rw [← hj] at hp
  unfold State.readExact
  rw [State.readLoop_exhausts pre _ (u.startRead n) (by simp) (by rw [hm]; exact ha) (by rw [hm]; exact hp)
    (by simpa [State.params, Nat.add_assoc] using hb) (by omega), State.startRead_polled u n hn, hj]

/-- R225: an answer longer than what is missing. -/
theorem State.readExact_overruns (u : State) (n : Nat) (hn : n < 65536) (chunks : List ByteString)
    (got excess : ByteString) (ha : Answers u.txScript u.txLog n (chunks ++ [excess]))
    (hd : Overruns u.params.retryCeiling n chunks got excess) :
    u.readExact n = (u.afterPolls n (chunks ++ [excess]) got, .overlong excess.length) := by
  have hm := u.startRead_missing n hn
  have hlen := length_le_of_chunks chunks
  have hb := hd.budget
  have hp := hd.partly
  have hx := hd.long
  rw [← hd.joined] at hp hx
  unfold State.readExact
  rw [State.readLoop_overruns chunks excess _ (u.startRead n) (by simp) (by rw [hm]; exact ha)
    (by rw [hm]; exact hp) (by rw [hm]; exact hx) (by simpa [State.params] using hb) (by omega),
    State.startRead_polled u n hn, hd.joined]

/-- R221, R228: all that `read_exact(n)` can do: one of the three ends, after boundedly many polls. -/
theorem State.readExact_cases (u : State) (n : Nat) (hn : n < 65536) :
    ∃ chunks, Answers u.txScript u.txLog n chunks ∧
      (n = 0 → chunks = []) ∧ (1 ≤ n → chunks.length ≤ n + u.params.retryCeiling - 1) ∧
      ((∃ reply, Delivers u.params.retryCeiling n chunks reply ∧
          u.readExact n = (u.afterPolls n chunks reply, .complete)) ∨
        (∃ got, Exhausts u.params.retryCeiling n chunks got ∧
          u.readExact n = (u.afterPolls n chunks got, .timeout)) ∨
        (∃ pre got excess, chunks = pre ++ [excess] ∧ Overruns u.params.retryCeiling n pre got excess ∧
          u.readExact n = (u.afterPolls n chunks got, .overlong excess.length))) := by
  have hceil := u.cfg.ceiling
  rcases Nat.eq_zero_or_pos n with rfl | h1
  · have hd : Delivers u.params.retryCeiling 0 [] [] := ⟨rfl, rfl, by simp, by unfold State.params; simp; omega⟩
    exact ⟨[], trivial, fun _ => rfl, by omega,
      .inl ⟨[], hd, State.readExact_delivers u 0 (by omega) [] [] trivial hd⟩⟩
  · obtain ⟨chunks, ha, hl, hc⟩ := State.answers_end _ u.txScript u.txLog n u.params.retryCeiling le_rfl hceil.1 h1
    refine ⟨chunks, ha, by omega, fun _ => hl, ?_⟩
    rcases hc with ⟨hf, hg, he⟩ | ⟨pre, rfl, hf, he⟩ | ⟨pre, excess, rfl, hf, hx, he⟩
    · have hd : Delivers u.params.retryCeiling n chunks chunks.flatten := ⟨rfl, hf, hg, he⟩
      exact .inl ⟨_, hd, State.readExact_delivers u n hn chunks _ ha hd⟩
    · have hd : Exhausts u.params.retryCeiling n (pre ++ [[]]) pre.flatten :=
        ⟨by simp, hf, by simp, by rw [emptyPolls_concat_nil]; exact he⟩
      exact .inr (.inl ⟨_, hd, State.readExact_exhausts u n hn _ _ ha hd⟩)
    · have hd : Overruns u.params.retryCeiling n pre pre.flatten excess := ⟨rfl, hf, hx, he⟩
      exact .inr (.inr ⟨pre, _, excess, rfl, hd, State.readExact_overruns u n hn _ _ _ ha hd⟩)

end Sys2Proof.Machine
end

