-- ==== Sys2Proof/Laws/Io.lean ====
section
/-! SUPPORT. The operations with I/O over the three ends of their read (42_frame_builder_checksum.md R202, R207;
43_transport_loop.md R230; 44_register_table.md R243), in the terms the statements use. -/

namespace Sys2Proof.Machine

/-- R202, R207 lines 2 to 4, up to the read: the state the read of a send begins in. -/
theorem State.sendPacket_poll (s : State) : s.sendPacket.enterPhase .poll = s.sent.enterPhase .poll := by
  simp only [State.sendPacket, State.sent, State.withoutReply, State.invalidateReply, State.enterPhase, State.txWrite,
    FlagBits.invalidated, packet_eq]
  rfl

theorem State.invalidateReply_poll (s : State) :
    s.invalidateReply.enterPhase .poll = s.withoutReply.enterPhase .poll := rfl

theorem State.beginRegisterRead_eq (s : State) (id : Byte) : s.beginRegisterRead id = s.withRegisterCommand id := rfl

/-- R202: the bytes a standard reply is split into. -/
theorem latchReply_eq (u : State) (n : Half) (chunks : List ByteString) (ack st1 st2 : Byte) (pay : ByteString)
    (hw : u.rpl.mem.wf = true) (hl : (ack :: pay ++ [st1, st2]).length = n.toNat + 3) :
    State.latchReply n.toNat (u.afterPolls (n.toNat + 3) chunks (ack :: pay ++ [st1, st2])) =
      ((u.received (n.toNat + 3) chunks (u.rpl.load (ack :: pay ++ [st1, st2]))).latched ack st1 st2
        n.toNat).enterPhase .check := by
  have hp : pay.length = n.toNat := by simp at hl; omega
  have h0 : (ack :: pay ++ [st1, st2])[0]? = some ack := rfl
  have h1 : (ack :: pay ++ [st1, st2])[n.toNat + 1]? = some st1 := by
    rw [List.cons_append, List.getElem?_cons_succ, List.getElem?_append_right (by omega)]; simp [hp]
  have h2 : (ack :: pay ++ [st1, st2])[n.toNat + 2]? = some st2 := by
    rw [List.cons_append, List.getElem?_cons_succ, List.getElem?_append_right (by omega)]; simp [hp]
  have r0 := Buffer.load_read _ u.rpl hw 0 _ h0
  have r1 := Buffer.load_read _ u.rpl hw _ _ h1
  have r2 := Buffer.load_read _ u.rpl hw _ _ h2
  unfold State.latchReply State.afterPolls State.received State.latched State.enterPhase
  simp only [standardLength, ackW, trailerW, (by omega : n.toNat + 1 + 2 - 2 = n.toNat + 1),
    (by omega : n.toNat + 1 + 2 - 1 = n.toNat + 2), r0, r1, r2, FlagBits.latched, couponOpen_eq]

/-- R202 line 8, R206: the check lets the reply pass. -/
theorem State.checkReply_passes (k : State → State) (r : State)
    (h : r.cmdId = r.params.rdregId ∨ StatusClean r.params r.stat.st1 r.stat.st2) : r.checkReply k = k r := by
  unfold State.checkReply
  split
  · rfl
  · exact State.statusCheck_clean _ _ _ _ (h.resolve_left ‹_›)

/-- R202 line 8, R260: the check raises the fault of the first matching entry. -/
theorem State.checkReply_raises (k : State → State) (r : State) (e : MaskEntry) (tbl : FaultTable)
    (h : r.cmdId ≠ r.params.rdregId) (he : StatusRaises r.params r.stat.st1 r.stat.st2 e tbl)
    (hf : r.flt.kind = .noFault) :
    r.checkReply k = r.faulted .deviceFault e.sub (e.mask.setWidth 16) tbl := by
  rw [State.checkReply, if_neg h]
  exact State.statusCheck_raises _ _ _ _ e tbl he hf

/-- What an operation with I/O does after its read has completed (R202 lines 5 to 9, R207 and R230 lines 5 and 6, R243
lines 5 to 7). -/
def ioFinish (p : Params) : Instr → State → State
  | .cmdSend n, r => (r.latchReply n.toNat).checkReply (State.finishSend n.toNat)
  | .cmdSendr n, r => r.finishRaw n.toNat
  | .xpRead n, r => r.finishRaw n.toNat
  | .regRead id, r =>
    match lookupRegister p id with
    | none => r
    | some e => (r.latchReply e.width.toNat).checkReply (State.deliverRegister e)
  | _, r => r

/-- R10: the bytes a read may want fit 16 bits. -/
theorem State.beforeRead_length (s u : State) (i : Instr) (n : Nat) (h : s.beforeRead i = some (u, n)) :
    n ≤ s.params.rplCap ∧ n < 65536 := by
  have hcap := s.cfg.capacities
  unfold State.beforeRead State.params at *
  split at h
  · split at h
    · simp at h
    · simp at h; obtain ⟨-, rfl⟩ := h; omega
  · split at h
    · simp at h
    · simp at h; obtain ⟨-, rfl⟩ := h; omega
  · split at h
    · simp at h
    · simp at h; obtain ⟨-, rfl⟩ := h; omega
  · split at h
    · simp at h
    · rename_i e he
      simp at h; obtain ⟨-, rfl⟩ := h
      have := e.width.isLt
      omega
  · simp at h

/-- What the state a read begins in keeps. -/
theorem State.beforeRead_frame (s u : State) (i : Instr) (n : Nat) (h : s.beforeRead i = some (u, n)) :
    u.cfg = s.cfg ∧ u.rpl = s.rpl ∧ u.res = s.res ∧ u.arg = s.arg ∧ u.completions = s.completions ∧
      u.flt = s.flt ∧ u.txScript = s.txScript ∧ u.seq = s.seq ∧ u.hostIn = s.hostIn ∧ u.xs = s.xs ∧
      u.flags = { s.flags with stv := false, coupon := false, sc := false } ∧ u.pbase = 0#16 ∧ u.plen = 0#16 ∧
      u.stat = s.stat := by
  unfold State.beforeRead at h
  split at h <;> (first | (split at h) | skip) <;> simp at h <;> obtain ⟨rfl, -⟩ := h <;>
    exact ⟨rfl, rfl, rfl, rfl, rfl, rfl, rfl, rfl, rfl, rfl, rfl, rfl, rfl, rfl⟩

/-- An operation with I/O whose checks pass is its read, and then its finish. -/
theorem exec_beforeRead (s u : State) (i : Instr) (n : Nat) (hf : s.flt.kind = .noFault)
    (h : s.beforeRead i = some (u, n)) :
    exec i s = .next (afterRead (ioFinish s.params i) ((u.enterPhase .poll).readExact n)) := by
  have hcap := s.cfg.capacities
  unfold State.beforeRead at h
  split at h
  · split at h
    · simp at h
    · rename_i m hc
      simp only [Option.some.injEq, Prod.mk.injEq] at h
      obtain ⟨rfl, rfl⟩ := h
      rw [not_or] at hc
      show execCmdSend m s = _
      have h3 : standardLength m.toNat = m.toNat + 3 := rfl
      rw [execCmdSend, State.ordinary_clear _ _ hf, State.sendChecked, if_neg hc.1, h3, if_neg hc.2, State.exchange,
        State.sendPacket_poll, h3]
      rfl
  · split at h
    · simp at h
    · rename_i m hc
      simp only [Option.some.injEq, Prod.mk.injEq] at h
      obtain ⟨rfl, rfl⟩ := h
      rw [not_or] at hc
      show execCmdSendr m s = _
      rw [execCmdSendr, State.ordinary_clear _ _ hf, State.sendChecked, if_neg hc.1, if_neg hc.2, State.exchangeRaw,
        State.sendPacket_poll]
      rfl
  · split at h
    · simp at h
    · rename_i m hc
      simp only [Option.some.injEq, Prod.mk.injEq] at h
      obtain ⟨rfl, rfl⟩ := h
      show execXpRead m s = _
      rw [execXpRead, State.ordinary_clear _ _ hf, if_neg hc, State.readOnly, State.invalidateReply_poll]
      rfl
  · split at h
    · simp at h
    · rename_i id _ e he
      simp only [Option.some.injEq, Prod.mk.injEq] at h
      obtain ⟨rfl, rfl⟩ := h
      have hl : lookupRegister s.params id = some e := he
      have hw : ¬ s.params.rplCap < standardLength e.width.toNat := by
        have := e.width.isLt
        unfold standardLength ackW trailerW State.params; omega
      have h3 : standardLength e.width.toNat = e.width.toNat + 3 := rfl
      show execRegRead id s = _
      rw [execRegRead, State.ordinary_clear _ _ hf]
      simp only [hl]
      rw [if_neg hw, State.exchange, State.sendPacket_poll, h3, State.beginRegisterRead_eq]
      unfold ioFinish
      simp only [hl]
  · simp at h

/-- R222 to R225, R310: all that an operation with I/O can do once its checks have passed. -/
theorem exec_io_cases (s u : State) (i : Instr) (n : Nat) (hf : s.flt.kind = .noFault)
    (h : s.beforeRead i = some (u, n)) :
    ∃ chunks, Answers u.txScript u.txLog n chunks ∧
      (n = 0 → chunks = []) ∧ (1 ≤ n → chunks.length ≤ n + s.params.retryCeiling - 1) ∧
      ((∃ reply, Delivers s.params.retryCeiling n chunks reply ∧
          exec i s = .next (ioFinish s.params i ((u.enterPhase .poll).afterPolls n chunks reply))) ∨
        (∃ got, Exhausts s.params.retryCeiling n chunks got ∧
          exec i s = .next ((u.received n chunks (u.rpl.load got)).faulted
            .communicationTimeout 0#8 (half got.length) .noTable)) ∨
        (∃ pre got excess, chunks = pre ++ [excess] ∧ Overruns s.params.retryCeiling n pre got excess ∧
          exec i s = .next ((u.received n chunks (u.rpl.load got)).faulted
            .protocolViolation 0#8 (half excess.length) .noTable))) := by
  have hn := (s.beforeRead_length u i n h).2
  obtain ⟨hcfg, -, -, -, -, hflt, -⟩ := s.beforeRead_frame u i n h
  have hp : (u.enterPhase .poll).params = s.params := by unfold State.params State.enterPhase; rw [hcfg]
  obtain ⟨chunks, ha, h0, h1, hc⟩ := (u.enterPhase .poll).readExact_cases n hn
  rw [hp] at h1 hc
  refine ⟨chunks, ha, h0, h1, ?_⟩
  rw [exec_beforeRead s u i n hf h]
  rcases hc with ⟨reply, hd, he⟩ | ⟨got, hd, he⟩ | ⟨pre, got, excess, hpre, hd, he⟩
  · exact .inl ⟨reply, hd, by rw [he]; rfl⟩
  · refine .inr (.inl ⟨got, hd, ?_⟩)
    rw [he]
    simp only [afterRead]
    rw [State.raise_clear _ _ _ _ _ (by show u.flt.kind = _; rw [hflt, hf])]
    rfl
  · refine .inr (.inr ⟨pre, got, excess, hpre, hd, ?_⟩)
    rw [he]
    simp only [afterRead]
    rw [State.raise_clear _ _ _ _ _ (by show u.flt.kind = _; rw [hflt, hf])]
    rfl

end Sys2Proof.Machine
end

