-- ==== Sys2Proof/Laws/Sound.lean ====
section
/-! SUPPORT. What keeps a buffer and the fault latch sound (10_state.md R27, R34, R43): the operations over a buffer keep
the invariant "No operation can make a length exceed its capacity", and each raise leaves a sound latch. -/

namespace Sys2Proof.Machine

theorem Buffer.Sound.of_empty (cap : Nat) : Buffer.empty.Sound cap := ⟨rfl, rfl, Nat.zero_le _⟩

/-- R14, R161: clearing. -/
theorem Buffer.Sound.of_clear {cap : Nat} {b : Buffer} (h : b.Sound cap) : b.clear.Sound cap :=
  ⟨h.canonical, h.inside, Nat.zero_le _⟩

/-- R14, R27: loading a string that fits. -/
theorem Buffer.Sound.of_load {cap : Nat} {b : Buffer} (h : b.Sound cap) (f : ByteString) (hf : f.length ≤ cap)
    (hc : cap < 65536) : (b.load f).Sound cap where
  canonical := Memory.wf_writeBytes _ _ _ h.canonical
  inside := Memory.within_writeBytes _ _ _ _ h.inside (by simpa using hf)
  length := by rw [Buffer.load_len, half_toNat_of_lt _ (by omega)]; exact hf

/-- R27, R178 (a): appending a string that fits. -/
theorem Buffer.Sound.of_append {cap : Nat} {b : Buffer} (h : b.Sound cap) (f : ByteString)
    (hf : b.len.toNat + f.length ≤ cap) (hc : cap < 65536) : (b.append f).Sound cap where
  canonical := Memory.wf_writeBytes _ _ _ h.canonical
  inside := Memory.within_writeBytes _ _ _ _ h.inside hf
  length := by rw [Buffer.append_len, half_toNat_of_lt _ (by omega)]; exact hf

/-- The empty latch. -/
theorem FaultLatch.Sound.of_clear : FaultLatch.clear.Sound := ⟨fun _ => rfl, fun _ => ⟨rfl, rfl⟩, nofun⟩

/-- R305: a fault other than `DeviceFault` names no table. -/
theorem FaultLatch.Sound.of_plain (k : FaultKind) (det : Half) (h : k ≠ .noFault) (hd : k ≠ .deviceFault) :
    FaultLatch.Sound ⟨k, 0#8, det, .noTable⟩ := ⟨fun e => absurd e h, fun _ => ⟨rfl, rfl⟩, fun e => absurd e hd⟩

/-- R305: a `DeviceFault` names its table. -/
theorem FaultLatch.Sound.of_device (sub : Byte) (det : Half) (tbl : FaultTable) (h : tbl ≠ .noTable) :
    FaultLatch.Sound ⟨.deviceFault, sub, det, tbl⟩ := ⟨nofun, fun e => absurd rfl e, fun _ => h⟩

end Sys2Proof.Machine
end

