-- ==== Sys2Proof/Tests/Slice0.lean ====
section
/-! SUPPORT. The author's own tests: the checks of WellFormed and Config refuse ill-formed terms, every operation is
decoded from a word written out from the spec's encoding, each operation has one or two steps with values of
95_test_vectors.md, and every statement with hypotheses has a state that meets them. -/

namespace Sys2Proof.Tests

open Sys2Proof.Machine

/-! ## States and helpers -/

/-- The fixture `FX` of 95_test_vectors.md section 0. -/
def fx : Configuration := ⟨{ toOpenParams := Config.fixture }, by decide⟩

/-- The reset state with `FX`. -/
def idle : State := State.resetWith fx

/-- The state after one transaction. -/
def after (cw : CommandWord) (xs : Datum) (s : State) : State :=
  match step { s with hostIn := [⟨cw, xs⟩] } with
  | .next t => t
  | .fault _ => s
  | .refused _ => s

def withArg (b : ByteString) (s : State) : State := { s with arg := s.arg.load b }

def withRes (b : ByteString) (s : State) : State := { s with res := s.res.load b }

def withCmd (b : ByteString) (s : State) : State := { s with cmd := s.cmd.load b, cmdId := 0x3E#24 }

def withScript (c : List ByteString) (s : State) : State := { s with txScript := c }

/-- A state with a standard reply of payload `pay` latched: ack 06, st1 02, st2 00. -/
def withReply (pay : ByteString) (s : State) : State :=
  { s with
    rpl := s.rpl.load (0x06#8 :: pay ++ [0x02#8, 0x00#8])
    rplWant := half (pay.length + 3)
    pbase := 1#16
    plen := half pay.length
    stat := ⟨0x02#8, 0x00#8, 0x06#8⟩
    flags := { s.flags with stv := true, coupon := true, sc := decide (pay.length = 1) } }

/-- A state with a fault latched. -/
def latched : State := { idle with flt := ⟨.fieldOverflow, 0#8, 0#16, .noTable⟩ }

/-- A state with a command begun (`CMD = 0A`, as in the vectors V120 to V131). -/
def begun : State := { idle with cmd := idle.cmd.load [0x0A#8], cmdId := 0x0A#24 }

def present (cw : CommandWord) (s : State) : State := { s with hostIn := [⟨cw, 0#64⟩] }

/-! ## The checks refuse ill-formed terms -/

/-- The illegal words of 95_test_vectors.md section 8, reason 2: one for each format and each clause of R98. -/
def malformedWords : List CommandWord :=
  [0x20050010, 0x20050020, 0x20051000, 0x20050100, 0x20050008, 0x20051038, 0x20050138, 0x21050130, 0x21050038,
   0x23030058, 0x20050080, 0x20050070, 0x20050040, 0x20050031, 0x00000001, 0x01000001, 0x03010000, 0x13010000,
   0x38000001, 0x10000001, 0x50000001, 0x33000002, 0x22050080, 0x31000100, 0x40000100]

/-- The illegal words of 95_test_vectors.md section 8, reason 1. -/
def unassignedWords : List CommandWord :=
  [0xFF000000, 0x34000000, 0x39000000, 0x42000000, 0x52000000, 0x15000000, 0x24000000, 0x04000000, 0x7F000000]

theorem test_malformed_words_refused :
    malformedWords.all (fun cw => !wordLegal cw && opcodeAssigned cw) = true := by decide

theorem test_malformed_words_decode :
    malformedWords.all (fun cw => decode cw == .illegal .malformedWord) = true := by decide

theorem test_unassigned_words_refused :
    unassignedWords.all (fun cw => !wordLegal cw && !opcodeAssigned cw) = true := by decide

theorem test_unassigned_words_decode :
    unassignedWords.all (fun cw => decode cw == .illegal .unassignedOpcode) = true := by decide

/-- R98: `TXT` with `A = 1`, `NUM` with `A = 0`, and a reserved encoding. -/
theorem test_alignment_refused :
    FieldSpec.alignmentLegal ⟨5, 0, 0, 0, true, false, 0⟩ = false ∧
      FieldSpec.alignmentLegal ⟨5, 0, 0, 1, false, false, 0⟩ = false ∧
      FieldSpec.alignmentLegal ⟨5, 0, 0, 4, false, false, 0⟩ = false := by decide

/-- R98: a scale on a text field. -/
theorem test_scale_refused : FieldSpec.scaleLegal ⟨5, 1, 0, 0, false, false, 0⟩ = false := by decide

/-- R98: an exponent in a decode, on a text field, and in digit mode. -/
theorem test_exponent_refused :
    FieldSpec.exponentLegal false ⟨5, 0, 1, 1, true, false, 0⟩ = false ∧
      FieldSpec.exponentLegal true ⟨5, 0, 1, 0, false, false, 0⟩ = false ∧
      FieldSpec.exponentLegal true ⟨5, 0, 1, 1, true, true, 0⟩ = false := by decide

/-- R98: digit mode in a decode, on a text field, and with a scale. -/
theorem test_digit_mode_refused :
    FieldSpec.digitModeLegal false ⟨5, 0, 0, 1, true, true, 0⟩ = false ∧
      FieldSpec.digitModeLegal true ⟨5, 0, 0, 0, false, true, 0⟩ = false ∧
      FieldSpec.digitModeLegal true ⟨5, 1, 0, 1, true, true, 0⟩ = false := by decide

/-- R97: the must-be-0 bits. -/
theorem test_low_bits_refused : FieldSpec.legal true ⟨5, 0, 0, 1, true, false, 1⟩ = false := by decide

/-- R10: each constraint on the OPEN parameters refuses a value that breaks it. -/
theorem test_open_parameters_refused :
    OpenParams.legal { Config.fixture with retryCeiling := 0 } = false ∧
      OpenParams.legal { Config.fixture with retryCeiling := 65536 } = false ∧
      OpenParams.legal { Config.fixture with regTable := [⟨6, 3, true⟩, ⟨6, 1, false⟩] } = false ∧
      OpenParams.legal { Config.fixture with regTable := [⟨6, 0, true⟩] } = false ∧
      OpenParams.legal { Config.fixture with st1Table := [⟨0x40, 1⟩] } = false ∧
      OpenParams.legal { Config.fixture with st1Table := [] } = false ∧
      OpenParams.legal { Config.fixture with st1Table := [⟨0x80, 1⟩, ⟨0x04, 3⟩, ⟨0x20, 2⟩] } = false ∧
      OpenParams.legal { Config.fixture with st1Table := [⟨0x80, 1⟩, ⟨0x02, 3⟩] } = false ∧
      OpenParams.legal { Config.fixture with st1Table := [⟨0x80, 1⟩, ⟨0x00, 3⟩] } = false ∧
      OpenParams.legal { Config.fixture with st2Table := [⟨0x20, 5⟩, ⟨0x40, 6⟩] } = false ∧
      OpenParams.legal { Config.fixture with st2Table := [⟨0x00, 5⟩] } = false ∧
      OpenParams.legal { Config.fixture with st3Table := [⟨1, 4⟩, ⟨1, 5⟩] } = false ∧
      OpenParams.legal { Config.fixture with st3Table := [⟨0, 4⟩] } = false := by decide

/-- R10: each bound on a capacity refuses the value past it. -/
theorem test_capacities_refused :
    Params.legal { toOpenParams := Config.fixture, argCap := 254 } = false ∧
      Params.legal { toOpenParams := Config.fixture, argCap := 65536 } = false ∧
      Params.legal { toOpenParams := Config.fixture, cmdCap := 3 } = false ∧
      Params.legal { toOpenParams := Config.fixture, cmdCap := 65534 } = false ∧
      Params.legal { toOpenParams := Config.fixture, rplCap := 257 } = false ∧
      Params.legal { toOpenParams := Config.fixture, rplCap := 65536 } = false ∧
      Params.legal { toOpenParams := Config.fixture, resCap := 509 } = false ∧
      Params.legal { toOpenParams := Config.fixture, resCap := 65536 } = false := by decide

/-- R60: a memory whose indices do not rise, and one that lists an unlisted byte's value, are not canonical. -/
theorem test_memory_refused :
    Memory.wf [(1, 5#8), (0, 6#8)] = false ∧ Memory.wf [(1, 5#8), (1, 6#8)] = false ∧
      Memory.wf [(1, 0#8)] = false ∧ Memory.within 2 [(2, 5#8)] = false := by decide

/-! ## Every operation from its word (30_encoding.md R91 to R101) -/

theorem test_decode_system :
    decode 0x00000000#32 = .legal .nop ∧ decode 0x01000000#32 = .legal .fack ∧
      decode 0x02000000#32 = .legal .srst ∧ decode 0x030000A5#32 = .legal (.srRd 0xA5#8) := by decide

theorem test_decode_buffers :
    decode 0x10000000#32 = .legal .argClr ∧ decode 0x1100008E#32 = .legal (.argPush 0x8E#8) ∧
      decode 0x12000000#32 = .legal .argRes ∧ decode 0x1300A5C3#32 = .legal (.resRd 0xA5C3#16) ∧
      decode 0x1400C3A5#32 = .legal (.payRd 0xC3A5#16) := by decide

theorem test_decode_fenc :
    decode 0x20850000#32 = .legal (.fencTxt 0x85#8) ∧ decode 0x200B3430#32 = .legal (.fencNum 11#8 3#4 4#4) ∧
      decode 0x20850038#32 = .legal (.fencNumd 0x85#8) ∧ decode 0x20072150#32 = .legal (.fencBcd 7#8 2#4 1#4) ∧
      decode 0x20850058#32 = .legal (.fencBcdd 0x85#8) ∧ decode 0x20850060#32 = .legal (.fencRaw 0x85#8) := by decide

theorem test_decode_fdec :
    decode 0x21850000#32 = .legal (.fdecTxt 0x85#8) ∧ decode 0x210B3030#32 = .legal (.fdecNum 11#8 3#4) ∧
      decode 0x210A2050#32 = .legal (.fdecBcd 10#8 2#4) ∧ decode 0x21850060#32 = .legal (.fdecRaw 0x85#8) := by decide

theorem test_decode_fpack :
    decode 0x22850000#32 = .legal (.fpackTxt 0x85#8) ∧ decode 0x220B3430#32 = .legal (.fpackNum 11#8 3#4 4#4) ∧
      decode 0x22850038#32 = .legal (.fpackNumd 0x85#8) ∧ decode 0x22072150#32 = .legal (.fpackBcd 7#8 2#4 1#4) ∧
      decode 0x22850058#32 = .legal (.fpackBcdd 0x85#8) ∧ decode 0x22850060#32 = .legal (.fpackRaw 0x85#8) := by decide

theorem test_decode_funpk :
    decode 0x23850000#32 = .legal (.funpkTxt 0x85#8) ∧ decode 0x230B3030#32 = .legal (.funpkNum 11#8 3#4) ∧
      decode 0x230A2050#32 = .legal (.funpkBcd 10#8 2#4) ∧ decode 0x23850060#32 = .legal (.funpkRaw 0x85#8) := by decide

theorem test_decode_frame :
    decode 0x30A5C37E#32 = .legal (.cmdBegin 0xA5C37E#24) ∧ decode 0x3100008E#32 = .legal (.cmdPush 0x8E#8) ∧
      decode 0x32000000#32 = .legal .csum ∧ decode 0x33A5C300#32 = .legal (.cmdSend 0xA5C3#16) ∧
      decode 0x33A5C301#32 = .legal (.cmdSendr 0xA5C3#16) ∧ decode 0x38C3A500#32 = .legal (.xpRead 0xC3A5#16) := by
  decide

theorem test_decode_tables :
    decode 0x400000A5#32 = .legal (.regLookup 0xA5#8) ∧ decode 0x410000C3#32 = .legal (.regRead 0xC3#8) ∧
      decode 0x50000000#32 = .legal .stDecode ∧ decode 0x51000000#32 = .legal .st3Decode := by decide

/-- The word a table row of two operand bytes gives, and a word the decoder refuses. -/
theorem test_decodeTableWord :
    decodeTableWord 32 0x200B3330 = some (.fencNum 11#8 3#4 3#4) ∧ decodeTableWord 32 0x7F000000 = none := by decide

/-! ## One step of each operation (95_test_vectors.md) -/

/-- V210, V212. -/
theorem test_nop :
    (after 0x00000000 0 idle).completions = [⟨0, 0⟩] ∧ (after 0x00000000 0 latched).completions = [⟨2, 0⟩] := by decide

/-- V216: the latch of V211 handed over and cleared. -/
theorem test_fack :
    (after 0x01000000 0 (after 0x00000001 0 idle)).completions = [⟨0, 0x00020007⟩, ⟨7, 0⟩] ∧
      (after 0x01000000 0 (after 0x00000001 0 idle)).flt = .clear := by decide

/-- V219. -/
theorem test_srst :
    (after 0x02000000 0 latched).flt = .clear ∧ (after 0x02000000 0 (withReply [5] idle)).plen = 0 := by decide

/-- 95_test_vectors.md section 8: number 0x14 at reset, and P3 step 5. -/
theorem test_srRd :
    (after 0x03000014 0 idle).completions = [⟨0, 1024⟩] ∧
      (after 0x03000002 0 { idle with stat := ⟨0xA0, 0, 6⟩ }).completions = [⟨0, 0x0600A0⟩] := by decide

/-- 95_test_vectors.md section 8: a reserved number. -/
theorem test_srRd_reserved : (after 0x0300000D 0 idle).flt = ⟨.illegalOp, 0, 6, .noTable⟩ := by decide

/-- V77. -/
theorem test_argClr : (after 0x10000000 0 (withArg [0x41] idle)).arg.len = 0 := by decide

/-- V71. -/
theorem test_argPush : (after 0x11000042 0 (withArg [0x41] idle)).arg.content = [0x41, 0x42] := by decide

/-- V79. -/
theorem test_argPush_full :
    (after 0x11000000 0 { idle with arg := ⟨[], 256⟩ }).flt = ⟨.illegalOp, 0, 5, .noTable⟩ := by decide

/-- V76. -/
theorem test_argRes :
    (after 0x12000000 0 (withRes [0x41, 0x42, 0x20, 0x20] idle)).arg.content = [0x41, 0x42, 0x20, 0x20] := by decide

/-- V74, V75. -/
theorem test_resRd :
    (after 0x13000003 0 (withRes [0x41, 0x42, 0x20, 0x20] idle)).completions = [⟨0, 0x20⟩] ∧
      (after 0x13000004 0 (withRes [0x41, 0x42, 0x20, 0x20] idle)).flt = ⟨.illegalOp, 0, 3, .noTable⟩ := by decide

/-- P2 step 15, V78. -/
theorem test_payRd :
    (after 0x14000002 0 (withReply [0x30, 0x30, 0x34, 0x32] idle)).completions = [⟨0, 0x34⟩] ∧
      (after 0x14000000 0 idle).flt = ⟨.illegalOp, 0, 3, .noTable⟩ := by decide

/-- V1, V2. -/
theorem test_fencTxt :
    (after 0x20050000 0 (withArg [0x41, 0x42] idle)).res.content = [0x41, 0x42, 0x20, 0x20, 0x20] ∧
      (after 0x20030000 0 (withArg [0x41, 0x42, 0x43, 0x44] idle)).res.content = [0x41, 0x42, 0x43] := by decide

/-- V9. -/
theorem test_fencNum : (after 0x20042330 12995 idle).res.content = [0x31, 0x32, 0x39, 0x39] := by decide

/-- V15: the product is exact. -/
theorem test_fencNum_exact :
    (after 0x2014F030 0xFFFFFFFFFFFFFFFF idle).flt = ⟨.fieldOverflow, 0, 0, .noTable⟩ := by decide

/-- V27 and the priority of 95_test_vectors.md section 8. -/
theorem test_fencNumd :
    (after 0x20050038 0 (withArg [0x31, 0x32, 0x61] idle)).flt = ⟨.invalidEncoding, 0, 2, .noTable⟩ ∧
      (after 0x20030038 0 (withArg [] idle)).res.content = [0x30, 0x30, 0x30] := by decide

/-- V20, V21. -/
theorem test_fencBcd :
    (after 0x20022050 12 idle).res.content = [0x12, 0x00] ∧
      (after 0x20022050 100 idle).flt = ⟨.fieldOverflow, 0, 0, .noTable⟩ := by decide

/-- V30. -/
theorem test_fencBcdd :
    (after 0x20030058 0 (withArg [0x31, 0x32, 0x33, 0x34, 0x35] idle)).res.content = [0x01, 0x23, 0x45] := by decide

/-- V35, V37. -/
theorem test_fencRaw :
    (after 0x20020060 0 (withArg [1, 2] idle)).res.content = [1, 2] ∧
      (after 0x20020060 0 (withArg [1] idle)).flt = ⟨.invalidEncoding, 0, 1, .noTable⟩ := by decide

/-- V57 with `W = 3`, V59. -/
theorem test_fdecTxt :
    (after 0x21030000 0 (withArg [0x41, 0x42, 0x20] idle)).res.content = [0x41, 0x42, 0x20] ∧
      (after 0x21050000 0 (withArg [0x41, 0x42] idle)).flt = ⟨.invalidEncoding, 0, 2, .noTable⟩ := by decide

/-- V41. -/
theorem test_fdecNum :
    (after 0x21052030 0 (withArg [0x31, 0x32, 0x33, 0x34, 0x35] idle)).completions = [⟨0, 12345⟩] ∧
      (after 0x21052030 0 (withArg [0x31, 0x32, 0x33, 0x34, 0x35] idle)).flags.word = 0x204 := by decide

/-- V50, V53. -/
theorem test_fdecBcd :
    (after 0x21032050 0 (withArg [0x00, 0x12, 0x34] idle)).completions = [⟨0, 1234⟩] ∧
      (after 0x21020050 0 (withArg [0xA0, 0x1A] idle)).flt = ⟨.invalidEncoding, 0, 0, .noTable⟩ := by decide

/-- V58 with `W = 2`. -/
theorem test_fdecRaw : (after 0x21020060 0 (withArg [0x41, 0x20] idle)).completions = [⟨0, 2⟩] := by decide

/-- V82, V80. -/
theorem test_fpackTxt :
    (after 0x22050000 0 (withArg [0x41, 0x42] (withCmd [0x3E] idle))).cmd.content =
        [0x3E, 0x41, 0x42, 0x20, 0x20, 0x20] ∧
      (after 0x22030000 0 idle).flt = ⟨.illegalOp, 0, 4, .noTable⟩ := by decide

/-- V83 with `W = 4`; V86. -/
theorem test_fpackNum :
    (after 0x22042330 12995 (withCmd [0x3E] idle)).cmd.content = [0x3E, 0x31, 0x32, 0x39, 0x39] ∧
      (after 0x22020030 100 (withCmd [0x3E] idle)).flt = ⟨.fieldOverflow, 0, 0, .noTable⟩ := by decide

/-- The priority of 95_test_vectors.md section 8: the digits are scanned before the magnitude. -/
theorem test_fpackNumd :
    (after 0x22020038 0 (withArg [0x31, 0x78, 0x33, 0x34, 0x35] (withCmd [0x3E] idle))).flt =
      ⟨.invalidEncoding, 0, 1, .noTable⟩ := by decide

/-- V84. -/
theorem test_fpackBcd :
    (after 0x22030050 1234 (withCmd [0x3E] idle)).cmd.content = [0x3E, 0x00, 0x12, 0x34] := by decide

/-- V30's digits, packed (R171). -/
theorem test_fpackBcdd :
    (after 0x22030058 0 (withArg [0x31, 0x32, 0x33, 0x34, 0x35] (withCmd [0x3E] idle))).cmd.content =
      [0x3E, 0x01, 0x23, 0x45] := by decide

/-- V36's field, packed (R172), and V88's capacity. -/
theorem test_fpackRaw :
    (after 0x22020060 0 (withArg [1, 2, 3] (withCmd [0x3E] idle))).flt = ⟨.fieldOverflow, 0, 0, .noTable⟩ ∧
      (after 0x22010060 0 (withArg [1] { idle with cmd := ⟨[], 256⟩ })).flt = ⟨.illegalOp, 0, 5, .noTable⟩ := by decide

/-- V95, with the reply of P2. -/
theorem test_funpkTxt : (after 0x23000000 4 (withReply [0x30, 0x30, 0x34, 0x32] idle)).completions = [⟨0, 0⟩] := by
  decide

/-- P2 step 12, V96. -/
theorem test_funpkNum :
    (after 0x23040030 0 (withReply [0x30, 0x30, 0x34, 0x32] idle)).completions = [⟨0, 42⟩] ∧
      (after 0x23020030 1 (withReply [0x30, 0x00, 0x50] idle)).flt = ⟨.invalidEncoding, 0, 0, .noTable⟩ := by decide

/-- V91; V94: the sum `XS + W` passes the window. -/
theorem test_funpkBcd :
    (after 0x23032050 3 (withReply [0x00, 0x12, 0x34, 0x00, 0x00, 0x50] idle)).completions = [⟨0, 50⟩] ∧
      (after 0x23032050 4 (withReply [0x00, 0x12, 0x34, 0x00, 0x00, 0x50] idle)).flt =
        ⟨.illegalOp, 0, 3, .noTable⟩ := by decide

/-- V93. -/
theorem test_funpkRaw :
    (after 0x23020060 4 (withReply [0x00, 0x12, 0x34, 0x00, 0x00, 0x50] idle)).res.content = [0x00, 0x50] := by decide

/-- V104. -/
theorem test_cmdBegin :
    (after 0x30001234 0 idle).cmd.content = [0x12, 0x34] ∧ (after 0x30001234 0 idle).completions = [⟨0, 2⟩] := by decide

/-- V85 with a one-byte command; V81. -/
theorem test_cmdPush :
    (after 0x310000FF 0 (withCmd [0x3E] idle)).cmd.content = [0x3E, 0xFF] ∧
      (after 0x31000055 0 idle).flt = ⟨.illegalOp, 0, 4, .noTable⟩ := by decide

/-- V107. -/
theorem test_csum : (after 0x32000000 0 (withCmd [0x12, 0x34, 0x56] idle)).completions = [⟨0, 0x0005009C⟩] := by decide

/-- V122: the packet, the scalar result, the flags. -/
theorem test_cmdSend :
    (after 0x33000100 0 (withScript [[0x06, 0x37, 0x00, 0x00]] begun)).completions = [⟨0, 0x37⟩] ∧
      packetsWritten (after 0x33000100 0 (withScript [[0x06, 0x37, 0x00, 0x00]] begun)).txLog =
        [[0x02, 0x03, 0x00, 0x0A, 0x0A, 0x00]] := by decide

/-- V125: st1 wins over st2. -/
theorem test_cmdSend_fault :
    (after 0x33000200 0 (withScript [[0x06, 0x37, 0x38, 0x24, 0x41]] begun)).flt =
      ⟨.deviceFault, 2, 0x20, .st1Table⟩ := by decide

/-- V130. -/
theorem test_cmdSendr :
    (after 0x33000201 0 (withScript [[0x80, 0x80]] begun)).completions = [⟨0, 2⟩] ∧
      (after 0x33000201 0 (withScript [[0x80, 0x80]] begun)).pbase = 0 := by decide

/-- V144, V145. -/
theorem test_xpRead :
    (after 0x38000400 0 (withScript [[], [0x41, 0x42], [], [0x43, 0x44]] idle)).rpl.content =
        [0x41, 0x42, 0x43, 0x44] ∧
      (after 0x38000400 0 (withScript [[0x41], [], [0x42], [], [0x43], [], [0x44]] idle)).flt =
        ⟨.communicationTimeout, 0, 3, .noTable⟩ := by decide

/-- V147. -/
theorem test_xpRead_overlong :
    (after 0x38000400 0 (withScript [[0x41, 0x42], [0x43, 0x44, 0x45]] idle)).flt =
      ⟨.protocolViolation, 0, 3, .noTable⟩ := by decide

/-- V160, V164. -/
theorem test_regLookup :
    (after 0x40000006 0 idle).completions = [⟨0, 0x103⟩] ∧
      (after 0x40000063 0 idle).flt = ⟨.unsupportedRegister, 0, 99, .noTable⟩ := by decide

/-- V165. -/
theorem test_regRead :
    (after 0x41000006 0 (withScript [[0x06, 0x00, 0x12, 0x34, 0x00, 0x00]] idle)).completions = [⟨0, 1234⟩] ∧
      packetsWritten (after 0x41000006 0 (withScript [[0x06, 0x00, 0x12, 0x34, 0x00, 0x00]] idle)).txLog =
        [[0x02, 0x04, 0x00, 0x23, 0x06, 0x29, 0x00]] := by decide

/-- V171. -/
theorem test_regRead_bad_digit :
    (after 0x41000006 0 (withScript [[0x06, 0x00, 0x1A, 0x34, 0x00, 0x00]] idle)).flt =
      ⟨.invalidEncoding, 0, 1, .noTable⟩ := by decide

/-- V181, V194. -/
theorem test_stDecode :
    (after 0x50000000 0x0002 idle).completions = [⟨0, 1⟩] ∧
      (after 0x50000000 0x0142 idle).flt = ⟨.deviceFault, 4, 0x01, .st2Table⟩ := by decide

/-- V204, V205. -/
theorem test_st3Decode :
    (after 0x51000000 0x10007 idle).flt = ⟨.deviceFault, 8, 7, .st3Table⟩ ∧
      (after 0x51000000 0x0107 idle).completions = [⟨0, 0⟩] := by decide

/-- V211, V218: illegal words. -/
theorem test_illegal_words :
    (after 0x00000001 0 idle).flt = ⟨.illegalOp, 0, 2, .noTable⟩ ∧
      (after 0x04000000 0 idle).flt = ⟨.illegalOp, 0, 1, .noTable⟩ := by decide

/-- The first step after reset runs the word placed where the host's next transaction is taken (entry 1). -/
theorem test_withFetchWord :
    step (State.reset.withFetchWord 32 0x11000041) =
      exec (.argPush 0x41#8) { State.reset with hostIn := [] } := rfl

/-! ## States and operands that meet the hypotheses of the statements, clause by clause -/

/-- The reply of P2 latched, with its window in use. -/
def replied : State := withReply [0x30, 0x30, 0x34, 0x32] idle

/-- A state with the reply `06 00 12 34 00 00` to come, in pieces and with an empty poll. -/
def answered : State := withScript [[0x06], [], [0x00, 0x12, 0x34], [0x00, 0x00]] idle

theorem idle_sound : idle.Sound where
  idle := by decide
  arg := ⟨by decide, by decide, by decide⟩
  cmd := ⟨by decide, by decide, by decide⟩
  rpl := ⟨by decide, by decide, by decide⟩
  res := ⟨by decide, by decide, by decide⟩
  window := by decide
  received := by decide
  wanted := by decide
  budget := by decide
  latch := ⟨by decide, by decide, by decide⟩
  invalid := by decide
  latched := fun h => absurd h (by decide)

/-- The invariant in a state with a reply latched, and in one with a fault latched. -/
theorem replied_sound : replied.Sound where
  idle := by decide
  arg := ⟨by decide, by decide, by decide⟩
  cmd := ⟨by decide, by decide, by decide⟩
  rpl := ⟨by decide, by decide, by decide⟩
  res := ⟨by decide, by decide, by decide⟩
  window := by decide
  received := by decide
  wanted := by decide
  budget := by decide
  latch := ⟨by decide, by decide, by decide⟩
  invalid := by decide
  latched := fun _ => ⟨by decide, by decide, by decide, by decide, by decide, by decide, by decide⟩

/-- The words of both reasons, and the must-be-0 bits of format F. -/
theorem witness_IllegalWordsRaise :
    wordLegal 0x20050031 = false ∧ wordLegal 0x04000000 = false ∧ (present 0x20050031 idle).seq = .idle ∧
      (present 0x20050031 idle).hostIn = ⟨0x20050031, 0⟩ :: [] ∧ idle.flt.kind = .noFault := by decide

theorem witness_FieldCombinationsAreTheRows :
    opcodeOf 0x20050038 = 0x20#8 ∧ opcodeOf 0x22050038 = 0x22#8 ∧ opcodeOf 0x21050030 = 0x21#8 ∧
      opcodeOf 0x23050030 = 0x23#8 := by decide

theorem witness_StepRunsDecoded :
    idle.seq = .idle ∧ (present 0x12000000 idle).hostIn = ⟨0x12000000, 0⟩ :: [] ∧
      decode 0x12000000 = .legal .argRes := by decide

theorem witness_StepHoldsOrIsBusy :
    idle.seq = .idle ∧ idle.hostIn = [] ∧ ({ idle with seq := .poll } : State).seq ≠ .idle := by decide

theorem witness_RefusedWhileLatched :
    latched.seq = .idle ∧ (present 0x7F000000 latched).hostIn = ⟨0x7F000000, 0⟩ :: [] ∧
      latched.flt.kind ≠ .noFault ∧
      (opcodeOf 0x7F000000 ≠ 0x01#8 ∧ opcodeOf 0x7F000000 ≠ 0x02#8 ∧ opcodeOf 0x7F000000 ≠ 0x03#8) ∧
      decode 0x01000000 = .legal .fack := by decide

theorem witness_FirstFaultWins_other :
    (0x11000041#32 ≠ encode .fack ∧ 0x11000041#32 ≠ encode .srst ∧ latched.flt.kind ≠ .noFault) ∧
      ∃ u, step (present 0x11000041 latched) = .next u := ⟨by decide, _, rfl⟩

theorem witness_FirstFaultWins_illegal :
    (opcodeOf 0x01000001 = 0x01#8 ∧ wordLegal 0x01000001 = false) ∧
      ∃ u, step (present 0x01000001 latched) = .next u := ⟨by decide, _, rfl⟩

theorem witness_FirstFaultWins_reserved :
    (0x0300000D#32 = encode (.srRd 0x0D#8) ∧ 0x0D#8 ∉ (present 0x0300000D latched).registerValues.map Prod.fst) ∧
      ∃ u, step (present 0x0300000D latched) = .next u := ⟨by decide, _, rfl⟩

theorem witness_SoundIsKept : replied.Sound ∧ ∃ t, step replied = .next t := ⟨replied_sound, _, rfl⟩

theorem witness_OneCompletionPerTransaction :
    idle.seq = .idle ∧ (present 0x00000000 idle).hostIn = ⟨0x00000000, 0⟩ :: [] := by decide

theorem witness_RunsNeverStop : idle.Sound := idle_sound

/-- A completing operation and a raising one. -/
theorem witness_CompletionMatchesLatch :
    idle.flt.kind = .noFault ∧ (∃ t, exec .nop idle = .next t ∧ t.flt.kind = .noFault) ∧
      ∃ t, exec (.cmdPush 0x55#8) idle = .next t ∧ t.flt.kind ≠ .noFault :=
  ⟨by decide, ⟨_, rfl, by decide⟩, ⟨_, rfl, by decide⟩⟩

/-- Without I/O, and the two faults of operations with I/O that precede it. -/
theorem witness_FaultsArePrecise :
    (touchesTransport (.cmdPush 0x55#8) = false ∧ ∃ t, exec (.cmdPush 0x55#8) idle = .next t ∧
      t.flt.kind ≠ .noFault) ∧
      (∃ t, exec (.cmdSend 0#16) idle = .next t ∧ t.flt.kind = .illegalOp) ∧
      ∃ t, exec (.regRead 99#8) idle = .next t ∧ t.flt.kind = .unsupportedRegister :=
  ⟨⟨by decide, _, rfl, by decide⟩, ⟨_, rfl, by decide⟩, ⟨_, rfl, by decide⟩⟩

/-- A reason of the operation's own, and a fault of its list. -/
theorem witness_RaisesOnlyItsFaults :
    (∃ t, exec (.resRd 0#16) idle = .next t ∧ t.flt.kind ≠ .noFault) ∧
      ∃ t, exec (.regLookup 99#8) idle = .next t ∧ t.flt.kind ≠ .noFault :=
  ⟨⟨_, rfl, by decide⟩, ⟨_, rfl, by decide⟩⟩

theorem witness_SpacesWritten :
    (∃ t, exec .csum idle = .next t) ∧ Instr.csum ≠ .srst ∧ writesArgument .csum = false ∧
      writesCommand .csum = false ∧ writesResult .csum = false ∧ touchesTransport .csum = false ∧
      sendsPacket (.xpRead 4#16) = false :=
  ⟨⟨_, rfl⟩, by decide, by decide, by decide, by decide, by decide, by decide⟩

theorem witness_NopChangesNothing : idle.flt.kind = .noFault ∧ latched.flt.kind ≠ .noFault := by decide

/-- The last numbers of both ranges of R41, and a reserved number, with and without a fault latched. -/
theorem witness_SrRdReads :
    idle.seq = .idle ∧ latched.seq = .idle ∧ (0x0C#8, 0) ∈ idle.registerValues ∧ (0x1A#8, 2) ∈ idle.registerValues ∧
      0x0D#8 ∉ idle.registerValues.map Prod.fst ∧ idle.flt.kind = .noFault ∧
      0x1B#8 ∉ latched.registerValues.map Prod.fst ∧ latched.flt.kind ≠ .noFault := by decide

theorem witness_ArgClrEmpties : (withArg [0x41] idle).flt.kind = .noFault := by decide

/-- The last byte that fits, and the first that does not. -/
theorem witness_ArgPushAppends :
    idle.flt.kind = .noFault ∧ Memory.wf [] = true ∧
      (({ idle with arg := ⟨[], 255#16⟩ } : State).arg.len.toNat < idle.params.argCap ∧
        ({ idle with arg := ⟨[], 256#16⟩ } : State).arg.len.toNat = idle.params.argCap) := by decide

theorem witness_ArgResCopies :
    idle.flt.kind = .noFault ∧ idle.arg.mem.wf = true ∧
      ({ idle with res := ⟨[], 256#16⟩ } : State).res.len.toNat ≤ idle.params.argCap ∧
      idle.params.argCap < ({ idle with res := ⟨[], 257#16⟩ } : State).res.len.toNat := by decide

/-- The last index and the one past it. -/
theorem witness_ResRdReads :
    (withRes [0x41, 0x42] idle).flt.kind = .noFault ∧ (1#16).toNat < (withRes [0x41, 0x42] idle).res.len.toNat ∧
      (withRes [0x41, 0x42] idle).res.len.toNat ≤ (2#16).toNat := by decide

theorem witness_PayRdReads :
    replied.flt.kind = .noFault ∧ (3#16).toNat < replied.plen.toNat ∧ replied.plen.toNat ≤ (4#16).toNat := by decide

theorem witness_FencTxtStores :
    (withArg [0x41] idle).flt.kind = .noFault ∧ (withArg [0x41] idle).res.mem.wf = true := by decide

/-- The greatest value that fits `W = 5`, and the least that does not (V11, V12). -/
theorem witness_FencNumStores :
    idle.flt.kind = .noFault ∧ idle.res.mem.wf = true ∧
      ({ idle with xs := 99999 } : State).scaledOperand 0#4 0#4 < 10 ^ (5#8).toNat ∧
      10 ^ (5#8).toNat ≤ ({ idle with xs := 100000 } : State).scaledOperand 0#4 0#4 := by decide

theorem witness_FencBcdStores :
    idle.flt.kind = .noFault ∧ idle.res.mem.wf = true ∧
      ({ idle with xs := 999999 } : State).scaledOperand 0#4 0#4 < 10 ^ (2 * (3#8).toNat) ∧
      10 ^ (2 * (3#8).toNat) ≤ ({ idle with xs := 1000000 } : State).scaledOperand 0#4 0#4 := by decide

/-- The digit characters `0` and `9`, and the bytes next to them. -/
theorem witness_digit_clauses :
    (∀ b ∈ (withArg [0x30, 0x39] idle).arg.content, AsciiDigit b) ∧
      decimalValue (withArg [0x30, 0x39] idle).arg.content < 10 ^ (1#8).toNat ∧
      10 ^ (0#8).toNat ≤ decimalValue (withArg [0x30, 0x39] idle).arg.content ∧
      FirstBad AsciiDigit [0x30, 0x3A, 0x2F] 1 :=
  ⟨by decide, by decide, by decide, ⟨_, rfl, by decide⟩, fun j b hj hb => by
    obtain rfl : j = 0 := by omega
    cases hb
    decide⟩

theorem witness_FencNumdStores :
    (withArg [0x30, 0x39] idle).flt.kind = .noFault ∧ (withArg [0x30, 0x39] idle).res.mem.wf = true ∧
      (withArg [0x30, 0x3A, 0x2F] idle).arg.content = [0x30, 0x3A, 0x2F] := by decide

theorem witness_FencBcddStores :
    (withArg [0x39, 0x39] idle).flt.kind = .noFault ∧ (withArg [0x39, 0x39] idle).res.mem.wf = true ∧
      decimalValue (withArg [0x39, 0x39] idle).arg.content < 10 ^ (2 * (1#8).toNat) ∧
      10 ^ (2 * (1#8).toNat) ≤ decimalValue (withArg [0x31, 0x30, 0x30] idle).arg.content := by decide

/-- The width, one less and one more (V35 to V37). -/
theorem witness_FencRawStores :
    (withArg [1, 2] idle).flt.kind = .noFault ∧ (withArg [1, 2] idle).res.mem.wf = true ∧
      (withArg [1, 2] idle).arg.len.toNat = (2#8).toNat ∧ (1#8).toNat < (withArg [1, 2] idle).arg.len.toNat ∧
      (withArg [1, 2] idle).arg.len.toNat < (3#8).toNat := by decide

theorem witness_FdecVerbatim :
    (withArg [1, 2] idle).flt.kind = .noFault ∧ (withArg [1, 2] idle).res.mem.wf = true ∧
      (withArg [1, 2] idle).arg.len.toNat = (2#8).toNat ∧ (withArg [1, 2] idle).arg.len.toNat ≠ (3#8).toNat := by
  decide

theorem witness_FdecNumDecodes :
    (withArg [0x30, 0x39] idle).flt.kind = .noFault ∧ (withArg [0x30, 0x39] idle).res.mem.wf = true ∧
      (withArg [0x30, 0x39] idle).arg.len.toNat = (2#8).toNat ∧
      (∀ b ∈ (withArg [0x30, 0x39] idle).arg.content, AsciiDigit b) ∧
      (withArg [0x30, 0x3A, 0x2F] idle).arg.len.toNat = (3#8).toNat := by decide

/-- The packed bytes 00 and 99, and the bytes next to them. -/
theorem witness_FdecBcdDecodes :
    ((withArg [0x00, 0x99] idle).flt.kind = .noFault ∧ (withArg [0x00, 0x99] idle).res.mem.wf = true ∧
      (withArg [0x00, 0x99] idle).arg.len.toNat = (2#8).toNat ∧
      ∀ b ∈ (withArg [0x00, 0x99] idle).arg.content, BcdByte b) ∧
      FirstBad BcdByte (withArg [0x99, 0x9A, 0xA9] idle).arg.content 1 :=
  ⟨by decide, ⟨_, rfl, by decide⟩, fun j b hj hb => by
    obtain rfl : j = 0 := by omega
    have hb : some (0x99#8) = some b := hb
    cases hb
    decide⟩

/-- The last width that fits `CMD` and the first that does not; no command; the operands at their bounds. -/
theorem witness_packs :
    begun.flt.kind = .noFault ∧ begun.cmd.mem.wf = true ∧ begun.cmd.len ≠ 0#16 ∧
      begun.cmd.len.toNat + (255#8).toNat ≤ begun.params.cmdCap ∧
      begun.params.cmdCap < ({ begun with cmd := ⟨[], 2#16⟩ } : State).cmd.len.toNat + (255#8).toNat ∧
      idle.cmd.len = 0#16 := by decide

theorem witness_FpackBytesAppends : (withArg [1, 2] begun).arg.len.toNat = (2#8).toNat := by decide

theorem witness_FpackNumbersAppend :
    ({ begun with xs := 99 } : State).scaledOperand 0#4 0#4 < 10 ^ (2#8).toNat ∧
      ({ begun with xs := 9999 } : State).scaledOperand 0#4 0#4 < 10 ^ (2 * (2#8).toNat) := by decide

theorem witness_FpackDigitsAppend :
    (∀ b ∈ (withArg [0x39, 0x39] begun).arg.content, AsciiDigit b) ∧
      decimalValue (withArg [0x39, 0x39] begun).arg.content < 10 ^ (2#8).toNat ∧
      decimalValue (withArg [0x39, 0x39] begun).arg.content < 10 ^ (2 * (1#8).toNat) := by decide

theorem witness_FpackTraps :
    10 ^ (2#8).toNat ≤ ({ begun with xs := 100 } : State).scaledOperand 0#4 0#4 ∧
      10 ^ (2 * (1#8).toNat) ≤ ({ begun with xs := 100 } : State).scaledOperand 0#4 0#4 ∧
      10 ^ (1#8).toNat ≤ decimalValue (withArg [0x31, 0x30] begun).arg.content ∧
      10 ^ (2 * (1#8).toNat) ≤ decimalValue (withArg [0x31, 0x30, 0x30] begun).arg.content ∧
      (1#8).toNat < (withArg [1, 2] begun).arg.len.toNat ∧ (withArg [1, 2] begun).arg.len.toNat < (3#8).toNat := by
  decide

/-- The last field inside the window, and the first past it. -/
theorem witness_FunpkVerbatim :
    replied.flt.kind = .noFault ∧ replied.res.mem.wf = true ∧
      ({ replied with xs := 2 } : State).xs.toNat + (2#8).toNat ≤ replied.plen.toNat ∧
      replied.plen.toNat < ({ replied with xs := 3 } : State).xs.toNat + (2#8).toNat := by decide

theorem witness_FunpkNumDecodes :
    (∀ b ∈ ({ replied with xs := 2 } : State).payloadField 2#8, AsciiDigit b) ∧
      FirstBad AsciiDigit ((withReply [0x3A, 0x30] idle).payloadField 2#8) 0 :=
  ⟨by decide, ⟨_, rfl, by decide⟩, fun j b hj _ => absurd hj (by omega)⟩

theorem witness_FunpkBcdDecodes :
    (∀ b ∈ ({ replied with xs := 2 } : State).payloadField 2#8, BcdByte b) ∧
      FirstBad BcdByte ((withReply [0x9A, 0x30] idle).payloadField 2#8) 0 :=
  ⟨by decide, ⟨_, rfl, by decide⟩, fun j b hj _ => absurd hj (by omega)⟩

theorem witness_CmdBeginStarts : idle.flt.kind = .noFault ∧ idle.cmd.mem.wf = true := by decide

/-- The last byte that fits `CMD`, no command, and a full one. -/
theorem witness_CmdPushAppends :
    (begun.flt.kind = .noFault ∧ begun.cmd.mem.wf = true ∧ begun.cmd.len ≠ 0#16) ∧
      ({ begun with cmd := ⟨[], 255#16⟩ } : State).cmd.len.toNat < begun.params.cmdCap ∧ idle.cmd.len = 0#16 ∧
      ({ begun with cmd := ⟨[], 256#16⟩ } : State).cmd.len.toNat = begun.params.cmdCap := by decide

theorem witness_CsumSums : begun.flt.kind = .noFault ∧ begun.cmd.len.toNat ≤ begun.params.cmdCap := by decide

/-- V123 in two pieces; a clean status, the read-register command, and a status that raises. -/
theorem witness_CmdSendRuns :
    let s := withScript [[0x06, 0x37], [0x38, 0x00, 0x00]] begun
    (s.flt.kind = .noFault ∧ s.rpl.mem.wf = true ∧ s.cmd.len ≠ 0#16 ∧ (2#16).toNat + 3 ≤ s.params.rplCap) ∧
      Answers s.txScript s.sent.txLog ((2#16).toNat + 3) [[0x06, 0x37], [0x38, 0x00, 0x00]] ∧
      Delivers s.params.retryCeiling ((2#16).toNat + 3) [[0x06, 0x37], [0x38, 0x00, 0x00]]
        (0x06#8 :: [0x37#8, 0x38#8] ++ [0x00#8, 0x00#8]) ∧
      StatusClean s.params 0x00#8 0x00#8 ∧ s.cmdId ≠ s.params.rdregId ∧
      ({ s with cmdId := 0x23#24 } : State).cmdId = s.params.rdregId :=
  ⟨by decide, ⟨rfl, rfl, trivial⟩, ⟨rfl, rfl, by decide, by decide⟩, ⟨by decide, by decide⟩, by decide, by decide⟩

/-- V126: st1 clean, st2 matching its first entry. -/
theorem witness_StatusRaises :
    StatusRaises idle.params 0x02#8 0x41#8 ⟨0x40, 6⟩ .st2Table ∧
      StatusRaises idle.params 0xA4#8 0x00#8 ⟨0x80, 1⟩ .st1Table :=
  ⟨.inr ⟨by decide, ⟨[], _, rfl, by decide, by decide⟩, rfl⟩, .inl ⟨⟨[], _, rfl, by decide, by decide⟩, rfl⟩⟩

/-- V130 and V144, and the empty read V131. -/
theorem witness_RawReadsRun :
    let s := withScript [[], [0x41, 0x42], [], [0x43, 0x44]] begun
    (s.beforeRead (.xpRead 4#16) = some (s.withoutReply, (4#16).toNat) ∧ s.rpl.mem.wf = true) ∧
      Answers s.withoutReply.txScript s.withoutReply.txLog (4#16).toNat [[], [0x41, 0x42], [], [0x43, 0x44]] ∧
      Delivers s.params.retryCeiling (4#16).toNat [[], [0x41, 0x42], [], [0x43, 0x44]] [0x41, 0x42, 0x43, 0x44] ∧
      s.beforeRead (.cmdSendr 0#16) = some (s.sent, (0#16).toNat) ∧
      Answers s.sent.txScript s.sent.txLog (0#16).toNat [] ∧ Delivers s.params.retryCeiling (0#16).toNat [] [] :=
  ⟨⟨rfl, by decide⟩, ⟨rfl, rfl, rfl, rfl, trivial⟩, ⟨rfl, rfl, by decide, by decide⟩, rfl, trivial,
    ⟨rfl, rfl, by decide, by decide⟩⟩

/-- V133 to V135, V149, V172: each check at the first value it refuses. -/
theorem witness_ChecksPrecedeIo :
    idle.flt.kind = .noFault ∧ idle.cmd.len = 0#16 ∧ begun.flt.kind = .noFault ∧ begun.cmd.len ≠ 0#16 ∧
      begun.params.rplCap < (1022#16).toNat + 3 ∧ begun.params.rplCap < (1025#16).toNat ∧
      ∀ e ∈ begun.params.regTable, e.id ≠ 99#8 := by decide

/-- V129 and V147: the third empty poll, and an answer too long. -/
theorem witness_ReadFaults :
    let s := withScript [[], [0x06, 0x37], [], []] begun
    let r := withScript [[0x41, 0x42], [0x43, 0x44, 0x45]] idle
    (s.flt.kind = .noFault ∧ s.rpl.mem.wf = true ∧ s.beforeRead (.cmdSend 2#16) = some (s.sent, 5)) ∧
      Answers s.sent.txScript s.sent.txLog 5 [[], [0x06, 0x37], [], []] ∧
      Exhausts s.params.retryCeiling 5 [[], [0x06, 0x37], [], []] [0x06, 0x37] ∧
      r.beforeRead (.xpRead 4#16) = some (r.withoutReply, 4) ∧
      Answers r.withoutReply.txScript r.withoutReply.txLog 4 ([[0x41, 0x42]] ++ [[0x43, 0x44, 0x45]]) ∧
      Overruns r.params.retryCeiling 4 [[0x41, 0x42]] [0x41, 0x42] [0x43, 0x44, 0x45] :=
  ⟨⟨by decide, by decide, rfl⟩, ⟨rfl, rfl, rfl, rfl, trivial⟩, ⟨rfl, by decide, rfl, by decide⟩, rfl,
    ⟨rfl, rfl, trivial⟩, ⟨rfl, by decide, by decide, by decide⟩⟩

/-- A read of nothing and a read of one byte. -/
theorem witness_PollsAreBounded :
    idle.flt.kind = .noFault ∧ idle.cmd.mem.wf = true ∧ idle.beforeRead (.xpRead 0#16) = some (idle.withoutReply, 0) ∧
      idle.beforeRead (.xpRead 1#16) = some (idle.withoutReply, 1) := ⟨by decide, by decide, rfl, rfl⟩

/-- V140 and V143: one reply in one piece and in four. -/
theorem witness_ChunkingIsInvisible :
    let s := withScript [[0x41, 0x42, 0x43, 0x44]] idle
    s.beforeRead (.xpRead 4#16) = some (s.withoutReply, 4) ∧
      Answers s.withoutReply.txScript s.withoutReply.txLog 4 [[0x41, 0x42, 0x43, 0x44]] ∧
      Delivers s.params.retryCeiling 4 [[0x41, 0x42, 0x43, 0x44]] [0x41, 0x42, 0x43, 0x44] ∧
      Answers [[0x41], [0x42], [0x43], [0x44]] s.withoutReply.txLog 4 [[0x41], [0x42], [0x43], [0x44]] ∧
      Delivers s.params.retryCeiling 4 [[0x41], [0x42], [0x43], [0x44]] [0x41, 0x42, 0x43, 0x44] :=
  ⟨rfl, ⟨rfl, trivial⟩, ⟨rfl, rfl, by decide, by decide⟩, ⟨rfl, rfl, rfl, rfl, trivial⟩,
    ⟨rfl, rfl, by decide, by decide⟩⟩

/-- A packed-decimal register and a raw one; no entry. -/
theorem witness_RegLookupFinds :
    idle.flt.kind = .noFault ∧ (⟨6#8, 3#8, true⟩ : RegDescriptor) ∈ idle.params.regTable ∧
      ∀ e ∈ idle.params.regTable, e.id ≠ 99#8 := by decide

/-- V166: register 6 in pieces; its payload good and, in V171, bad; V169: a raw register. -/
theorem witness_RegReadRuns :
    let u := (answered.withRegisterCommand 6#8).sent
    (answered.flt.kind = .noFault ∧ answered.rpl.mem.wf = true ∧ answered.res.mem.wf = true ∧
      answered.cmd.mem.wf = true ∧ (⟨6#8, 3#8, true⟩ : RegDescriptor) ∈ answered.params.regTable) ∧
      Answers u.txScript u.txLog ((3#8).toNat + 3) [[0x06], [], [0x00, 0x12, 0x34], [0x00, 0x00]] ∧
      Delivers answered.params.retryCeiling ((3#8).toNat + 3) [[0x06], [], [0x00, 0x12, 0x34], [0x00, 0x00]]
        (0x06#8 :: [0x00#8, 0x12#8, 0x34#8] ++ [0x00#8, 0x00#8]) ∧
      (∀ b ∈ [0x00#8, 0x12#8, 0x34#8], BcdByte b) ∧ FirstBad BcdByte [0xA0#8, 0x12#8, 0x34#8] 0 ∧
      (⟨17#8, 1#8, false⟩ : RegDescriptor) ∈ answered.params.regTable :=
  ⟨by decide, ⟨rfl, rfl, rfl, rfl, trivial⟩, ⟨rfl, rfl, by decide, by decide⟩, by decide,
    ⟨⟨_, rfl, by decide⟩, fun j b hj _ => absurd hj (by omega)⟩, by decide⟩

theorem witness_StDecodeDecides :
    ({ idle with xs := 0x0002 } : State).flt.kind = .noFault ∧
      ({ idle with xs := 0x0002 } : State).xs.extractLsb' 0 8 = 0x02#8 ∧
      ({ idle with xs := 0x4102 } : State).xs.extractLsb' 8 8 = 0x41#8 ∧
      (∀ e ∈ idle.params.st1Table, ¬ EntryMatches 0x02#8 e) ∧
      ∀ e ∈ idle.params.st2Table, ¬ EntryMatches 0x00#8 e := by decide

theorem witness_StatusOutcomes :
    ({ idle with xs := 0xFF80 } : State).xs.extractLsb' 0 8 = 0x80#8 ∧
      ({ idle with xs := 0xFF80 } : State).xs.extractLsb' 8 8 = 0xFF#8 ∧ (0x80#8).getLsbD 7 = true ∧
      ({ idle with xs := 0x0002 } : State).xs.extractLsb' 8 8 = 0x00#8 := by decide

theorem witness_St3DecodeMatches :
    idle.flt.kind = .noFault ∧
      (∀ e ∈ idle.params.st3Table, e.code ≠ ({ idle with xs := 2 } : State).xs.extractLsb' 0 16) ∧
      (⟨7#16, 8#8⟩ : CodeEntry) ∈ idle.params.st3Table ∧
      7#16 = ({ idle with xs := 0x10007 } : State).xs.extractLsb' 0 16 := by decide

/-- The greatest read. -/
theorem witness_PhasesEqualOneShot : (IoOp.send 1021).length ≤ idle.params.rplCap := by decide

/-- The greatest widths and values of both clauses. -/
theorem witness_NumbersRoundTrip :
    idle.Sound ∧ idle.flt.kind = .noFault ∧ (19#8).toNat ≤ 19 ∧ 9999999999999999999 < 10 ^ (19#8).toNat ∧
      (9#8).toNat ≤ 9 ∧ 999999999999999999 < 10 ^ (2 * (9#8).toNat) :=
  ⟨idle_sound, by decide, by decide, by decide, by decide, by decide⟩

theorem witness_PackedBytesRoundTrip :
    (withArg [0x99] idle).flt.kind = .noFault ∧ (withArg [0x99] idle).arg.len.toNat = (1#8).toNat ∧
      (∀ b ∈ (withArg [0x99] idle).arg.content, BcdByte b) ∧ 2 * (1#8).toNat ≤ idle.params.argCap := by decide

theorem packed_sound : (withArg [0x99] idle).Sound where
  idle := by decide
  arg := ⟨by decide, by decide, by decide⟩
  cmd := ⟨by decide, by decide, by decide⟩
  rpl := ⟨by decide, by decide, by decide⟩
  res := ⟨by decide, by decide, by decide⟩
  window := by decide
  received := by decide
  wanted := by decide
  budget := by decide
  latch := ⟨by decide, by decide, by decide⟩
  invalid := by decide
  latched := fun h => absurd h (by decide)

theorem witness_RegReadIsTheLongForm :
    idle.Sound ∧ idle.flt.kind = .noFault ∧ (⟨6#8, 3#8, true⟩ : RegDescriptor) ∈ idle.params.regTable ∧
      ∃ t, exec (.regRead 6#8) idle = .next t := ⟨idle_sound, by decide, by decide, _, rfl⟩

/-- The report layout of `FX` (95_test_vectors.md). -/
def layout : RptLayout idle.params where
  layout := {
    rptId := 0x3E37#24
    raw := false
    len := 12#16
    dateReg := 6#8
    fields := [⟨"total", 0, 4#8, .bcd2⟩, ⟨"flag", 4, 1#8, .raw⟩]
    arrays := [⟨"rates", 5, 2#8, .bcd2, 3, 2⟩] }
  legal := by decide

/-- R283: a field past the payload is not legal; an array of count 0 asks nothing (entry 22). -/
theorem test_layout_bounds :
    ({ layout.layout with fields := [⟨"late", 11, 2#8, .bcd2⟩] } : ReportLayout).legal idle.params = false ∧
      ({ layout.layout with arrays := [⟨"rates", 5, 2#8, .bcd2, 5, 2⟩] } : ReportLayout).legal idle.params = false ∧
      ({ layout.layout with arrays := [⟨"none", 12, 2#8, .bcd2, 0, 2⟩] } : ReportLayout).legal idle.params = true := by
  decide

/-- P6: a date register of zeros. -/
theorem witness_ReportShortCircuit_empty :
    ∃ t, readReport (withScript [[0x06, 0x00, 0x00, 0x00, 0x00, 0x00]] idle) layout = .empty t := ⟨_, rfl⟩

/-- P7: the script of the full run. -/
def reportScript : List ByteString :=
  [[0x06, 0x31, 0x12, 0x25, 0x00, 0x00],
    [0x06, 0x00, 0x12, 0x34, 0x56, 0x01, 0x17], [], [0x00, 0x07, 0x00, 0x00, 0x00, 0xEE, 0x00, 0x00]]

/-- What a report read hands over: name, number where there is one, bytes. -/
def reported : ReportRun → List (String × Option (Datum × BitVec 4) × ByteString)
  | .empty _ => []
  | .values vs _ => vs.map (fun v => (v.1, v.2.number, v.2.bytes))
  | .stopped vs _ => vs.map (fun v => (v.1, v.2.number, v.2.bytes))

/-- P7: "total 1234.56, flag 1, rates 17.00, 7.00, 0.00". -/
theorem witness_ReportShortCircuit_values :
    (∃ vs t, readReport (withScript reportScript idle) layout = .values vs t) ∧
      reported (readReport (withScript reportScript idle) layout) =
        [("total", some (123456, 2), []), ("flag", none, [0x01]), ("rates", some (1700, 2), []),
          ("rates", some (700, 2), []), ("rates", some (0, 2), [])] := ⟨⟨_, _, rfl⟩, by decide⟩

/-- P7 step 12, R287: a slot that holds the bad byte; the fields already decoded stay, the fault is of that slot. -/
theorem witness_ReportShortCircuit_stopped :
    ∃ vs t, ({ layout.layout with arrays := [⟨"rates", 10, 2#8, .bcd2, 1, 2⟩] } : ReportLayout).run
        (withScript reportScript idle) = .stopped vs t ∧
      vs.map (fun v => (v.1, v.2.completion.xd)) = [("total", 123456#64), ("flag", 1#64)] ∧
      t.flt = ⟨.invalidEncoding, 0, 1, .noTable⟩ := ⟨_, _, rfl, by decide, by decide⟩

/-- R287: an offset past the payload, 2^64 and more among them (entry 21), raises `IllegalOp` detail 3. -/
theorem test_offset_past :
    (collect (unpackArray (2 ^ 64) 0#8 2#4 1 1) idle).state.flt = ⟨.illegalOp, 0, 3, .noTable⟩ ∧
      (collect (unpackArray 11 2#8 2#4 1 1) idle).state.flt = ⟨.illegalOp, 0, 3, .noTable⟩ := by decide

/-- P1: `ENCODE` and `DECODE` of the price 12.995. -/
theorem test_encode_decode :
    ((encodeField (.number 12995 11 3 3) idle).value.map HostValue.bytes =
        some [0x30, 0x30, 0x30, 0x30, 0x30, 0x30, 0x31, 0x32, 0x39, 0x39, 0x35]) ∧
      ((decodeField [0x31, 0x32, 0x39, 0x39, 0x35] (.number 5 3) idle).value.map HostValue.number =
        some (some (12995, 3))) ∧
      (decodeField [0x31, 0x3A] (.number 2 0) idle).value = none := by decide

/-- R205, R249: the payload of `SEND.COMMAND` and the value of `READ.REGISTER`. -/
theorem test_command_register :
    ((sendCommand 0x0A#24 [.byte 0x00] 2#16 false (withScript [[0x06, 0x12, 0x34, 0x00, 0x00]] idle)).value.map
        HostValue.bytes = some [0x12, 0x34]) ∧
      ((readRegister 6#8 (withScript [[0x06, 0x00, 0x12, 0x34, 0x00, 0x00]] idle)).value.map
        (fun v => (v.number, v.bytes)) =
          some (some (1234, 0), [0x30, 0x30, 0x31, 0x32, 0x33, 0x34])) := by decide

end Sys2Proof.Tests
end

section
/-! SUPPORT. One transaction on the host port (00_scope.md R8, R9, R11): what an operation leaves alone until it ends,
and that it ends in exactly one completion with the block idle again. -/

namespace Sys2Proof.Machine

/-- R8, R11: between `s` and `t` nothing was returned to the host, nothing taken from it, no parameter changed. -/
structure State.HostKept (s t : State) : Prop where
  completions : t.completions = s.completions
  hostIn : t.hostIn = s.hostIn
  cfg : t.cfg = s.cfg

/-- R9, R33: the transaction accepted in `s` is over in `t`: one completion more, the block idle. -/
structure State.CompletesTo (s t : State) : Prop where
  completion : ∃ c, t.completions = c :: s.completions
  hostIn : t.hostIn = s.hostIn
  seq : t.seq = .idle
  cfg : t.cfg = s.cfg

theorem State.HostKept.refl (s : State) : s.HostKept s := ⟨rfl, rfl, rfl⟩

theorem State.HostKept.trans {s t u : State} (h : s.HostKept t) (h' : t.HostKept u) : s.HostKept u :=
  ⟨h'.completions.trans h.completions, h'.hostIn.trans h.hostIn, h'.cfg.trans h.cfg⟩

section Endings

variable {s t : State}

/-- R15: `complete(v)` ends an operation that has left the block idle. -/
theorem State.HostKept.complete {v : Datum} (hk : s.HostKept t) (hi : t.seq = .idle) :
    s.CompletesTo (t.complete v) :=
  ⟨⟨_, congrArg _ hk.completions⟩, hk.hostIn, hi, hk.cfg⟩

/-- R310: a raise ends the operation in any phase. -/
theorem State.HostKept.raise {k : FaultKind} {sub : Byte} {det : Half} {tbl : FaultTable} (hk : s.HostKept t) :
    s.CompletesTo (t.raise k sub det tbl) :=
  ⟨⟨_, congrArg _ hk.completions⟩, hk.hostIn, rfl, hk.cfg⟩

theorem State.HostKept.illegal {r : IllegalReason} (hk : s.HostKept t) : s.CompletesTo (t.illegal r) :=
  hk.raise

theorem State.HostKept.raiseCodec {e : CodecFault} (hk : s.HostKept t) : s.CompletesTo (t.raiseCodec e) := by
  cases e with
  | overflow => exact hk.raise
  | invalid i => exact hk.raise

/-- R312: a refusal is a completion too. -/
theorem State.refuse_completes (hi : s.seq = .idle) : s.CompletesTo s.refuse := ⟨⟨_, rfl⟩, rfl, hi, rfl⟩

/-- R201, R308: a check that raises `IllegalOp` where it fails, before the rest of the operation. -/
theorem State.HostKept.guarded {p : Prop} [Decidable p] {r : IllegalReason} {u : State} (hk : s.HostKept t)
    (hu : s.CompletesTo u) : s.CompletesTo (if p then t.illegal r else u) := by
  split
  · exact hk.illegal
  · exact hu

/-- R121, R133: the end of every `FENC.*`. -/
theorem State.storeField_completes {w : Byte} {r : Except CodecFault ByteString} (hi : s.seq = .idle) :
    s.CompletesTo (s.storeField w r) := by
  cases r with
  | error e => exact (State.HostKept.refl s).raiseCodec
  | ok f => exact State.HostKept.complete ⟨rfl, rfl, rfl⟩ hi

/-- R166: the end of every `FPACK.*`. -/
theorem State.packField_completes {w : Byte} {r : Except CodecFault ByteString} (hi : s.seq = .idle) :
    s.CompletesTo (s.packField w r) := by
  have hk := State.HostKept.refl s
  refine hk.guarded (hk.guarded ?_)
  cases r with
  | error e => exact hk.raiseCodec
  | ok f => exact State.HostKept.complete ⟨rfl, rfl, rfl⟩ hi

/-- R139 to R141: the result steps of a decode. -/
theorem State.HostKept.deliver {r : Except CodecFault FieldValue} (hk : s.HostKept t) (hi : t.seq = .idle) :
    s.CompletesTo (t.deliver r) := by
  cases r with
  | error e => exact hk.raiseCodec
  | ok v => exact State.HostKept.complete (hk.trans ⟨rfl, rfl, rfl⟩) hi

/-- R139, R303: the end of every `FDEC.*`. -/
theorem State.decodeArgument_completes {w : Byte} {dec : ByteString → Except CodecFault FieldValue}
    (hi : s.seq = .idle) : s.CompletesTo (s.decodeArgument w dec) := by
  have hk := State.HostKept.refl s
  by_cases hw : s.arg.len.toNat = w.toNat
  · rw [State.decodeArgument_eq w dec s hw]
    exact hk.deliver hi
  · rw [State.decodeArgument_ne w dec s hw]
    exact hk.raiseCodec

/-- R173: the end of every `FUNPK.*`. -/
theorem State.unpackField_completes {w : Byte} {dec : ByteString → Except CodecFault FieldValue}
    (hi : s.seq = .idle) : s.CompletesTo (s.unpackField w dec) :=
  have hk := State.HostKept.refl s
  hk.guarded (hk.deliver hi)

/-- R260: the status check raises, or the rest of the operation ends it. -/
theorem State.HostKept.statusCheck {st1 st2 : Byte} {k : State → State} (hk : s.HostKept t)
    (hu : s.CompletesTo (k t)) : s.CompletesTo (t.statusCheck st1 st2 k) := by
  unfold State.statusCheck
  split
  · exact hk.raise
  · exact hu

/-- R202 line 8, R206: the same, where the check may be skipped. -/
theorem State.HostKept.checkReply {k : State → State} (hk : s.HostKept t) (hu : s.CompletesTo (k t)) :
    s.CompletesTo (t.checkReply k) := by
  unfold State.checkReply
  split
  · exact hu
  · exact hk.statusCheck hu

end Endings

section Transport

variable {s t : State}

/-- R222 lines 3 to 11: a poll touches only the transport and what it counts and receives. -/
theorem State.pollOnce_hostKept (s : State) : s.HostKept s.pollOnce.1 := by
  rcases s.pollOnce_cases _ rfl with ⟨-, h⟩ | ⟨-, -, h⟩ | ⟨-, -, h⟩ <;> rw [h] <;> exact ⟨rfl, rfl, rfl⟩

theorem State.readLoop_hostKept (fuel : Nat) (s : State) : s.HostKept (s.readLoop fuel).1 := by
  induction fuel generalizing s with
  | zero => exact .refl s
  | succ fuel ih =>
    have hp := s.pollOnce_hostKept
    unfold State.readLoop
    split
    · exact .refl s
    · split
      next u e h => simpa only [h] using hp
      next u h =>
        rw [h] at hp
        exact hp.trans (ih u)

/-- R221, R222: `read_exact(n)` completes no transaction by itself. -/
theorem State.readExact_hostKept (n : Nat) (s : State) : s.HostKept (s.readExact n).1 :=
  have hs : s.HostKept (s.startRead n) := ⟨rfl, rfl, rfl⟩
  hs.trans (State.readLoop_hostKept _ (s.startRead n))

/-- R224, R225, R310: a read, then the rest of the operation or the fault of the read. -/
theorem State.HostKept.afterRead {n : Nat} {k : State → State} (hk : s.HostKept t)
    (hu : ∀ u, s.HostKept u → s.CompletesTo (k u)) : s.CompletesTo (afterRead k (t.readExact n)) := by
  have hr := hk.trans (t.readExact_hostKept n)
  cases h : t.readExact n with
  | mk u e =>
    rw [h] at hr
    cases e with
    | complete => exact hu u hr
    | timeout => exact hr.raise
    | overlong len => exact hr.raise

/-- R207, R230: the end of a raw reply. -/
theorem State.HostKept.finishRaw {n : Nat} (hk : s.HostKept t) : s.CompletesTo (t.finishRaw n) :=
  State.HostKept.complete (hk.trans ⟨rfl, rfl, rfl⟩) rfl

/-- R202 lines 2 to 7: send, take a standard reply, latch it, then the rest of the operation. -/
theorem State.HostKept.exchange {n : Nat} {k : State → State} (hk : s.HostKept t)
    (hu : ∀ u, s.HostKept u → s.CompletesTo (k u)) : s.CompletesTo (t.exchange n (State.checkReply k)) := by
  refine State.HostKept.afterRead (hk.trans ⟨rfl, rfl, rfl⟩) fun u hr => ?_
  have hl : s.HostKept (u.latchReply n) := hr.trans ⟨rfl, rfl, rfl⟩
  exact hl.checkReply (hu _ hl)

/-- R202 line 9. -/
theorem State.HostKept.finishSend {n : Nat} (hk : s.HostKept t) : s.CompletesTo (t.finishSend n) :=
  State.HostKept.complete (hk.trans ⟨rfl, rfl, rfl⟩) rfl

/-- R243 lines 5 to 7. -/
theorem State.HostKept.deliverRegister {e : RegDescriptor} (hk : s.HostKept t) :
    s.CompletesTo (t.deliverRegister e) :=
  State.HostKept.deliver (hk.trans ⟨rfl, rfl, rfl⟩) rfl

/-- R201: the pre-I/O checks of a send. -/
theorem State.sendChecked_completes {n : Nat} {k : State → State} (hu : s.CompletesTo (k s)) :
    s.CompletesTo (s.sendChecked n k) :=
  have hk := State.HostKept.refl s
  hk.guarded (hk.guarded hu)

end Transport

section Operations

variable {s : State}

/-- R295, R312: an ordinary operation answers a next state; it is refused, or its body completes it. -/
theorem exec_ordinary_completes (hi : s.seq = .idle) {i : Instr} {body : State → State}
    (he : exec i s = .next (s.ordinary body)) (hb : s.CompletesTo (body s)) :
    ∃ u, exec i s = .next u ∧ s.CompletesTo u := by
  refine ⟨_, he, ?_⟩
  by_cases hf : s.flt.kind = .noFault
  · rw [State.ordinary_clear body s hf]
    exact hb
  · rw [State.ordinary_latched body s hf]
    exact State.refuse_completes hi

/-- R293: `SR.RD`, latched fault or not. -/
theorem exec_srRd_completes (hi : s.seq = .idle) (n : Byte) :
    ∃ u, exec (.srRd n) s = .next u ∧ s.CompletesTo u := by
  have hk := State.HostKept.refl s
  refine ⟨_, exec_srRd n s, ?_⟩
  split
  · exact hk.complete hi
  · exact hk.illegal

/-- R242: `REG.LOOKUP`. -/
theorem exec_regLookup_completes (hi : s.seq = .idle) (id : Byte) :
    ∃ u, exec (.regLookup id) s = .next u ∧ s.CompletesTo u := by
  have hk := State.HostKept.refl s
  refine exec_ordinary_completes hi (exec_regLookup id s) ?_
  split
  · exact hk.raise
  · exact hk.complete hi

/-- R243: `REG.READ`. -/
theorem exec_regRead_completes (hi : s.seq = .idle) (id : Byte) :
    ∃ u, exec (.regRead id) s = .next u ∧ s.CompletesTo u := by
  have hk := State.HostKept.refl s
  refine exec_ordinary_completes hi (exec_regRead id s) ?_
  split
  · exact hk.raise
  · next e _ =>
    have hb : s.HostKept (s.beginRegisterRead id) := ⟨rfl, rfl, rfl⟩
    exact hk.guarded (hb.exchange fun u hu => hu.deliverRegister)

/-- R265: `ST3.DECODE`. -/
theorem exec_st3Decode_completes (hi : s.seq = .idle) :
    ∃ u, exec .st3Decode s = .next u ∧ s.CompletesTo u := by
  have hk := State.HostKept.refl s
  refine exec_ordinary_completes hi (exec_st3Decode s) ?_
  split
  · exact hk.raise
  · exact hk.complete hi

/-- R9, R33: every operation of an idle block answers a next state, in which it is over. -/
theorem exec_completes (i : Instr) (hi : s.seq = .idle) : ∃ u, exec i s = .next u ∧ s.CompletesTo u := by
  have hk := State.HostKept.refl s
  cases i with
  | nop => exact exec_ordinary_completes hi (exec_nop s) (hk.complete hi)
  | fack => exact ⟨_, exec_fack s, State.HostKept.complete ⟨rfl, rfl, rfl⟩ hi⟩
  | srst => exact ⟨_, exec_srst s, State.HostKept.complete ⟨rfl, rfl, rfl⟩ rfl⟩
  | srRd n => exact exec_srRd_completes hi n
  | argClr => exact exec_ordinary_completes hi (exec_argClr s) (State.HostKept.complete ⟨rfl, rfl, rfl⟩ hi)
  | argPush b =>
    exact exec_ordinary_completes hi (exec_argPush b s) (hk.guarded (State.HostKept.complete ⟨rfl, rfl, rfl⟩ hi))
  | argRes =>
    exact exec_ordinary_completes hi (exec_argRes s) (hk.guarded (State.HostKept.complete ⟨rfl, rfl, rfl⟩ hi))
  | resRd idx => exact exec_ordinary_completes hi (exec_resRd idx s) (hk.guarded (hk.complete hi))
  | payRd idx => exact exec_ordinary_completes hi (exec_payRd idx s) (hk.guarded (hk.complete hi))
  | fencTxt w => exact exec_ordinary_completes hi (exec_fencTxt w s) (State.storeField_completes hi)
  | fencNum w sc e => exact exec_ordinary_completes hi (exec_fencNum w sc e s) (State.storeField_completes hi)
  | fencNumd w => exact exec_ordinary_completes hi (exec_fencNumd w s) (State.storeField_completes hi)
  | fencBcd w sc e => exact exec_ordinary_completes hi (exec_fencBcd w sc e s) (State.storeField_completes hi)
  | fencBcdd w => exact exec_ordinary_completes hi (exec_fencBcdd w s) (State.storeField_completes hi)
  | fencRaw w => exact exec_ordinary_completes hi (exec_fencRaw w s) (State.storeField_completes hi)
  | fdecTxt w => exact exec_ordinary_completes hi (exec_fdecTxt w s) (State.decodeArgument_completes hi)
  | fdecNum w sc => exact exec_ordinary_completes hi (exec_fdecNum w sc s) (State.decodeArgument_completes hi)
  | fdecBcd w sc => exact exec_ordinary_completes hi (exec_fdecBcd w sc s) (State.decodeArgument_completes hi)
  | fdecRaw w => exact exec_ordinary_completes hi (exec_fdecRaw w s) (State.decodeArgument_completes hi)
  | fpackTxt w => exact exec_ordinary_completes hi (exec_fpackTxt w s) (State.packField_completes hi)
  | fpackNum w sc e => exact exec_ordinary_completes hi (exec_fpackNum w sc e s) (State.packField_completes hi)
  | fpackNumd w => exact exec_ordinary_completes hi (exec_fpackNumd w s) (State.packField_completes hi)
  | fpackBcd w sc e => exact exec_ordinary_completes hi (exec_fpackBcd w sc e s) (State.packField_completes hi)
  | fpackBcdd w => exact exec_ordinary_completes hi (exec_fpackBcdd w s) (State.packField_completes hi)
  | fpackRaw w => exact exec_ordinary_completes hi (exec_fpackRaw w s) (State.packField_completes hi)
  | funpkTxt w => exact exec_ordinary_completes hi (exec_funpkTxt w s) (State.unpackField_completes hi)
  | funpkNum w sc => exact exec_ordinary_completes hi (exec_funpkNum w sc s) (State.unpackField_completes hi)
  | funpkBcd w sc => exact exec_ordinary_completes hi (exec_funpkBcd w sc s) (State.unpackField_completes hi)
  | funpkRaw w => exact exec_ordinary_completes hi (exec_funpkRaw w s) (State.unpackField_completes hi)
  | cmdBegin id =>
    exact exec_ordinary_completes hi (exec_cmdBegin id s) (State.HostKept.complete ⟨rfl, rfl, rfl⟩ hi)
  | cmdPush b =>
    exact exec_ordinary_completes hi (exec_cmdPush b s)
      (hk.guarded (hk.guarded (State.HostKept.complete ⟨rfl, rfl, rfl⟩ hi)))
  | csum => exact exec_ordinary_completes hi (exec_csum s) (hk.complete hi)
  | cmdSend n =>
    exact exec_ordinary_completes hi (exec_cmdSend n s)
      (State.sendChecked_completes (hk.exchange fun u hu => hu.finishSend))
  | cmdSendr n =>
    have hp : s.HostKept (s.sendPacket.enterPhase .poll) := ⟨rfl, rfl, rfl⟩
    exact exec_ordinary_completes hi (exec_cmdSendr n s)
      (State.sendChecked_completes (hp.afterRead fun u hu => hu.finishRaw))
  | xpRead n =>
    have hp : s.HostKept (s.invalidateReply.enterPhase .poll) := ⟨rfl, rfl, rfl⟩
    exact exec_ordinary_completes hi (exec_xpRead n s)
      (hk.guarded (hp.afterRead fun u hu => hu.finishRaw))
  | regLookup id => exact exec_regLookup_completes hi id
  | regRead id => exact exec_regRead_completes hi id
  | stDecode => exact exec_ordinary_completes hi (exec_stDecode s) (hk.statusCheck (hk.complete hi))
  | st3Decode => exact exec_st3Decode_completes hi

/-- R100, R312: a word the decoder rejects is over at once. -/
theorem State.rejectWord_completes {cw : CommandWord} {e : DecodeError} (hi : s.seq = .idle) :
    s.CompletesTo (s.rejectWord cw e) := by
  unfold State.rejectWord
  split
  · exact (State.HostKept.refl s).illegal
  · exact State.refuse_completes hi

end Operations

section Steps

variable {s : State} {t : Transaction} {rest : List Transaction}

/-- R33, R90: an idle block accepts the next transaction and runs the operation of its word. -/
theorem step_of_legal (hi : s.seq = .idle) (hin : s.hostIn = t :: rest) {i : Instr} (hd : decode t.cw = .legal i) :
    step s = exec i (s.accept t rest) := by
  simp only [step, hi, hin, hd, if_true]

/-- R33, R100: an idle block accepts the next transaction and rejects an illegal word. -/
theorem step_of_illegal (hi : s.seq = .idle) (hin : s.hostIn = t :: rest) {e : DecodeError}
    (hd : decode t.cw = .illegal e) : step s = .next ((s.accept t rest).rejectWord t.cw e) := by
  simp only [step, hi, hin, hd, if_true]

/-- R9, R33: a step of an idle block with a transaction presented carries that transaction to its end. -/
theorem step_completes (hi : s.seq = .idle) (hin : s.hostIn = t :: rest) :
    ∃ u, step s = .next u ∧ (s.accept t rest).CompletesTo u := by
  cases hd : decode t.cw with
  | legal i =>
    rw [step_of_legal hi hin hd]
    exact exec_completes i hi
  | illegal e =>
    rw [step_of_illegal hi hin hd]
    exact ⟨_, rfl, State.rejectWord_completes hi⟩

end Steps

/-- Settles O5: the equation of `step` at a legal word. -/
theorem stepRunsDecoded : Obligations.StepRunsDecoded := by
  unfold Obligations.StepRunsDecoded
  intro s t rest i hi hin hd
  exact step_of_legal hi hin hd

/-- Settles O12: from the accepted transaction, every operation and every rejected word completes exactly once. -/
theorem oneCompletionPerTransaction : Obligations.OneCompletionPerTransaction := by
  unfold Obligations.OneCompletionPerTransaction
  intro s t rest hi hin
  obtain ⟨u, hu, hc⟩ := step_completes hi hin
  obtain ⟨c, hcompl⟩ := hc.completion
  exact ⟨u, c, hu, hcompl, hc.hostIn, hc.seq, hc.cfg⟩

end Sys2Proof.Machine
end

section
/-! SUPPORT. The invariant of the block between transactions (10_state.md R27 to R43, R52): what each update of the
state keeps of it, and that every operation, whatever its outcome, keeps it whole. -/

namespace Sys2Proof.Machine

/-- The invariant in the middle of an operation: all of it but that `SEQ` is `IDLE` (R33). -/
def State.SoundButPhase (s : State) : Prop := (s.enterPhase .idle).Sound

/-- R39: the state in which a read begins, the previous reply invalidated. -/
structure State.ReadyToRead (s : State) : Prop where
  sound : s.SoundButPhase
  unlatched : s.flags.stv = false
  base : s.pbase = 0#16
  length : s.plen = 0#16

section Updates

variable {s : State}

/-- R10: every capacity of a configuration fits a 16-bit register. -/
theorem State.capacities (s : State) :
    255 ≤ s.params.argCap ∧ s.params.argCap ≤ 65535 ∧ 4 ≤ s.params.cmdCap ∧ s.params.cmdCap ≤ 65533 ∧
      258 ≤ s.params.rplCap ∧ s.params.rplCap ≤ 65535 ∧ 510 ≤ s.params.resCap ∧ s.params.resCap ≤ 65535 :=
  s.cfg.capacities

theorem State.ceiling (s : State) : s.params.retryCeiling ≤ 65535 := s.cfg.ceiling.2

theorem State.Sound.butPhase (h : s.Sound) : s.SoundButPhase :=
  { h with idle := rfl, latched := fun hv => { h.latched hv with } }

theorem State.Sound.accept (h : s.Sound) (t : Transaction) (rest : List Transaction) : (s.accept t rest).Sound :=
  { h with latched := fun hv => { h.latched hv with } }

theorem State.Sound.complete (h : s.Sound) (v : Datum) : (s.complete v).Sound :=
  { h with latched := fun hv => { h.latched hv with } }

/-- R312: a refusal changes no state. -/
theorem State.Sound.refuse (h : s.Sound) : s.refuse.Sound := { h with latched := fun hv => { h.latched hv with } }

/-- R313. -/
theorem State.Sound.acknowledge (h : s.Sound) : s.acknowledge.Sound :=
  { h with latch := .of_clear, latched := fun hv => { h.latched hv with } }

theorem State.Sound.with_arg (h : s.Sound) {b : Buffer} (hb : b.Sound s.params.argCap) :
    ({ s with arg := b } : State).Sound := { h with arg := hb, latched := fun hv => { h.latched hv with } }

theorem State.Sound.with_cmd (h : s.Sound) {b : Buffer} (hb : b.Sound s.params.cmdCap) :
    ({ s with cmd := b } : State).Sound := { h with cmd := hb, latched := fun hv => { h.latched hv with } }

theorem State.Sound.with_res (h : s.Sound) {b : Buffer} (hb : b.Sound s.params.resCap) :
    ({ s with res := b } : State).Sound := { h with res := hb, latched := fun hv => { h.latched hv with } }

theorem State.Sound.with_cmdId (h : s.Sound) (id : BitVec 24) : ({ s with cmdId := id } : State).Sound :=
  { h with latched := fun hv => { h.latched hv with } }

/-- R38: `NV` and `NS` are not of the last reply. -/
theorem State.Sound.with_decoded (h : s.Sound) (nv : Bool) (ns : BitVec 4) :
    ({ s with flags := s.flags.decoded nv ns } : State).Sound :=
  { h with latched := fun hv => { h.latched hv with } }

/-- R310, R314: a raise ends in `IDLE`, with the fault in the latch or the one that was there. -/
theorem State.SoundButPhase.raise (h : s.SoundButPhase) {k : FaultKind} {sub : Byte} {det : Half} {tbl : FaultTable}
    (hl : FaultLatch.Sound ⟨k, sub, det, tbl⟩) : (s.raise k sub det tbl).Sound := by
  have hlatch : (s.raise k sub det tbl).flt.Sound := by
    rw [State.raise_flt]
    split
    · exact hl
    · exact h.latch
  exact { h with latch := hlatch, latched := fun hv => { h.latched hv with } }

theorem State.SoundButPhase.illegal (h : s.SoundButPhase) (r : IllegalReason) : (s.illegal r).Sound :=
  h.raise (.of_plain _ _ nofun nofun)

theorem State.SoundButPhase.raiseCodec (h : s.SoundButPhase) (e : CodecFault) : (s.raiseCodec e).Sound := by
  cases e with
  | overflow => exact h.raise (.of_plain _ _ nofun nofun)
  | invalid i => exact h.raise (.of_plain _ _ nofun nofun)

/-- R308: a check that raises `IllegalOp` where it fails; what follows may use that it passed. -/
theorem State.Sound.guarded {p : Prop} [Decidable p] {r : IllegalReason} {u : State} (h : s.Sound)
    (hu : ¬ p → u.Sound) : (if p then s.illegal r else u).Sound := by
  split
  · exact h.butPhase.illegal r
  · exact hu ‹_›

/-- R258 to R260: the fault of a status check names the table that matched. -/
theorem statusFault_table {p : Params} {st1 st2 : Byte} {e : MaskEntry} {tbl : FaultTable}
    (h : statusFault p st1 st2 = some (e, tbl)) : tbl ≠ .noTable := by
  unfold statusFault at h
  split at h
  · cases h; nofun
  · split at h
    · cases h; nofun
    · cases h

/-- R260. -/
theorem State.SoundButPhase.statusCheck (h : s.SoundButPhase) {st1 st2 : Byte} {k : State → State}
    (hk : (k s).Sound) : (s.statusCheck st1 st2 k).Sound := by
  unfold State.statusCheck
  split
  next e tbl he => exact h.raise (.of_device _ _ _ (statusFault_table he))
  next => exact hk

/-- R202 line 8, R206. -/
theorem State.SoundButPhase.checkReply (h : s.SoundButPhase) {k : State → State} (hk : (k s).Sound) :
    (s.checkReply k).Sound := by
  unfold State.checkReply
  split
  · exact hk
  · exact h.statusCheck hk

end Updates

section Reset

/-- R52: the reset state of every configuration. -/
theorem State.sound_resetWith (cfg : Configuration) : (State.resetWith cfg).Sound where
  idle := rfl
  arg := .of_empty _
  cmd := .of_empty _
  rpl := .of_empty _
  res := .of_empty _
  window := Nat.le_refl 0
  received := Nat.le_refl 0
  wanted := Nat.zero_le _
  budget := Nat.zero_le _
  latch := .of_clear
  invalid := fun _ => ⟨rfl, rfl⟩
  latched := nofun

/-- R294: `SRST` changes the block to its reset state; the invariant says nothing of the ports it leaves. -/
theorem State.sound_blockReset (s : State) : s.blockReset.Sound :=
  { State.sound_resetWith s.cfg with latched := nofun }

theorem State.atReset_resetWith (cfg : Configuration) : (State.resetWith cfg).AtReset where
  argLen := rfl
  cmdLen := rfl
  rplLen := rfl
  resLen := rfl
  cmdId := rfl
  window := ⟨rfl, rfl⟩
  loop := ⟨rfl, rfl, rfl⟩
  flt := FaultLatch.clear_word
  flags := FlagBits.clear_word
  stat := StatusLatch.clear_word

/-- R294. -/
theorem State.atReset_blockReset (s : State) (v : Datum) : (s.blockReset.complete v).AtReset :=
  { State.atReset_resetWith s.cfg with }

end Reset

section Codec

/-- R121: a field that exists has the declared width. -/
def HasWidth (w : Byte) (r : Except CodecFault ByteString) : Prop := ∀ f, r = .ok f → f.length = w.toNat

theorem HasWidth.of_ok {w : Byte} {f : ByteString} (h : f.length = w.toNat) : HasWidth w (.ok f) := by
  rintro _ ⟨⟩
  exact h

theorem HasWidth.of_error (w : Byte) (e : CodecFault) : HasWidth w (.error e) := nofun

theorem textField_hasWidth (arg : ByteString) (w : Byte) : HasWidth w (textField arg w) :=
  .of_ok (encTxt_length arg w.toNat)

theorem decimalField_hasWidth (c : Nat) (w : Byte) (sc e : BitVec 4) : HasWidth w (decimalField c w sc e) := by
  obtain ⟨f, hf, h⟩ | h := decimalField_cases c w sc e <;> rw [h]
  · exact .of_ok hf
  · exact .of_error w _

theorem packedField_hasWidth (c : Nat) (w : Byte) (sc e : BitVec 4) : HasWidth w (packedField c w sc e) := by
  obtain ⟨f, hf, h⟩ | h := packedField_cases c w sc e <;> rw [h]
  · exact .of_ok hf
  · exact .of_error w _

theorem decimalDigitsField_hasWidth (arg : ByteString) (w : Byte) : HasWidth w (decimalDigitsField arg w) := by
  obtain ⟨f, hf, h⟩ | ⟨e, h⟩ := decimalDigitsField_cases arg w <;> rw [h]
  · exact .of_ok hf
  · exact .of_error w e

theorem packedDigitsField_hasWidth (arg : ByteString) (w : Byte) : HasWidth w (packedDigitsField arg w) := by
  obtain ⟨f, hf, h⟩ | ⟨e, h⟩ := packedDigitsField_cases arg w <;> rw [h]
  · exact .of_ok hf
  · exact .of_error w e

theorem rawField_hasWidth (arg : ByteString) (w : Byte) : HasWidth w (rawField arg w) := by
  obtain ⟨hf, h⟩ | ⟨e, h⟩ := rawField_cases arg w <;> rw [h]
  · exact .of_ok hf
  · exact .of_error w e

/-- R10, R131: a decoded value has at most the 510 bytes that `RES` holds in every configuration. -/
def FitsResult (r : Except CodecFault FieldValue) : Prop := ∀ v, r = .ok v → v.bytes.length ≤ 510

theorem FitsResult.of_ok {v : FieldValue} (h : v.bytes.length ≤ 510) : FitsResult (.ok v) := by
  rintro _ ⟨⟩
  exact h

theorem FitsResult.of_error (e : CodecFault) : FitsResult (.error e) := nofun

theorem decodeVerbatim_fits {f : ByteString} (h : f.length ≤ 255) : FitsResult (decodeVerbatim f) :=
  .of_ok (h.trans (by decide))

theorem decodeNum_fits {f : ByteString} (h : f.length ≤ 255) (sc : BitVec 4) : FitsResult (decodeNum f sc) := by
  obtain hv | ⟨i, -, hv⟩ := decodeNum_cases f sc <;> rw [hv]
  · exact .of_ok (by rw [numResult_bytes]; omega)
  · exact .of_error _

/-- R130: two digits for each byte, which is where the 510 come from. -/
theorem decodeBcd_fits {f : ByteString} (h : f.length ≤ 255) (sc : BitVec 4) : FitsResult (decodeBcd f sc) := by
  obtain hv | ⟨i, -, hv⟩ := decodeBcd_cases f sc <;> rw [hv]
  · exact .of_ok (by rw [numResult_bytes, flatMap_bcdCharacters_length]; omega)
  · exact .of_error _

theorem decodeRegister_fits {p : ByteString} (h : p.length ≤ 255) (e : RegDescriptor) :
    FitsResult (decodeRegister e p) := by
  unfold decodeRegister
  split
  · exact decodeBcd_fits h 0#4
  · exact decodeVerbatim_fits h

end Codec

section Fields

variable {s : State}

/-- R133: a field of at most 255 bytes fits `RES`. -/
theorem State.Sound.storeField (h : s.Sound) {w : Byte} {r : Except CodecFault ByteString} (hr : HasWidth w r) :
    (s.storeField w r).Sound := by
  cases r with
  | error e => exact h.butPhase.raiseCodec e
  | ok f =>
    have hlen := hr f rfl
    have hcap := s.capacities
    exact (h.with_res (h.res.of_load f (by omega) (by omega))).complete _

/-- R166: the capacity check is the one that keeps `CMDLEN` within `CMD_CAP`. -/
theorem State.Sound.packField (h : s.Sound) {w : Byte} {r : Except CodecFault ByteString} (hr : HasWidth w r) :
    (s.packField w r).Sound := by
  refine h.guarded fun _ => h.guarded fun hfits => ?_
  cases r with
  | error e => exact h.butPhase.raiseCodec e
  | ok f =>
    have hlen := hr f rfl
    have hcap := s.capacities
    exact (h.with_cmd (h.cmd.of_append f (by omega) (by omega))).complete _

/-- R139 to R141. -/
theorem State.Sound.deliver (h : s.Sound) {r : Except CodecFault FieldValue} (hr : FitsResult r) :
    (s.deliver r).Sound := by
  cases r with
  | error e => exact h.butPhase.raiseCodec e
  | ok v =>
    have hlen := hr v rfl
    have hcap := s.capacities
    have hres := h.res.of_load v.bytes (by omega) (by omega)
    exact ((h.with_res hres).with_decoded v.nv v.ns).complete v.xd

/-- R139: what an `FDEC.*` decodes has the declared width. -/
theorem State.Sound.decodeArgument (h : s.Sound) (w : Byte) {dec : ByteString → Except CodecFault FieldValue}
    (hdec : ∀ f : ByteString, f.length ≤ 255 → FitsResult (dec f)) : (s.decodeArgument w dec).Sound := by
  by_cases hw : s.arg.len.toNat = w.toNat
  · rw [State.decodeArgument_eq w dec s hw]
    exact h.deliver (hdec _ (by rw [Buffer.content_length]; omega))
  · rw [State.decodeArgument_ne w dec s hw]
    exact h.butPhase.raiseCodec _

/-- R173: what a `FUNPK.*` cuts out of the window has the declared width too. -/
theorem State.Sound.unpackField (h : s.Sound) (w : Byte) {dec : ByteString → Except CodecFault FieldValue}
    (hdec : ∀ f : ByteString, f.length ≤ 255 → FitsResult (dec f)) : (s.unpackField w dec).Sound :=
  h.guarded fun _ => h.deliver (hdec _ (by rw [State.windowBytes, Memory.readBytes_length]; omega))

end Fields

section Transport

variable {s u : State} {n : Nat}

/-- R39: without a reply the window is empty and the flags of the reply are 0. -/
theorem State.Sound.invalidateReply (h : s.Sound) : s.invalidateReply.ReadyToRead where
  sound := { h with
    idle := rfl
    window := Nat.zero_le _
    invalid := fun _ => ⟨rfl, rfl⟩
    latched := nofun }
  unlatched := rfl
  base := rfl
  length := rfl

theorem State.ReadyToRead.enterPhase (h : s.ReadyToRead) (p : Phase) : (s.enterPhase p).ReadyToRead :=
  ⟨h.sound, h.unlatched, h.base, h.length⟩

/-- R203: the packet written, the command is consumed. -/
theorem State.Sound.sendPacket (h : s.Sound) : s.sendPacket.ReadyToRead where
  sound := { h.invalidateReply.sound with cmd := h.cmd.of_clear, latched := nofun }
  unlatched := rfl
  base := rfl
  length := rfl

/-- R221, R224: however a read ends, it has stored no more than it wanted and counted no more than the ceiling. -/
theorem State.ReadyToRead.afterPolls (h : u.ReadyToRead) {chunks : List ByteString} {got : ByteString}
    (hn : n ≤ u.params.rplCap) (hg : got.length ≤ n) (hb : emptyPolls chunks ≤ u.params.retryCeiling) :
    (u.afterPolls n chunks got).ReadyToRead := by
  have hcap := u.capacities
  have hceil := u.ceiling
  have hrplCap : u.params.rplCap ≤ 65535 := by omega
  have hw : (half n).toNat = n := half_toNat_of_lt n (by omega)
  have hl : (half got.length).toNat = got.length := half_toNat_of_lt _ (by omega)
  have hr : (half (emptyPolls chunks)).toNat = emptyPolls chunks :=
    half_toNat_of_lt _ (by omega)
  have hrpl : (u.rpl.load got).Sound u.params.rplCap :=
    h.sound.rpl.of_load got (hg.trans hn) (Nat.lt_succ_of_le hrplCap)
  refine ⟨{ h.sound with
    rpl := hrpl
    window := ?_
    received := ?_
    wanted := ?_
    budget := ?_
    latched := ?_ }, h.unlatched, h.base, h.length⟩
  · show u.pbase.toNat + u.plen.toNat ≤ _
    rw [h.base, h.length]
    exact Nat.zero_le _
  · show (half got.length).toNat ≤ (half n).toNat
    rw [hl, hw]
    exact hg
  · show (half n).toNat ≤ u.params.rplCap
    rw [hw]
    exact hn
  · show (half (emptyPolls chunks)).toNat ≤ u.params.retryCeiling
    rw [hr]
    exact hb
  · intro hv
    exact absurd (h.unlatched.symm.trans hv) nofun

/-- R222 to R225: a read, and then the rest of the operation on the whole reply, or the fault of the read. -/
theorem State.ReadyToRead.afterRead (h : u.ReadyToRead) {k : State → State} (hn : n ≤ u.params.rplCap)
    (hk : ∀ t : State, t.ReadyToRead → t.rpl.len.toNat = n → (k t).Sound) :
    (afterRead k (u.readExact n)).Sound := by
  have hcap := u.capacities
  have hlt : n < 65536 := by omega
  obtain ⟨chunks, -, -, -, hends⟩ := u.readExact_cases n hlt
  obtain ⟨reply, hd, he⟩ | ⟨got, hd, he⟩ | ⟨pre, got, excess, rfl, hd, he⟩ := hends <;> rw [he]
  · have ht := h.afterPolls hn hd.total.le hd.budget.le
    exact hk _ ht (by
      show (half reply.length).toNat = n
      rw [hd.total, half_toNat_of_lt n hlt])
  · have ht := h.afterPolls hn hd.partly.le hd.budget.le
    exact ht.sound.raise (.of_plain _ _ nofun nofun)
  · have hempty : emptyPolls (pre ++ [excess]) ≤ u.params.retryCeiling := by
      have hlong := hd.long
      have hpartly := hd.partly
      have hb := hd.budget
      rw [emptyPolls_append, emptyPolls_cons, emptyPolls_nil, if_neg (by omega)]
      omega
    have ht := h.afterPolls hn hd.partly.le hempty
    exact ht.sound.raise (.of_plain _ _ nofun nofun)

/-- R230 lines 4 and 5: the window of a raw reply is the whole reply. -/
theorem State.ReadyToRead.finishRaw (h : u.ReadyToRead) (hl : u.rpl.len.toNat = n) : (u.finishRaw n).Sound := by
  refine State.Sound.complete (s := { u with pbase := 0#16, plen := half n, seq := .idle })
    { h.sound with window := ?_, latched := ?_ } _
  · show (0#16).toNat + (half n).toNat ≤ u.rpl.len.toNat
    rw [hl, half_toNat]
    simpa using Nat.mod_le n 65536
  · intro hv
    exact absurd (h.unlatched.symm.trans hv) nofun

/-- R202 lines 5 to 7: what `STAT`, the flags and the window then say is of the reply in `RPL`. -/
theorem State.ReadyToRead.latchReply (h : u.ReadyToRead) (hl : u.rpl.len.toNat = n + 3) :
    (u.latchReply n).SoundButPhase := by
  have hp : (half n).toNat = n := half_toNat_of_lt n (by have := u.rpl.len.isLt; omega)
  refine { h.sound with window := ?_, invalid := nofun, latched := fun _ => ?_ }
  · show (1#16).toNat + (half n).toNat ≤ u.rpl.len.toNat
    rw [hl, hp]
    simp only [BitVec.toNat_ofNat]
    omega
  · refine ⟨rfl, ?_, ?_, rfl, ?_, rfl, ?_⟩
    · show u.rpl.mem.read (n + 1) = u.rpl.mem.read ((half n).toNat + 1)
      rw [hp]
    · show u.rpl.mem.read (n + 2) = u.rpl.mem.read ((half n).toNat + 2)
      rw [hp]
    · show decide (n = 1) = decide ((half n).toNat = 1)
      rw [hp]
    · show u.rpl.len.toNat = (half n).toNat + 3
      rw [hl, hp]

/-- R202 lines 2 to 8: send, take a standard reply, latch it, check it, then the rest of the operation. -/
theorem State.Sound.exchange (h : s.Sound) {k : State → State} (hn : standardLength n ≤ s.params.rplCap)
    (hk : ∀ t : State, t.SoundButPhase → (k t).Sound) : (s.exchange n (State.checkReply k)).Sound := by
  refine (h.sendPacket.enterPhase .poll).afterRead hn fun t ht hl => ?_
  have hlatched := ht.latchReply hl
  exact hlatched.checkReply (hk _ hlatched)

/-- R207. -/
theorem State.Sound.exchangeRaw (h : s.Sound) (hn : n ≤ s.params.rplCap) : (s.exchangeRaw n).Sound :=
  (h.sendPacket.enterPhase .poll).afterRead hn fun _ ht hl => ht.finishRaw hl

/-- R230. -/
theorem State.Sound.readOnly (h : s.Sound) (hn : n ≤ s.params.rplCap) : (s.readOnly n).Sound :=
  (h.invalidateReply.enterPhase .poll).afterRead hn fun _ ht hl => ht.finishRaw hl

/-- R201. -/
theorem State.Sound.sendChecked (h : s.Sound) {k : State → State} (hk : n ≤ s.params.rplCap → (k s).Sound) :
    (s.sendChecked n k).Sound :=
  h.guarded fun _ => h.guarded fun hfits => hk (Nat.le_of_not_lt hfits)

/-- R202 line 9. -/
theorem State.SoundButPhase.finishSend (h : s.SoundButPhase) : (s.finishSend n).Sound := State.Sound.complete h _

/-- R243 lines 5 to 7. -/
theorem State.SoundButPhase.deliverRegister (h : s.SoundButPhase) (e : RegDescriptor) :
    (s.deliverRegister e).Sound :=
  State.Sound.deliver h (decodeRegister_fits (by rw [Memory.readBytes_length]; omega) e)

/-- R192, R243: an identifier and one byte fit `CMD` in every configuration. -/
theorem State.Sound.beginRegisterRead (h : s.Sound) (id : Byte) : (s.beginRegisterRead id).Sound := by
  have hcap := s.capacities
  have hid := idBytes_length_le s.params.rdregId
  have hlen : (idBytes s.params.rdregId ++ [id]).length ≤ s.params.cmdCap := by
    rw [List.length_append, List.length_singleton]
    omega
  exact (h.with_cmd (h.cmd.of_load _ hlen (by omega))).with_cmdId _

end Transport

section Operations

variable {s : State}

/-- R295, R312: an ordinary operation is refused, or its body keeps the invariant. -/
theorem State.Sound.ordinary (h : s.Sound) {body : State → State} (hb : (body s).Sound) :
    (s.ordinary body).Sound := by
  by_cases hf : s.flt.kind = .noFault
  · rw [State.ordinary_clear body s hf]
    exact hb
  · rw [State.ordinary_latched body s hf]
    exact h.refuse

/-- R162. -/
theorem execArgPush_sound (h : s.Sound) (b : Byte) : ∃ u, execArgPush b s = .next u ∧ u.Sound := by
  have hcap := s.capacities
  refine ⟨_, rfl, h.ordinary (h.guarded fun hroom => State.Sound.complete (h.with_arg ?_) _)⟩
  exact h.arg.of_append [b] (Nat.lt_of_not_le hroom) (by omega)

/-- R163. -/
theorem execArgRes_sound (h : s.Sound) : ∃ u, execArgRes s = .next u ∧ u.Sound := by
  have hcap := s.capacities
  refine ⟨_, rfl, h.ordinary (h.guarded fun hfits => State.Sound.complete (h.with_arg ?_) _)⟩
  exact h.arg.of_load _ (by rw [Buffer.content_length]; omega) (by omega)

/-- R192. -/
theorem execCmdBegin_sound (h : s.Sound) (id : BitVec 24) : ∃ u, execCmdBegin id s = .next u ∧ u.Sound := by
  have hcap := s.capacities
  have hid := idBytes_length_le id
  have hcmd : (s.cmd.load (idBytes id)).Sound s.params.cmdCap := h.cmd.of_load _ (by omega) (by omega)
  exact ⟨_, rfl, h.ordinary (((h.with_cmd hcmd).with_cmdId id).complete _)⟩

/-- R193. -/
theorem execCmdPush_sound (h : s.Sound) (b : Byte) : ∃ u, execCmdPush b s = .next u ∧ u.Sound := by
  have hcap := s.capacities
  refine ⟨_, rfl, h.ordinary (h.guarded fun _ => h.guarded fun hroom => State.Sound.complete (h.with_cmd ?_) _)⟩
  exact h.cmd.of_append [b] (Nat.lt_of_not_le hroom) (by omega)

/-- R293. -/
theorem execSrRd_sound (h : s.Sound) (n : Byte) : ∃ u, execSrRd n s = .next u ∧ u.Sound := by
  refine ⟨_, rfl, ?_⟩
  split
  · exact h.complete _
  · exact h.butPhase.illegal _

/-- R242. -/
theorem State.Sound.unsupportedRegister (h : s.Sound) (id : Byte) : (s.unsupportedRegister id).Sound :=
  h.butPhase.raise (.of_plain _ _ nofun nofun)

/-- R242. -/
theorem execRegLookup_sound (h : s.Sound) (id : Byte) : ∃ u, execRegLookup id s = .next u ∧ u.Sound := by
  refine ⟨_, rfl, h.ordinary ?_⟩
  split
  · exact h.unsupportedRegister id
  · exact h.complete _

/-- R243. -/
theorem execRegRead_sound (h : s.Sound) (id : Byte) : ∃ u, execRegRead id s = .next u ∧ u.Sound := by
  refine ⟨_, rfl, h.ordinary ?_⟩
  split
  · exact h.unsupportedRegister id
  next e _ =>
    exact h.guarded fun hfits =>
      (h.beginRegisterRead id).exchange (Nat.le_of_not_lt hfits) fun _ ht => ht.deliverRegister e

/-- R265. -/
theorem execSt3Decode_sound (h : s.Sound) : ∃ u, execSt3Decode s = .next u ∧ u.Sound := by
  refine ⟨_, rfl, h.ordinary ?_⟩
  split
  · exact h.butPhase.raise (.of_device _ _ _ nofun)
  · exact h.complete _

/-- Every operation, completing or raising, keeps the invariant. -/
theorem exec_sound (i : Instr) (h : s.Sound) : ∃ u, exec i s = .next u ∧ u.Sound := by
  cases i with
  | nop => exact ⟨_, exec_nop s, h.ordinary (h.complete _)⟩
  | fack => exact ⟨_, exec_fack s, h.acknowledge.complete _⟩
  | srst => exact ⟨_, exec_srst s, s.sound_blockReset.complete _⟩
  | srRd n => exact execSrRd_sound h n
  | argClr => exact ⟨_, exec_argClr s, h.ordinary ((h.with_arg h.arg.of_clear).complete _)⟩
  | argPush b => exact execArgPush_sound h b
  | argRes => exact execArgRes_sound h
  | resRd idx => exact ⟨_, exec_resRd idx s, h.ordinary (h.guarded fun _ => h.complete _)⟩
  | payRd idx => exact ⟨_, exec_payRd idx s, h.ordinary (h.guarded fun _ => h.complete _)⟩
  | fencTxt w => exact ⟨_, exec_fencTxt w s, h.ordinary (h.storeField (textField_hasWidth _ w))⟩
  | fencNum w sc e => exact ⟨_, exec_fencNum w sc e s, h.ordinary (h.storeField (decimalField_hasWidth _ w sc e))⟩
  | fencNumd w => exact ⟨_, exec_fencNumd w s, h.ordinary (h.storeField (decimalDigitsField_hasWidth _ w))⟩
  | fencBcd w sc e => exact ⟨_, exec_fencBcd w sc e s, h.ordinary (h.storeField (packedField_hasWidth _ w sc e))⟩
  | fencBcdd w => exact ⟨_, exec_fencBcdd w s, h.ordinary (h.storeField (packedDigitsField_hasWidth _ w))⟩
  | fencRaw w => exact ⟨_, exec_fencRaw w s, h.ordinary (h.storeField (rawField_hasWidth _ w))⟩
  | fdecTxt w => exact ⟨_, exec_fdecTxt w s, h.ordinary (h.decodeArgument w fun _ => decodeVerbatim_fits)⟩
  | fdecNum w sc =>
    exact ⟨_, exec_fdecNum w sc s, h.ordinary (h.decodeArgument w fun _ hf => decodeNum_fits hf sc)⟩
  | fdecBcd w sc =>
    exact ⟨_, exec_fdecBcd w sc s, h.ordinary (h.decodeArgument w fun _ hf => decodeBcd_fits hf sc)⟩
  | fdecRaw w => exact ⟨_, exec_fdecRaw w s, h.ordinary (h.decodeArgument w fun _ => decodeVerbatim_fits)⟩
  | fpackTxt w => exact ⟨_, exec_fpackTxt w s, h.ordinary (h.packField (textField_hasWidth _ w))⟩
  | fpackNum w sc e => exact ⟨_, exec_fpackNum w sc e s, h.ordinary (h.packField (decimalField_hasWidth _ w sc e))⟩
  | fpackNumd w => exact ⟨_, exec_fpackNumd w s, h.ordinary (h.packField (decimalDigitsField_hasWidth _ w))⟩
  | fpackBcd w sc e => exact ⟨_, exec_fpackBcd w sc e s, h.ordinary (h.packField (packedField_hasWidth _ w sc e))⟩
  | fpackBcdd w => exact ⟨_, exec_fpackBcdd w s, h.ordinary (h.packField (packedDigitsField_hasWidth _ w))⟩
  | fpackRaw w => exact ⟨_, exec_fpackRaw w s, h.ordinary (h.packField (rawField_hasWidth _ w))⟩
  | funpkTxt w => exact ⟨_, exec_funpkTxt w s, h.ordinary (h.unpackField w fun _ => decodeVerbatim_fits)⟩
  | funpkNum w sc =>
    exact ⟨_, exec_funpkNum w sc s, h.ordinary (h.unpackField w fun _ hf => decodeNum_fits hf sc)⟩
  | funpkBcd w sc =>
    exact ⟨_, exec_funpkBcd w sc s, h.ordinary (h.unpackField w fun _ hf => decodeBcd_fits hf sc)⟩
  | funpkRaw w => exact ⟨_, exec_funpkRaw w s, h.ordinary (h.unpackField w fun _ => decodeVerbatim_fits)⟩
  | cmdBegin id => exact execCmdBegin_sound h id
  | cmdPush b => exact execCmdPush_sound h b
  | csum => exact ⟨_, exec_csum s, h.ordinary (h.complete _)⟩
  | cmdSend n =>
    exact ⟨_, exec_cmdSend n s, h.ordinary (h.sendChecked fun hn => h.exchange hn fun _ ht => ht.finishSend)⟩
  | cmdSendr n => exact ⟨_, exec_cmdSendr n s, h.ordinary (h.sendChecked fun hn => h.exchangeRaw hn)⟩
  | xpRead n =>
    exact ⟨_, exec_xpRead n s, h.ordinary (h.guarded fun hfits => h.readOnly (Nat.le_of_not_lt hfits))⟩
  | regLookup id => exact execRegLookup_sound h id
  | regRead id => exact execRegRead_sound h id
  | stDecode => exact ⟨_, exec_stDecode s, h.ordinary (h.butPhase.statusCheck (h.complete _))⟩
  | st3Decode => exact execSt3Decode_sound h

/-- R100, R312: a word the decoder rejects raises or is refused. -/
theorem State.Sound.rejectWord (h : s.Sound) (cw : CommandWord) (e : DecodeError) : (s.rejectWord cw e).Sound := by
  unfold State.rejectWord
  split
  · exact h.butPhase.illegal _
  · exact h.refuse

end Operations

section Steps

variable {s : State}

/-- R323: with nothing presented the idle block holds its state. -/
theorem step_of_none (hi : s.seq = .idle) (hin : s.hostIn = []) : step s = .next s := by
  simp only [step, hi, hin, if_true]

/-- U26: a busy block accepts nothing. -/
theorem step_of_busy (hi : s.seq ≠ .idle) : step s = .fault .hostPortBusy := by
  simp only [step, hi, if_false]

/-- A step of a sound block goes on, to a sound state of the same configuration (R11). -/
theorem step_sound (h : s.Sound) : ∃ u, step s = .next u ∧ u.Sound ∧ u.cfg = s.cfg := by
  cases hin : s.hostIn with
  | nil => exact ⟨s, step_of_none h.idle hin, h, rfl⟩
  | cons t rest =>
    obtain ⟨u, hu, hc⟩ := step_completes h.idle hin
    refine ⟨u, hu, ?_, hc.cfg⟩
    have ha := h.accept t rest
    cases hd : decode t.cw with
    | legal i =>
      obtain ⟨u', hu', hs⟩ := exec_sound i ha
      rw [step_of_legal h.idle hin hd, hu'] at hu
      cases hu
      exact hs
    | illegal e =>
      rw [step_of_illegal h.idle hin hd] at hu
      cases hu
      exact ha.rejectWord t.cw e

/-- Of any machine: a first step that goes on, and the run from there. -/
theorem run_succ_of_next {M : Host.Core} {s u : M.State} {n : Nat} (hs : M.step s = .next u) :
    M.run (n + 1) s = M.run n u := by
  simp only [Host.Core.run, hs]

theorem State.RunsTo.zero (s : State) : s.RunsTo 0 s := rfl

theorem State.RunsTo.succ {u t : State} {n : Nat} (hs : step s = .next u) (hr : u.RunsTo n t) :
    s.RunsTo (n + 1) t := by
  have hrun : Sys2Proof.core.run (n + 1) s = Sys2Proof.core.run n u := run_succ_of_next hs
  exact hrun.trans hr

end Steps

/-- Settles O6: the two ways a step takes no transaction. -/
theorem stepHoldsOrIsBusy : Obligations.StepHoldsOrIsBusy := by
  unfold Obligations.StepHoldsOrIsBusy
  intro s
  exact ⟨step_of_none, step_of_busy⟩

/-- Settles O9: the next state is the sound one that a sound state steps to. -/
theorem soundIsKept : Obligations.SoundIsKept := by
  unfold Obligations.SoundIsKept
  intro s t h hst
  obtain ⟨u, hu, hs, -⟩ := step_sound h
  rw [hu] at hst
  cases hst
  exact hs

/-- Settles O10. -/
theorem soundAtReset : Obligations.SoundAtReset := by
  unfold Obligations.SoundAtReset
  exact ⟨State.sound_resetWith Config.built, State.sound_resetWith⟩

/-- Settles O11: `SRST` completes in the reset state of its own configuration, the ports aside. -/
theorem resetValues : Obligations.ResetValues := by
  unfold Obligations.ResetValues
  have hall (cfg : Configuration) : (State.resetWith cfg).AtReset ∧ (State.resetWith cfg).cfg = cfg :=
    ⟨State.atReset_resetWith cfg, rfl⟩
  have hword : encode .srst = 0x02000000#32 := by decide
  refine ⟨⟨State.atReset_resetWith Config.built, hall⟩, hword, fun s => ?_⟩
  exact ⟨_, exec_srst s, s.atReset_blockReset _, rfl⟩

/-- Settles O13, by induction on the number of steps. -/
theorem runsNeverStop : Obligations.RunsNeverStop := by
  unfold Obligations.RunsNeverStop
  intro n
  induction n with
  | zero => exact fun s h => ⟨s, .zero s, h, rfl⟩
  | succ n ih =>
    intro s h
    obtain ⟨u, hu, hsound, hcfg⟩ := step_sound h
    obtain ⟨t, hrun, ht, hcfg'⟩ := ih u hsound
    exact ⟨t, .succ hu hrun, ht, hcfg'.trans hcfg⟩

end Sys2Proof.Machine
end

section
/-! SUPPORT. Which operation writes which space (20_memory.md R61): what every update of the state leaves alone unless
the table lists the operation as its writer, and that every operation is made of such updates only. -/

namespace Sys2Proof.Machine

/-- R61: between `s` and `t` nothing was written that the table does not list the operation `i` as writing. -/
structure State.Spares (i : Instr) (s t : State) : Prop where
  cfg : t.cfg = s.cfg
  arg : writesArgument i = false → t.arg = s.arg
  cmd : writesCommand i = false → t.cmd = s.cmd
  res : writesResult i = false → t.res = s.res
  rpl : touchesTransport i = false → t.rpl = s.rpl
  port : touchesTransport i = false → t.txScript = s.txScript ∧ t.txLog = s.txLog
  packets : sendsPacket i = false → packetsWritten t.txLog = packetsWritten s.txLog

theorem State.Spares.refl (i : Instr) (s : State) : s.Spares i s :=
  ⟨rfl, fun _ => rfl, fun _ => rfl, fun _ => rfl, fun _ => rfl, fun _ => ⟨rfl, rfl⟩, fun _ => rfl⟩

section Updates

variable {i : Instr} {s t : State}

theorem State.Spares.complete (h : s.Spares i t) (v : Datum) : s.Spares i (t.complete v) := { h with }

theorem State.Spares.enterPhase (h : s.Spares i t) (p : Phase) : s.Spares i (t.enterPhase p) := { h with }

theorem State.Spares.acknowledge (h : s.Spares i t) : s.Spares i t.acknowledge := { h with }

/-- R312. -/
theorem State.Spares.refuse (h : s.Spares i t) : s.Spares i t.refuse := { h with }

/-- R310: a raise writes no space; what the operation wrote before it stays (R311). -/
theorem State.Spares.raise (h : s.Spares i t) (k : FaultKind) (sub : Byte) (det : Half) (tbl : FaultTable) :
    s.Spares i (t.raise k sub det tbl) := { h with }

theorem State.Spares.illegal (h : s.Spares i t) (r : IllegalReason) : s.Spares i (t.illegal r) := h.raise _ _ _ _

theorem State.Spares.raiseCodec (h : s.Spares i t) (e : CodecFault) : s.Spares i (t.raiseCodec e) := by
  cases e with
  | overflow => exact h.raise _ _ _ _
  | invalid index => exact h.raise _ _ _ _

theorem State.Spares.with_arg (h : s.Spares i t) (hw : writesArgument i = true) (b : Buffer) :
    s.Spares i { t with arg := b } := { h with arg := by simp [hw] }

theorem State.Spares.with_cmd (h : s.Spares i t) (hw : writesCommand i = true) (b : Buffer) :
    s.Spares i { t with cmd := b } := { h with cmd := by simp [hw] }

theorem State.Spares.with_res (h : s.Spares i t) (hw : writesResult i = true) (b : Buffer) :
    s.Spares i { t with res := b } := { h with res := by simp [hw] }

/-- R192, R243: a command begun, with its identifier, which is no space of R61. -/
theorem State.Spares.with_command (h : s.Spares i t) (hw : writesCommand i = true) (b : Buffer) (id : BitVec 24) :
    s.Spares i { t with cmd := b, cmdId := id } := { h.with_cmd hw b with }

/-- R308: a check that raises `IllegalOp` where it fails, before the rest of the operation. -/
theorem State.Spares.guarded {p : Prop} [Decidable p] {r : IllegalReason} {u : State} (h : s.Spares i t)
    (hu : s.Spares i u) : s.Spares i (if p then t.illegal r else u) := by
  split
  · exact h.illegal r
  · exact hu

/-- R260: the status check raises, or the rest of the operation follows. -/
theorem State.Spares.statusCheck {st1 st2 : Byte} {k : State → State} (h : s.Spares i t) (hk : s.Spares i (k t)) :
    s.Spares i (t.statusCheck st1 st2 k) := by
  unfold State.statusCheck
  split
  · exact h.raise _ _ _ _
  · exact hk

/-- R206: the same, where the check may be skipped. -/
theorem State.Spares.checkReply {k : State → State} (h : s.Spares i t) (hk : s.Spares i (k t)) :
    s.Spares i (t.checkReply k) := by
  unfold State.checkReply
  split
  · exact hk
  · exact h.statusCheck hk

end Updates

section Fields

variable {i : Instr} {s t : State}

/-- R133: an `FENC.*` writes `RES`. -/
theorem State.Spares.storeField (h : s.Spares i t) (hw : writesResult i = true) (w : Byte)
    (r : Except CodecFault ByteString) : s.Spares i (t.storeField w r) := by
  cases r with
  | error e => exact h.raiseCodec e
  | ok f => exact (h.with_res hw _).complete _

/-- R166: an `FPACK.*` writes `CMD`. -/
theorem State.Spares.packField (h : s.Spares i t) (hw : writesCommand i = true) (w : Byte)
    (r : Except CodecFault ByteString) : s.Spares i (t.packField w r) := by
  refine h.guarded (h.guarded ?_)
  cases r with
  | error e => exact h.raiseCodec e
  | ok f => exact (h.with_cmd hw _).complete _

/-- R139 to R141: the result steps of a decode write `RES`; the flags are no space of R61. -/
theorem State.Spares.deliver (h : s.Spares i t) (hw : writesResult i = true) (r : Except CodecFault FieldValue) :
    s.Spares i (t.deliver r) := by
  cases r with
  | error e => exact h.raiseCodec e
  | ok v => exact { h.with_res hw (t.res.load v.bytes) with }

/-- R139, R303. -/
theorem State.Spares.decodeArgument (h : s.Spares i t) (hw : writesResult i = true) (w : Byte)
    (dec : ByteString → Except CodecFault FieldValue) : s.Spares i (t.decodeArgument w dec) := by
  unfold State.decodeArgument
  split
  · exact h.deliver hw _
  · exact h.raiseCodec _

/-- R173. -/
theorem State.Spares.unpackField (h : s.Spares i t) (hw : writesResult i = true) (w : Byte)
    (dec : ByteString → Except CodecFault FieldValue) : s.Spares i (t.unpackField w dec) :=
  h.guarded (h.deliver hw _)

end Fields

section Transport

variable {i : Instr} {s t : State}

/-- R67: the answer of a `TxRead` is no packet written. -/
theorem packetsWritten_read (k : Nat) (c : ByteString) (log : List TxEvent) :
    packetsWritten (.read k c :: log) = packetsWritten log := rfl

/-- R222: what every poll keeps, the read keeps, however many polls it makes. -/
theorem State.readLoop_keeps {P : State → Prop} (hpoll : ∀ s, P s → P s.pollOnce.1) (fuel : Nat) (s : State)
    (hs : P s) : P (s.readLoop fuel).1 := by
  induction fuel generalizing s with
  | zero => exact hs
  | succ fuel ih =>
    have hp := hpoll s hs
    unfold State.readLoop
    split
    · exact hs
    · split
      next u e hu => simpa only [hu] using hp
      next u hu =>
        rw [hu] at hp
        exact ih u hp

/-- R222 lines 3 to 11: what a poll stores and counts; it writes no packet. -/
theorem State.Spares.polled (h : s.Spares i t) (ht : touchesTransport i = true) (c got : ByteString) :
    s.Spares i (t.polled [c] got) :=
  { h with
    rpl := by simp [ht]
    port := by simp [ht]
    packets := fun hp => (packetsWritten_read t.missing c t.txLog).trans (h.packets hp) }

theorem State.Spares.pollOnce (h : s.Spares i t) (ht : touchesTransport i = true) : s.Spares i t.pollOnce.1 := by
  rcases t.pollOnce_cases _ rfl with ⟨-, hp⟩ | ⟨-, -, hp⟩ | ⟨-, -, hp⟩ <;> rw [hp] <;> exact h.polled ht _ _

/-- R222: `read_exact(n)` writes `RPL` and takes answers of the transport. -/
theorem State.Spares.readExact (h : s.Spares i t) (ht : touchesTransport i = true) (n : Nat) :
    s.Spares i (t.readExact n).1 :=
  have hs : s.Spares i (t.startRead n) := { h with rpl := by simp [ht] }
  State.readLoop_keeps (fun _ hu => hu.pollOnce ht) _ _ hs

/-- R224, R225, R310: a read, then the rest of the operation or the fault of the read. -/
theorem State.Spares.afterRead {n : Nat} {k : State → State} (h : s.Spares i t) (ht : touchesTransport i = true)
    (hk : ∀ u, s.Spares i u → s.Spares i (k u)) : s.Spares i (afterRead k (t.readExact n)) := by
  have hr := h.readExact ht n
  cases hread : t.readExact n with
  | mk u e =>
    rw [hread] at hr
    cases e with
    | complete => exact hk u hr
    | timeout => exact hr.raise _ _ _ _
    | overlong len => exact hr.raise _ _ _ _

theorem State.Spares.invalidateReply (h : s.Spares i t) : s.Spares i t.invalidateReply := { h with }

theorem State.Spares.latchReply (h : s.Spares i t) (n : Nat) : s.Spares i (t.latchReply n) := { h with }

theorem State.Spares.finishRaw (h : s.Spares i t) (n : Nat) : s.Spares i (t.finishRaw n) := { h with }

theorem State.Spares.finishSend (h : s.Spares i t) (n : Nat) : s.Spares i (t.finishSend n) := { h with }

/-- R203, R208: a send writes one packet and empties `CMD`. -/
theorem State.Spares.sendPacket (h : s.Spares i t) (hp : sendsPacket i = true) (ht : touchesTransport i = true)
    (hw : writesCommand i = true) : s.Spares i t.sendPacket :=
  { h with cmd := by simp [hw], port := by simp [ht], packets := by simp [hp] }

/-- R202 lines 2 to 8: send, take a standard reply, latch and check it, then the rest of the operation. -/
theorem State.Spares.exchange {n : Nat} {k : State → State} (h : s.Spares i t) (hp : sendsPacket i = true)
    (ht : touchesTransport i = true) (hw : writesCommand i = true) (hk : ∀ u, s.Spares i u → s.Spares i (k u)) :
    s.Spares i (t.exchange n (State.checkReply k)) := by
  refine ((h.sendPacket hp ht hw).enterPhase .poll).afterRead ht fun u hu => ?_
  have hl := hu.latchReply n
  exact hl.checkReply (hk _ hl)

/-- R207. -/
theorem State.Spares.exchangeRaw (h : s.Spares i t) (hp : sendsPacket i = true) (ht : touchesTransport i = true)
    (hw : writesCommand i = true) (n : Nat) : s.Spares i (t.exchangeRaw n) :=
  ((h.sendPacket hp ht hw).enterPhase .poll).afterRead ht fun _ hu => hu.finishRaw n

/-- R230: `XP.READ` reads without a send. -/
theorem State.Spares.readOnly (h : s.Spares i t) (ht : touchesTransport i = true) (n : Nat) :
    s.Spares i (t.readOnly n) :=
  (h.invalidateReply.enterPhase .poll).afterRead ht fun _ hu => hu.finishRaw n

/-- R201. -/
theorem State.Spares.sendChecked {n : Nat} {k : State → State} (h : s.Spares i t) (hk : s.Spares i (k t)) :
    s.Spares i (t.sendChecked n k) := h.guarded (h.guarded hk)

/-- R243 line 3: the read-register command replaces the one in `CMD`. -/
theorem State.Spares.beginRegisterRead (h : s.Spares i t) (hw : writesCommand i = true) (id : Byte) :
    s.Spares i (t.beginRegisterRead id) := h.with_command hw _ _

/-- R243 lines 5 to 7. -/
theorem State.Spares.deliverRegister (h : s.Spares i t) (hw : writesResult i = true) (e : RegDescriptor) :
    s.Spares i (t.deliverRegister e) := (h.enterPhase .idle).deliver hw _

end Transport

section Operations

variable {s : State}

/-- R295, R312: an ordinary operation is refused, or its body runs. -/
theorem exec_ordinary_spares {i : Instr} {body : State → State}
    (he : exec i s = .next (s.ordinary body)) (hb : s.Spares i (body s)) :
    ∃ u, exec i s = .next u ∧ s.Spares i u := by
  refine ⟨_, he, ?_⟩
  by_cases hf : s.flt.kind = .noFault
  · rw [State.ordinary_clear body s hf]
    exact hb
  · rw [State.ordinary_latched body s hf]
    exact (State.Spares.refl i s).refuse

theorem exec_srRd_spares (n : Byte) : ∃ u, exec (.srRd n) s = .next u ∧ s.Spares (.srRd n) u := by
  have h := State.Spares.refl (.srRd n) s
  refine ⟨_, exec_srRd n s, ?_⟩
  split
  · exact h.complete _
  · exact h.illegal _

theorem exec_regLookup_spares (id : Byte) :
    ∃ u, exec (.regLookup id) s = .next u ∧ s.Spares (.regLookup id) u := by
  have h := State.Spares.refl (.regLookup id) s
  refine exec_ordinary_spares (exec_regLookup id s) ?_
  split
  · exact h.raise _ _ _ _
  · exact h.complete _

theorem exec_regRead_spares (id : Byte) : ∃ u, exec (.regRead id) s = .next u ∧ s.Spares (.regRead id) u := by
  have h := State.Spares.refl (.regRead id) s
  refine exec_ordinary_spares (exec_regRead id s) ?_
  split
  · exact h.raise _ _ _ _
  next e _ =>
    exact h.guarded ((h.beginRegisterRead rfl id).exchange rfl rfl rfl fun _ hu => hu.deliverRegister rfl e)

theorem exec_st3Decode_spares : ∃ u, exec .st3Decode s = .next u ∧ s.Spares .st3Decode u := by
  have h := State.Spares.refl .st3Decode s
  refine exec_ordinary_spares (exec_st3Decode s) ?_
  split
  · exact h.raise _ _ _ _
  · exact h.complete _

/-- R61: every operation but `SRST` writes only the spaces that list it. Each `rfl` is an entry of the table. -/
theorem exec_spares (i : Instr) (hi : i ≠ .srst) : ∃ u, exec i s = .next u ∧ s.Spares i u := by
  have h := State.Spares.refl i s
  cases i with
  | nop => exact exec_ordinary_spares (exec_nop s) (h.complete _)
  | fack => exact ⟨_, exec_fack s, h.acknowledge.complete _⟩
  | srst => exact absurd rfl hi
  | srRd n => exact exec_srRd_spares n
  | argClr => exact exec_ordinary_spares (exec_argClr s) ((h.with_arg rfl _).complete _)
  | argPush b => exact exec_ordinary_spares (exec_argPush b s) (h.guarded ((h.with_arg rfl _).complete _))
  | argRes => exact exec_ordinary_spares (exec_argRes s) (h.guarded ((h.with_arg rfl _).complete _))
  | resRd idx => exact exec_ordinary_spares (exec_resRd idx s) (h.guarded (h.complete _))
  | payRd idx => exact exec_ordinary_spares (exec_payRd idx s) (h.guarded (h.complete _))
  | fencTxt w => exact exec_ordinary_spares (exec_fencTxt w s) (h.storeField rfl w _)
  | fencNum w sc e => exact exec_ordinary_spares (exec_fencNum w sc e s) (h.storeField rfl w _)
  | fencNumd w => exact exec_ordinary_spares (exec_fencNumd w s) (h.storeField rfl w _)
  | fencBcd w sc e => exact exec_ordinary_spares (exec_fencBcd w sc e s) (h.storeField rfl w _)
  | fencBcdd w => exact exec_ordinary_spares (exec_fencBcdd w s) (h.storeField rfl w _)
  | fencRaw w => exact exec_ordinary_spares (exec_fencRaw w s) (h.storeField rfl w _)
  | fdecTxt w => exact exec_ordinary_spares (exec_fdecTxt w s) (h.decodeArgument rfl w _)
  | fdecNum w sc => exact exec_ordinary_spares (exec_fdecNum w sc s) (h.decodeArgument rfl w _)
  | fdecBcd w sc => exact exec_ordinary_spares (exec_fdecBcd w sc s) (h.decodeArgument rfl w _)
  | fdecRaw w => exact exec_ordinary_spares (exec_fdecRaw w s) (h.decodeArgument rfl w _)
  | fpackTxt w => exact exec_ordinary_spares (exec_fpackTxt w s) (h.packField rfl w _)
  | fpackNum w sc e => exact exec_ordinary_spares (exec_fpackNum w sc e s) (h.packField rfl w _)
  | fpackNumd w => exact exec_ordinary_spares (exec_fpackNumd w s) (h.packField rfl w _)
  | fpackBcd w sc e => exact exec_ordinary_spares (exec_fpackBcd w sc e s) (h.packField rfl w _)
  | fpackBcdd w => exact exec_ordinary_spares (exec_fpackBcdd w s) (h.packField rfl w _)
  | fpackRaw w => exact exec_ordinary_spares (exec_fpackRaw w s) (h.packField rfl w _)
  | funpkTxt w => exact exec_ordinary_spares (exec_funpkTxt w s) (h.unpackField rfl w _)
  | funpkNum w sc => exact exec_ordinary_spares (exec_funpkNum w sc s) (h.unpackField rfl w _)
  | funpkBcd w sc => exact exec_ordinary_spares (exec_funpkBcd w sc s) (h.unpackField rfl w _)
  | funpkRaw w => exact exec_ordinary_spares (exec_funpkRaw w s) (h.unpackField rfl w _)
  | cmdBegin id => exact exec_ordinary_spares (exec_cmdBegin id s) ((h.with_command rfl _ id).complete _)
  | cmdPush b =>
    exact exec_ordinary_spares (exec_cmdPush b s) (h.guarded (h.guarded ((h.with_cmd rfl _).complete _)))
  | csum => exact exec_ordinary_spares (exec_csum s) (h.complete _)
  | cmdSend n =>
    exact exec_ordinary_spares (exec_cmdSend n s)
      (h.sendChecked (h.exchange rfl rfl rfl fun _ hu => hu.finishSend n.toNat))
  | cmdSendr n =>
    exact exec_ordinary_spares (exec_cmdSendr n s) (h.sendChecked (h.exchangeRaw rfl rfl rfl n.toNat))
  | xpRead n => exact exec_ordinary_spares (exec_xpRead n s) (h.guarded (h.readOnly rfl n.toNat))
  | regLookup id => exact exec_regLookup_spares id
  | regRead id => exact exec_regRead_spares id
  | stDecode => exact exec_ordinary_spares (exec_stDecode s) (h.statusCheck (h.complete _))
  | st3Decode => exact exec_st3Decode_spares

end Operations

/-- Settles O17: `SRST` resets the buffers and leaves the transport and the configuration (R52, R294); every other
operation writes only what R61 lists it for. -/
theorem spacesWritten : Obligations.SpacesWritten := by
  unfold Obligations.SpacesWritten
  intro i s t he
  by_cases hi : i = .srst
  · subst hi
    rw [exec_srst] at he
    cases he
    exact ⟨rfl, fun hne => absurd rfl hne, fun _ => rfl, fun _ => ⟨rfl, rfl⟩⟩
  · obtain ⟨u, hu, hs⟩ := exec_spares i hi
    rw [hu] at he
    cases he
    exact ⟨hs.cfg, fun _ => ⟨hs.arg, hs.cmd, hs.res, hs.rpl⟩, hs.packets, hs.port⟩

end Sys2Proof.Machine
end

section
/-! SUPPORT. The decoder against the encoder and against the opcode table (30_encoding.md R90 to R101): every row fixes
the opcode and one run of bits, each format's decoder demands exactly the bits its rows fix, and what it answers encodes
to the word. -/

namespace Sys2Proof

/-- R101: what a row of the table says of a word, as (match, mask): the opcode byte is `o`, and the bits from `s` up are
`v`. -/
def fixedRow (o : Byte) (s : Nat) {l : Nat} (v : BitVec l) : CommandWord × CommandWord :=
  (o ++ v.setWidth 24 <<< s, BitVec.allOnes 8 ++ (BitVec.allOnes l).setWidth 24 <<< s)

theorem fixedRow_match_getLsbD (o : Byte) (s : Nat) {l : Nat} (v : BitVec l) (i : Nat) :
    (fixedRow o s v).1.getLsbD i = if i < 24 then !decide (i < s) && v.getLsbD (i - s) else o.getLsbD (i - 24) := by
  refine (BitVec.getLsbD_append (x := o)).trans ?_
  by_cases h : i < 24
  · simp [h]
  · simp [h]

theorem fixedRow_mask_getLsbD (o : Byte) (s : Nat) {l : Nat} (v : BitVec l) (i : Nat) :
    (fixedRow o s v).2.getLsbD i =
      if i < 24 then !decide (i < s) && decide (i - s < l) else decide (i - 24 < 8) := by
  refine (BitVec.getLsbD_append (x := BitVec.allOnes 8)).trans ?_
  by_cases h : i < 24
  · simp [h]
  · simp [h, -BitVec.reduceAllOnes]

/-- R101: the rows of one opcode, as (match, mask). -/
def rowsOf (o : Byte) : List (CommandWord × CommandWord) :=
  (wordTable.filter (fun r => opcodeOf r.pattern == o)).map (fun r => (r.pattern, r.mask))

/-- R100: `(CW & mask) = match` for one of these rows. -/
def matchesRow (rows : List (CommandWord × CommandWord)) (cw : CommandWord) : Bool :=
  rows.any (fun r => cw &&& r.2 == r.1)

/-- R100: a word matches a row exactly when its opcode and its fixed bits are those of the row. -/
theorem masked_eq_fixedRow_iff (cw : CommandWord) (o : Byte) {s l : Nat} (v : BitVec l) (h : s + l ≤ 24) :
    cw &&& (fixedRow o s v).2 = (fixedRow o s v).1 ↔ opcodeOf cw = o ∧ cw.extractLsb' s l = v := by
  constructor
  · intro hm
    have hbit (i : Nat) := congrArg (fun x => x.getLsbD i) hm
    simp only [BitVec.getLsbD_and, fixedRow_match_getLsbD, fixedRow_mask_getLsbD] at hbit
    constructor
    · ext i hi
      simpa [opcodeOf, BitVec.getLsbD_eq_getElem, hi] using hbit (24 + i)
    · ext i hi
      simpa [BitVec.getLsbD_eq_getElem, (by omega : s + i < 24), hi] using hbit (s + i)
  · rintro ⟨rfl, rfl⟩
    apply BitVec.eq_of_getLsbD_eq
    intro i hi
    simp only [BitVec.getLsbD_and, fixedRow_match_getLsbD, fixedRow_mask_getLsbD]
    split
    · by_cases hs : i < s
      · simp [hs]
      · simp [hs, Bool.and_comm, (by omega : s + (i - s) = i)]
    · simp [opcodeOf, Bool.and_comm, (by omega : 24 + (i - 24) = i)]

theorem low16_eq_iff (cw : CommandWord) (low : Byte) :
    cw.extractLsb' 0 16 = 0#4 ++ 0#4 ++ low ↔
      cw.extractLsb' 12 4 = 0#4 ∧ cw.extractLsb' 8 4 = 0#4 ∧ cw.extractLsb' 0 8 = low := by
  simp only [← BitVec.toNat_inj, toNat_append_eq, BitVec.extractLsb'_toNat, Nat.shiftRight_eq_div_pow, pow_zero,
    Nat.div_one, BitVec.toNat_ofNat, Nat.zero_mod]
  omega

theorem low12_eq_iff (cw : CommandWord) (low : Byte) :
    cw.extractLsb' 0 12 = 0#4 ++ low ↔ cw.extractLsb' 8 4 = 0#4 ∧ cw.extractLsb' 0 8 = low := by
  simp only [← BitVec.toNat_inj, toNat_append_eq, BitVec.extractLsb'_toNat, Nat.shiftRight_eq_div_pow, pow_zero,
    Nat.div_one, BitVec.toNat_ofNat, Nat.zero_mod]
  omega

/-- R97: the low byte of a format F word is its fields `ENC`, `A`, `D` and the bits 2:0. -/
theorem lowByte_eq_iff (cw : CommandWord) (low : Byte) :
    cw.extractLsb' 0 8 = low ↔
      (FieldSpec.ofWord cw).enc = low.extractLsb' 5 3 ∧ (FieldSpec.ofWord cw).a = low.getLsbD 4 ∧
        (FieldSpec.ofWord cw).d = low.getLsbD 3 ∧ (FieldSpec.ofWord cw).low = low.extractLsb' 0 3 := by
  constructor
  · rintro rfl
    simp [FieldSpec.ofWord]
  · rintro ⟨henc, ha, hd, hlow⟩
    apply BitVec.eq_of_getLsbD_eq
    intro i hi
    have henc_bit := congrArg (fun x => x.getLsbD (i - 5)) henc
    have hlow_bit := congrArg (fun x => x.getLsbD i) hlow
    obtain h | rfl | rfl | h : i < 3 ∨ i = 3 ∨ i = 4 ∨ 5 ≤ i := by omega
    · simpa [FieldSpec.ofWord, hi, h] using hlow_bit
    · simpa [FieldSpec.ofWord] using hd
    · simpa [FieldSpec.ofWord] using ha
    · simpa [FieldSpec.ofWord, hi, (by omega : i - 5 < 3), (by omega : 5 + (i - 5) = i)] using henc_bit

/-- R98: the legal combinations of an encode or pack operation. -/
theorem FieldSpec.legal_encode_iff (f : FieldSpec) :
    f.legal true = true ↔ f.low = 0#3 ∧
      (((f.enc = 0#3 ∨ f.enc = 3#3) ∧ f.a = false ∧ f.d = false ∧ f.sc = 0#4 ∧ f.e = 0#4) ∨
        ((f.enc = 1#3 ∨ f.enc = 2#3) ∧ f.a = true ∧ (f.d = true → f.sc = 0#4 ∧ f.e = 0#4))) := by
  simp only [FieldSpec.legal, FieldSpec.alignmentLegal, FieldSpec.scaleLegal, FieldSpec.exponentLegal,
    FieldSpec.digitModeLegal, FieldSpec.numeric]
  grind

/-- R98: the legal combinations of a decode or unpack operation. -/
theorem FieldSpec.legal_decode_iff (f : FieldSpec) :
    f.legal false = true ↔ f.low = 0#3 ∧ f.d = false ∧ f.e = 0#4 ∧
      (((f.enc = 0#3 ∨ f.enc = 3#3) ∧ f.a = false ∧ f.sc = 0#4) ∨ ((f.enc = 1#3 ∨ f.enc = 2#3) ∧ f.a = true)) := by
  simp only [FieldSpec.legal, FieldSpec.alignmentLegal, FieldSpec.scaleLegal, FieldSpec.exponentLegal,
    FieldSpec.digitModeLegal, FieldSpec.numeric]
  grind

/-- R101: a row of format F with `S` and `E` fixed at 0. -/
def plainRow (o low : Byte) : CommandWord × CommandWord := fixedRow o 0 (0#4 ++ 0#4 ++ low)

/-- R101: a row of format F with `S` free and `E` fixed at 0. -/
def scaledRow (o low : Byte) : CommandWord × CommandWord := fixedRow o 0 (0#4 ++ low)

/-- R101: a row of format F with `S` and `E` free. -/
def coefficientRow (o low : Byte) : CommandWord × CommandWord := fixedRow o 0 low

/-- R101: the rows of the opcode of an encode or pack operation. -/
def encodeRows (o : Byte) : List (CommandWord × CommandWord) :=
  [plainRow o 0x00, coefficientRow o 0x30, plainRow o 0x38, coefficientRow o 0x50, plainRow o 0x58, plainRow o 0x60]

/-- R101: the rows of the opcode of a decode or unpack operation. -/
def decodeRows (o : Byte) : List (CommandWord × CommandWord) :=
  [plainRow o 0x00, scaledRow o 0x30, scaledRow o 0x50, plainRow o 0x60]

section Rows

variable {cw : CommandWord} {o : Byte}

@[simp] theorem matchesRow_nil : matchesRow [] cw = false := rfl

theorem matchesRow_cons_iff (ho : opcodeOf cw = o) {s l : Nat} (h : s + l ≤ 24)
    (v : BitVec l) (rows : List (CommandWord × CommandWord)) :
    matchesRow (fixedRow o s v :: rows) cw = true ↔ cw.extractLsb' s l = v ∨ matchesRow rows cw = true := by
  simp only [matchesRow, List.any_cons, Bool.or_eq_true, beq_iff_eq, masked_eq_fixedRow_iff cw o v h, ho, true_and]

theorem matchesRow_plainRow_iff (ho : opcodeOf cw = o) (low : Byte) (rows : List (CommandWord × CommandWord)) :
    matchesRow (plainRow o low :: rows) cw = true ↔
      ((FieldSpec.ofWord cw).sc = 0#4 ∧ (FieldSpec.ofWord cw).e = 0#4 ∧ cw.extractLsb' 0 8 = low) ∨
        matchesRow rows cw = true :=
  (matchesRow_cons_iff ho (by decide) _ rows).trans (or_congr_left (low16_eq_iff cw low))

theorem matchesRow_scaledRow_iff (ho : opcodeOf cw = o) (low : Byte) (rows : List (CommandWord × CommandWord)) :
    matchesRow (scaledRow o low :: rows) cw = true ↔
      ((FieldSpec.ofWord cw).e = 0#4 ∧ cw.extractLsb' 0 8 = low) ∨ matchesRow rows cw = true :=
  (matchesRow_cons_iff ho (by decide) _ rows).trans (or_congr_left (low12_eq_iff cw low))

theorem matchesRow_coefficientRow_iff (ho : opcodeOf cw = o) (low : Byte) (rows : List (CommandWord × CommandWord)) :
    matchesRow (coefficientRow o low :: rows) cw = true ↔
      cw.extractLsb' 0 8 = low ∨ matchesRow rows cw = true :=
  matchesRow_cons_iff ho (by decide) _ rows

/-- R98: "The legal combinations are exactly the F-format rows of rule R101." -/
theorem matchesRow_encodeRows (ho : opcodeOf cw = o) :
    matchesRow (encodeRows o) cw = (FieldSpec.ofWord cw).legal true := by
  rw [Bool.eq_iff_iff, FieldSpec.legal_encode_iff, encodeRows]
  simp only [matchesRow_plainRow_iff ho, matchesRow_coefficientRow_iff ho, lowByte_eq_iff, matchesRow_nil]
  grind

theorem matchesRow_decodeRows (ho : opcodeOf cw = o) :
    matchesRow (decodeRows o) cw = (FieldSpec.ofWord cw).legal false := by
  rw [Bool.eq_iff_iff, FieldSpec.legal_decode_iff, decodeRows]
  simp only [matchesRow_plainRow_iff ho, matchesRow_scaledRow_iff ho, lowByte_eq_iff, matchesRow_nil]
  grind

end Rows

theorem opcodeOf_eq_of_admits {r : WordRow} {cw : CommandWord} (hr : r ∈ wordTable) (h : r.admits cw = true) :
    opcodeOf r.pattern = opcodeOf cw := by
  have hmask : ∀ q ∈ wordTable, opcodeOf q.mask = BitVec.allOnes 8 := by decide
  have hp : cw &&& r.mask = r.pattern := by simpa [WordRow.admits] using h
  rw [← hp, opcodeOf, BitVec.extractLsb'_and]
  change opcodeOf cw &&& opcodeOf r.mask = _
  rw [hmask r hr, BitVec.and_allOnes]

/-- R100, R101: only the rows of a word's own opcode can make it legal. -/
theorem wordLegal_eq_matchesRow (cw : CommandWord) : wordLegal cw = matchesRow (rowsOf (opcodeOf cw)) cw := by
  rw [Bool.eq_iff_iff]
  simp only [wordLegal, matchesRow, rowsOf, List.any_map, List.any_eq_true, List.mem_filter, beq_iff_eq]
  constructor
  · rintro ⟨r, hr, ha⟩
    exact ⟨r, ⟨hr, opcodeOf_eq_of_admits hr ha⟩, ha⟩
  · rintro ⟨r, ⟨hr, -⟩, ha⟩
    exact ⟨r, hr, ha⟩

/-- R100: no row has an opcode outside the assigned ones. -/
theorem opcodeAssigned_of_rowsOf {cw : CommandWord} (h : rowsOf (opcodeOf cw) ≠ []) : opcodeAssigned cw = true := by
  have hall : ∀ r ∈ wordTable, assignedOpcodes.contains (opcodeOf r.pattern) = true := by decide
  obtain ⟨p, hp⟩ := List.exists_mem_of_ne_nil _ h
  simp only [rowsOf, List.mem_map, List.mem_filter, beq_iff_eq] at hp
  obtain ⟨r, ⟨hr, ho⟩, -⟩ := hp
  have hc := hall r hr
  rwa [ho] at hc

theorem wordLegal_of_unassigned {cw : CommandWord} (h : opcodeAssigned cw = false) : wordLegal cw = false := by
  have hnil : rowsOf (opcodeOf cw) = [] := by
    by_contra hne
    simp [opcodeAssigned_of_rowsOf hne] at h
  rw [wordLegal_eq_matchesRow, hnil]
  rfl

/-- R100: a word matches at most one row: the two rows would agree on the bits both of them fix. -/
theorem rows_disjoint {cw : CommandWord} {r q : WordRow} (hr : r ∈ wordTable) (hq : q ∈ wordTable)
    (har : r.admits cw = true) (haq : q.admits cw = true) : r = q := by
  have hagree : ∀ r ∈ wordTable, ∀ q ∈ wordTable, r.pattern &&& q.mask = q.pattern &&& r.mask → r = q := by
    decide
  refine hagree r hr q hq ?_
  simp only [WordRow.admits, beq_iff_eq] at har haq
  rw [← har, ← haq, BitVec.and_assoc, BitVec.and_assoc, BitVec.and_comm r.mask]

/-- R90, R100: the answer `d` to the word `cw` agrees with the encoder, with the rows and with the assigned opcodes. -/
structure DecodesWord (cw : CommandWord) (d : Decoded) : Prop where
  encodes : ∀ i, d = .legal i → cw = encode i
  rows : (∃ i, d = .legal i) ↔ wordLegal cw = true
  reason : ∀ e, d = .illegal e → e = if opcodeAssigned cw then .malformedWord else .unassignedOpcode

section Formats

variable {cw : CommandWord} {o : Byte}

/-- R98, at the opcodes of `FENC` and `FPACK`. -/
theorem wordLegal_eq_legal_encode (ho : opcodeOf cw = o) (hr : rowsOf o = encodeRows o) :
    wordLegal cw = (FieldSpec.ofWord cw).legal true := by
  rw [wordLegal_eq_matchesRow, ho, hr, matchesRow_encodeRows ho]

/-- R98, at the opcodes of `FDEC` and `FUNPK`. -/
theorem wordLegal_eq_legal_decode (ho : opcodeOf cw = o) (hr : rowsOf o = decodeRows o) :
    wordLegal cw = (FieldSpec.ofWord cw).legal false := by
  rw [wordLegal_eq_matchesRow, ho, hr, matchesRow_decodeRows ho]

theorem DecodesWord.legal {i : Instr} (hw : wordLegal cw = true) (he : cw = encode i) : DecodesWord cw (.legal i) where
  encodes j hj := by cases hj; exact he
  rows := ⟨fun _ => hw, fun _ => ⟨i, rfl⟩⟩
  reason _ hj := nomatch hj

theorem DecodesWord.malformed (ha : opcodeAssigned cw = true) (hw : wordLegal cw = false) :
    DecodesWord cw (.illegal .malformedWord) where
  encodes _ hj := nomatch hj
  rows := by simp [hw]
  reason e he := by cases he; simp [ha]

theorem DecodesWord.unassigned (ha : opcodeAssigned cw = false) : DecodesWord cw (.illegal .unassignedOpcode) where
  encodes _ hj := nomatch hj
  rows := by simp [wordLegal_of_unassigned ha]
  reason e he := by cases he; simp [ha]

theorem opcodeAssigned_of_row (ho : opcodeOf cw = o) {p : CommandWord × CommandWord} {ps : List _}
    (hr : rowsOf o = p :: ps) : opcodeAssigned cw = true :=
  opcodeAssigned_of_rowsOf (by rw [ho, hr]; exact List.cons_ne_nil p ps)

theorem DecodesWord.ite {c : Prop} [Decidable c] {d e : Decoded} (hd : c → DecodesWord cw d)
    (he : ¬ c → DecodesWord cw e) : DecodesWord cw (if c then d else e) := by
  split
  next h => exact hd h
  next h => exact he h

/-- R100: a check of the fields that passes exactly for the words the rows make legal. -/
theorem DecodesWord.of_check {c : Prop} [Decidable c] {d : Decoded} (ha : opcodeAssigned cw = true)
    (hw : wordLegal cw = true ↔ c) (hd : c → DecodesWord cw d) :
    DecodesWord cw (if c then d else .illegal .malformedWord) := by
  refine .ite hd fun h => .malformed ha ?_
  rwa [← hw, Bool.not_eq_true] at h

/-- R91 to R94, R96: a format whose only demand is that its bits from `s` up are 0. -/
theorem DecodesWord.of_reserved {i : Instr} {s l : Nat} (hl : s + l ≤ 24) (ho : opcodeOf cw = o)
    (hr : rowsOf o = [fixedRow o s 0#l]) (he : cw.extractLsb' s l = 0#l → cw = encode i) :
    DecodesWord cw (if cw.extractLsb' s l = 0#l then .legal i else .illegal .malformedWord) := by
  have hw : wordLegal cw = true ↔ cw.extractLsb' s l = 0#l := by
    simp [wordLegal_eq_matchesRow, ho, hr, matchesRow_cons_iff ho hl, matchesRow_nil]
  exact .of_check (opcodeAssigned_of_row ho hr) hw fun h => .legal (hw.2 h) (he h)

theorem decodeZ_decodes {i : Instr} (ho : opcodeOf cw = o) (hr : rowsOf o = [fixedRow o 0 0#24])
    (he : encode i = encodeZ o) : DecodesWord cw (decodeZ cw i) :=
  .of_reserved (by decide) ho hr fun h => by rw [he, ← ho]; exact eq_encodeZ cw h

theorem decodeB_decodes {k : Byte → Instr} (ho : opcodeOf cw = o) (hr : rowsOf o = [fixedRow o 8 0#16])
    (he : ∀ b, encode (k b) = encodeB o b) : DecodesWord cw (decodeB cw k) :=
  .of_reserved (by decide) ho hr fun h => by rw [he, ← ho]; exact eq_encodeB cw h

theorem decodeX_decodes {k : Half → Instr} (ho : opcodeOf cw = o) (hr : rowsOf o = [fixedRow o 16 0#8])
    (he : ∀ idx, encode (k idx) = encodeX o idx) : DecodesWord cw (decodeX cw k) :=
  .of_reserved (by decide) ho hr fun h => by rw [he, ← ho]; exact eq_encodeX cw h

theorem decodeR_decodes {k : Half → Instr} (ho : opcodeOf cw = o) (hr : rowsOf o = [fixedRow o 0 0#8])
    (he : ∀ n, encode (k n) = encodeN o n 0x00#8) : DecodesWord cw (decodeR cw k) :=
  .of_reserved (by decide) ho hr fun h => by rw [he, ← ho, ← h]; exact eq_encodeN cw

/-- R94: format I has no reserved bit. -/
theorem decodeI_decodes {k : BitVec 24 → Instr} (ho : opcodeOf cw = o) (hr : rowsOf o = [fixedRow o 0 0#0])
    (he : ∀ id, encode (k id) = encodeI o id) : DecodesWord cw (decodeI cw k) := by
  have hcw : cw = encode (k (cw.extractLsb' 0 24)) := by rw [he, ← ho]; exact eq_encodeI cw
  have h := DecodesWord.of_reserved (s := 0) (l := 0) (by decide) ho hr fun _ => hcw
  rwa [if_pos (Subsingleton.elim _ _)] at h

/-- R95: the low byte of a format S word is its bits 7:1 and `RAW`. -/
theorem rawByte_eq_iff (cw : CommandWord) (raw : Bool) :
    cw.extractLsb' 0 8 = 0#7 ++ BitVec.ofBool raw ↔ cw.extractLsb' 1 7 = 0#7 ∧ cw.getLsbD 0 = raw := by
  rw [BitVec.getLsbD, Nat.testBit_zero, eq_comm (a := decide _)]
  simp only [← BitVec.toNat_inj, toNat_append_eq, BitVec.extractLsb'_toNat, Nat.shiftRight_eq_div_pow]
  cases raw <;> simp <;> omega

theorem decodeS_decodes (ho : opcodeOf cw = o)
    (hr : rowsOf o = [fixedRow o 0 (0#7 ++ BitVec.ofBool false), fixedRow o 0 (0#7 ++ BitVec.ofBool true)])
    (hs : ∀ n, encode (.cmdSend n) = encodeN o n 0x00#8) (hsr : ∀ n, encode (.cmdSendr n) = encodeN o n 0x01#8) :
    DecodesWord cw (decodeS cw) := by
  have hw : wordLegal cw = true ↔ cw.extractLsb' 1 7 = 0#7 := by
    rw [wordLegal_eq_matchesRow, ho, hr, matchesRow_cons_iff ho (by decide), matchesRow_cons_iff ho (by decide),
      rawByte_eq_iff, rawByte_eq_iff]
    cases cw.getLsbD 0 <;> simp
  have hcw := eq_encodeN cw
  rw [ho] at hcw
  refine .of_check (opcodeAssigned_of_row ho hr) hw fun h => ?_
  split
  next hraw =>
    rw [(rawByte_eq_iff cw true).2 ⟨h, hraw⟩] at hcw
    exact .legal (hw.2 h) (hcw.trans (hsr _).symm)
  next hraw =>
    rw [(rawByte_eq_iff cw false).2 ⟨h, by simpa using hraw⟩] at hcw
    exact .legal (hw.2 h) (hcw.trans (hs _).symm)

/-- R97: a word from its fields in format F. -/
theorem eq_encodeF_of_fields (ho : opcodeOf cw = o) {f : FieldSpec} (hf : FieldSpec.ofWord cw = f) {low : Byte}
    (henc : f.enc = low.extractLsb' 5 3) (ha : f.a = low.getLsbD 4) (hd : f.d = low.getLsbD 3)
    (hlow : f.low = low.extractLsb' 0 3) : cw = encodeF o f.w f.sc f.e low := by
  subst hf
  have hcw := eq_encodeF cw
  rwa [ho, (lowByte_eq_iff cw low).2 ⟨henc, ha, hd, hlow⟩] at hcw

/-- R97: the answer that takes a word's fields back to its encoding. -/
theorem DecodesWord.of_fields {i : Instr} (hw : wordLegal cw = true) (ho : opcodeOf cw = o) {f : FieldSpec}
    (hf : FieldSpec.ofWord cw = f) {low : Byte} (henc : f.enc = low.extractLsb' 5 3) (ha : f.a = low.getLsbD 4)
    (hd : f.d = low.getLsbD 3) (hlow : f.low = low.extractLsb' 0 3) (he : encode i = encodeF o f.w f.sc f.e low) :
    DecodesWord cw (.legal i) :=
  .legal hw ((eq_encodeF_of_fields ho hf henc ha hd hlow).trans he.symm)

theorem decodeFEncode_decodes {txt numd bcdd raw : Byte → Instr} {num bcd : Byte → BitVec 4 → BitVec 4 → Instr}
    (ho : opcodeOf cw = o) (hr : rowsOf o = encodeRows o)
    (htxt : ∀ w, encode (txt w) = encodeF o w 0 0 0x00)
    (hnum : ∀ w sc e, encode (num w sc e) = encodeF o w sc e 0x30)
    (hnumd : ∀ w, encode (numd w) = encodeF o w 0 0 0x38)
    (hbcd : ∀ w sc e, encode (bcd w sc e) = encodeF o w sc e 0x50)
    (hbcdd : ∀ w, encode (bcdd w) = encodeF o w 0 0 0x58) (hraw : ∀ w, encode (raw w) = encodeF o w 0 0 0x60) :
    DecodesWord cw (decodeFEncode cw txt num numd bcd bcdd raw) := by
  have hw := wordLegal_eq_legal_encode ho hr
  refine .of_check (opcodeAssigned_of_row ho hr) (by rw [hw]) fun h => ?_
  rw [h] at hw
  generalize hf : FieldSpec.ofWord cw = f at h ⊢
  obtain ⟨hlow, ⟨henc | henc, ha, hd, hs, he⟩ | ⟨henc | henc, ha, hd⟩⟩ := f.legal_encode_iff.1 h
  · simpa [henc] using DecodesWord.of_fields (low := 0x00) hw ho hf henc ha hd hlow (by rw [htxt, hs, he]; rfl)
  · simpa [henc] using DecodesWord.of_fields (low := 0x60) hw ho hf henc ha hd hlow (by rw [hraw, hs, he]; rfl)
  · cases hD : f.d with
    | false => simpa [henc, hD] using DecodesWord.of_fields (low := 0x30) hw ho hf henc ha hD hlow (hnum _ _ _)
    | true =>
      obtain ⟨hs, he⟩ := hd hD
      simpa [henc, hD] using DecodesWord.of_fields (low := 0x38) hw ho hf henc ha hD hlow (by rw [hnumd, hs, he]; rfl)
  · cases hD : f.d with
    | false => simpa [henc, hD] using DecodesWord.of_fields (low := 0x50) hw ho hf henc ha hD hlow (hbcd _ _ _)
    | true =>
      obtain ⟨hs, he⟩ := hd hD
      simpa [henc, hD] using DecodesWord.of_fields (low := 0x58) hw ho hf henc ha hD hlow (by rw [hbcdd, hs, he]; rfl)

theorem decodeFDecode_decodes {txt raw : Byte → Instr} {num bcd : Byte → BitVec 4 → Instr}
    (ho : opcodeOf cw = o) (hr : rowsOf o = decodeRows o)
    (htxt : ∀ w, encode (txt w) = encodeF o w 0 0 0x00) (hnum : ∀ w sc, encode (num w sc) = encodeF o w sc 0 0x30)
    (hbcd : ∀ w sc, encode (bcd w sc) = encodeF o w sc 0 0x50) (hraw : ∀ w, encode (raw w) = encodeF o w 0 0 0x60) :
    DecodesWord cw (decodeFDecode cw txt num bcd raw) := by
  have hw := wordLegal_eq_legal_decode ho hr
  refine .of_check (opcodeAssigned_of_row ho hr) (by rw [hw]) fun h => ?_
  rw [h] at hw
  generalize hf : FieldSpec.ofWord cw = f at h ⊢
  obtain ⟨hlow, hd, he, ⟨henc | henc, ha, hs⟩ | ⟨henc | henc, ha⟩⟩ := f.legal_decode_iff.1 h
  · simpa [henc] using DecodesWord.of_fields (low := 0x00) hw ho hf henc ha hd hlow (by rw [htxt, hs, he]; rfl)
  · simpa [henc] using DecodesWord.of_fields (low := 0x60) hw ho hf henc ha hd hlow (by rw [hraw, hs, he]; rfl)
  · simpa [henc] using DecodesWord.of_fields (low := 0x30) hw ho hf henc ha hd hlow (by rw [hnum, he]; rfl)
  · simpa [henc] using DecodesWord.of_fields (low := 0x50) hw ho hf henc ha hd hlow (by rw [hbcd, he]; rfl)

end Formats

/-- R90, R100, R101: the decoder opcode by opcode. Each `rfl` is an entry of the table or of the encoder. -/
theorem decode_decodes (cw : CommandWord) : DecodesWord cw (decode cw) := by
  rw [decode]
  refine .ite (fun h => decodeZ_decodes h rfl rfl) fun h00 => ?_
  refine .ite (fun h => decodeZ_decodes h rfl rfl) fun h01 => ?_
  refine .ite (fun h => decodeZ_decodes h rfl rfl) fun h02 => ?_
  refine .ite (fun h => decodeB_decodes h rfl fun _ => rfl) fun h03 => ?_
  refine .ite (fun h => decodeZ_decodes h rfl rfl) fun h10 => ?_
  refine .ite (fun h => decodeB_decodes h rfl fun _ => rfl) fun h11 => ?_
  refine .ite (fun h => decodeZ_decodes h rfl rfl) fun h12 => ?_
  refine .ite (fun h => decodeX_decodes h rfl fun _ => rfl) fun h13 => ?_
  refine .ite (fun h => decodeX_decodes h rfl fun _ => rfl) fun h14 => ?_
  refine .ite (fun h => decodeFEncode_decodes h rfl (fun _ => rfl) (fun _ _ _ => rfl) (fun _ => rfl) (fun _ _ _ => rfl)
    (fun _ => rfl) (fun _ => rfl)) fun h20 => ?_
  refine .ite (fun h => decodeFDecode_decodes h rfl (fun _ => rfl) (fun _ _ => rfl) (fun _ _ => rfl)
    (fun _ => rfl)) fun h21 => ?_
  refine .ite (fun h => decodeFEncode_decodes h rfl (fun _ => rfl) (fun _ _ _ => rfl) (fun _ => rfl) (fun _ _ _ => rfl)
    (fun _ => rfl) (fun _ => rfl)) fun h22 => ?_
  refine .ite (fun h => decodeFDecode_decodes h rfl (fun _ => rfl) (fun _ _ => rfl) (fun _ _ => rfl)
    (fun _ => rfl)) fun h23 => ?_
  refine .ite (fun h => decodeI_decodes h rfl fun _ => rfl) fun h30 => ?_
  refine .ite (fun h => decodeB_decodes h rfl fun _ => rfl) fun h31 => ?_
  refine .ite (fun h => decodeZ_decodes h rfl rfl) fun h32 => ?_
  refine .ite (fun h => decodeS_decodes h rfl (fun _ => rfl) (fun _ => rfl)) fun h33 => ?_
  refine .ite (fun h => decodeR_decodes h rfl fun _ => rfl) fun h38 => ?_
  refine .ite (fun h => decodeB_decodes h rfl fun _ => rfl) fun h40 => ?_
  refine .ite (fun h => decodeB_decodes h rfl fun _ => rfl) fun h41 => ?_
  refine .ite (fun h => decodeZ_decodes h rfl rfl) fun h50 => ?_
  refine .ite (fun h => decodeZ_decodes h rfl rfl) fun h51 => ?_
  have ha : assignedOpcodes.contains (opcodeOf cw) = false := by simp [assignedOpcodes, *]
  exact .unassigned ha

/-- R90: no bit of an operand is lost on the way to the word and back. -/
theorem decode_encode (i : Instr) : decode (encode i) = .legal i := by
  cases i with
  | nop => exact Laws.DecodesBack.nop
  | fack => exact Laws.DecodesBack.fack
  | srst => exact Laws.DecodesBack.srst
  | srRd n => exact Laws.DecodesBack.srRd n
  | argClr => exact Laws.DecodesBack.argClr
  | argPush b => exact Laws.DecodesBack.argPush b
  | argRes => exact Laws.DecodesBack.argRes
  | resRd idx => exact Laws.DecodesBack.resRd idx
  | payRd idx => exact Laws.DecodesBack.payRd idx
  | fencTxt w => exact Laws.DecodesBack.fencTxt w
  | fencNum w sc e => exact Laws.DecodesBack.fencNum w sc e
  | fencNumd w => exact Laws.DecodesBack.fencNumd w
  | fencBcd w sc e => exact Laws.DecodesBack.fencBcd w sc e
  | fencBcdd w => exact Laws.DecodesBack.fencBcdd w
  | fencRaw w => exact Laws.DecodesBack.fencRaw w
  | fdecTxt w => exact Laws.DecodesBack.fdecTxt w
  | fdecNum w sc => exact Laws.DecodesBack.fdecNum w sc
  | fdecBcd w sc => exact Laws.DecodesBack.fdecBcd w sc
  | fdecRaw w => exact Laws.DecodesBack.fdecRaw w
  | fpackTxt w => exact Laws.DecodesBack.fpackTxt w
  | fpackNum w sc e => exact Laws.DecodesBack.fpackNum w sc e
  | fpackNumd w => exact Laws.DecodesBack.fpackNumd w
  | fpackBcd w sc e => exact Laws.DecodesBack.fpackBcd w sc e
  | fpackBcdd w => exact Laws.DecodesBack.fpackBcdd w
  | fpackRaw w => exact Laws.DecodesBack.fpackRaw w
  | funpkTxt w => exact Laws.DecodesBack.funpkTxt w
  | funpkNum w sc => exact Laws.DecodesBack.funpkNum w sc
  | funpkBcd w sc => exact Laws.DecodesBack.funpkBcd w sc
  | funpkRaw w => exact Laws.DecodesBack.funpkRaw w
  | cmdBegin id => exact Laws.DecodesBack.cmdBegin id
  | cmdPush b => exact Laws.DecodesBack.cmdPush b
  | csum => exact Laws.DecodesBack.csum
  | cmdSend n => exact Laws.DecodesBack.cmdSend n
  | cmdSendr n => exact Laws.DecodesBack.cmdSendr n
  | xpRead n => exact Laws.DecodesBack.xpRead n
  | regLookup id => exact Laws.DecodesBack.regLookup id
  | regRead id => exact Laws.DecodesBack.regRead id
  | stDecode => exact Laws.DecodesBack.stDecode
  | st3Decode => exact Laws.DecodesBack.st3Decode

theorem decode_eq_legal_iff (cw : CommandWord) (i : Instr) : decode cw = .legal i ↔ cw = encode i := by
  constructor
  · exact (decode_decodes cw).encodes i
  · rintro rfl
    exact decode_encode i

/-- Settles O1: the decoder's checks lead back to the encoder's formats, and every operation is read back. -/
theorem decodeInvertsEncode : Obligations.DecodeInvertsEncode := by
  unfold Obligations.DecodeInvertsEncode
  exact decode_eq_legal_iff

/-- Settles O4: each word is the encoding of its operation, and the decoder reads encodings back. -/
theorem writtenWordsDecode : Obligations.WrittenWordsDecode := by
  unfold Obligations.WrittenWordsDecode
  simp only [decode_eq_legal_iff]
  decide

/-- Settles O3: the rows of each of the four opcodes are those of the fields. -/
theorem fieldCombinationsAreTheRows : Obligations.FieldCombinationsAreTheRows := by
  unfold Obligations.FieldCombinationsAreTheRows
  refine fun cw => ⟨?_, ?_⟩
  · rintro (ho | ho)
    · exact wordLegal_eq_legal_encode ho rfl
    · exact wordLegal_eq_legal_encode ho rfl
  · rintro (ho | ho)
    · exact wordLegal_eq_legal_decode ho rfl
    · exact wordLegal_eq_legal_decode ho rfl

end Sys2Proof

namespace Sys2Proof.Machine

/-- R100, R308: the reason an illegal word raises. -/
theorem step_of_word_not_legal {s : State} {t : Transaction} {rest : List Transaction} (hin : s.hostIn = t :: rest)
    (hi : s.seq = .idle) (hf : s.flt.kind = .noFault) (hw : wordLegal t.cw = false) :
    step s = .next ((s.accept t rest).faulted .illegalOp 0#8
      (if opcodeAssigned t.cw then 2#16 else 1#16) .noTable) := by
  have hdec := decode_decodes t.cw
  cases hd : decode t.cw with
  | legal i =>
    have hlegal := hdec.rows.1 ⟨i, hd⟩
    simp [hw] at hlegal
  | illegal e =>
    rw [step_of_illegal hi hin hd, State.rejectWord, if_pos (.inl hf), State.illegal_clear _ (s.accept t rest) hf,
      hdec.reason e hd]
    split <;> rfl

/-- Settles O2: legality opcode by opcode, disjointness row by row, and the reason of the decoder. -/
theorem illegalWordsRaise : Obligations.IllegalWordsRaise := by
  unfold Obligations.IllegalWordsRaise
  refine fun cw => ⟨(decode_decodes cw).rows, fun r hr q hq => rows_disjoint hr hq, ?_⟩
  intro s xs rest hin hi hf hw
  have hstep := step_of_word_not_legal hin hi hf hw
  exact hstep

end Sys2Proof.Machine
end

section
/-! SUPPORT. What the host is told of an operation that ran with no fault latched (30_encoding.md R102, 60_exceptions.md
R310, R326): the completion and the latch agree. -/

namespace Sys2Proof.Machine

/-- R15: between `s` and `t` no completion was returned, and no fault is latched in `t`. -/
structure State.Underway (s t : State) : Prop where
  completions : t.completions = s.completions
  clear : t.flt.kind = .noFault

/-- R102, R310, R326: the transaction in hand in `s` was completed in `t` with the fault `t` has latched. -/
def State.Reports (s t : State) : Prop :=
  ∃ c, t.completions = c :: s.completions ∧ c.cc = t.flt.kind.code ∧
    (t.flt.kind ≠ .noFault → c.xd = 0#64 ∧ t.seq = .idle)

section Endings

variable {s t : State}

theorem State.Underway.refl (h : s.flt.kind = .noFault) : s.Underway s := ⟨rfl, h⟩

theorem State.Underway.enterPhase (h : s.Underway t) (p : Phase) : s.Underway (t.enterPhase p) :=
  ⟨h.completions, h.clear⟩

/-- R15: `complete(v)` reports `CC = 0`. -/
theorem State.Underway.complete (h : s.Underway t) (v : Datum) : s.Reports (t.complete v) :=
  ⟨⟨0#4, v⟩, congrArg _ h.completions, by simp [h.clear, FaultKind.code], fun hk => absurd h.clear hk⟩

/-- R310: a raise reports the kind it latches. -/
theorem State.Underway.raise (h : s.Underway t) (k : FaultKind) (sub : Byte) (det : Half) (tbl : FaultTable) :
    s.Reports (t.raise k sub det tbl) :=
  ⟨⟨k.code, 0#64⟩, congrArg _ h.completions, by simp [h.clear], fun _ => ⟨rfl, rfl⟩⟩

theorem State.Underway.illegal (h : s.Underway t) (r : IllegalReason) : s.Reports (t.illegal r) := h.raise _ _ _ _

theorem State.Underway.raiseCodec (h : s.Underway t) (e : CodecFault) : s.Reports (t.raiseCodec e) := by
  cases e with
  | overflow => exact h.raise _ _ _ _
  | invalid index => exact h.raise _ _ _ _

/-- R308: a check that raises `IllegalOp` where it fails, before the rest of the operation. -/
theorem State.Underway.guarded {p : Prop} [Decidable p] {r : IllegalReason} {u : State} (h : s.Underway t)
    (hu : s.Reports u) : s.Reports (if p then t.illegal r else u) := by
  split
  · exact h.illegal r
  · exact hu

/-- R121, R133: the end of every `FENC.*`. -/
theorem State.Underway.storeField (h : s.Underway t) (w : Byte) (r : Except CodecFault ByteString) :
    s.Reports (t.storeField w r) := by
  cases r with
  | error e => exact h.raiseCodec e
  | ok f => exact State.Underway.complete ⟨h.completions, h.clear⟩ _

/-- R166: the end of every `FPACK.*`. -/
theorem State.Underway.packField (h : s.Underway t) (w : Byte) (r : Except CodecFault ByteString) :
    s.Reports (t.packField w r) := by
  refine h.guarded (h.guarded ?_)
  cases r with
  | error e => exact h.raiseCodec e
  | ok f => exact State.Underway.complete ⟨h.completions, h.clear⟩ _

/-- R139 to R141: the result steps of a decode. -/
theorem State.Underway.deliver (h : s.Underway t) (r : Except CodecFault FieldValue) : s.Reports (t.deliver r) := by
  cases r with
  | error e => exact h.raiseCodec e
  | ok v => exact State.Underway.complete ⟨h.completions, h.clear⟩ _

/-- R139, R303: the end of every `FDEC.*`. -/
theorem State.Underway.decodeArgument (h : s.Underway t) (w : Byte)
    (dec : ByteString → Except CodecFault FieldValue) : s.Reports (t.decodeArgument w dec) := by
  unfold State.decodeArgument
  split
  · exact h.deliver _
  · exact h.raiseCodec _

/-- R173: the end of every `FUNPK.*`. -/
theorem State.Underway.unpackField (h : s.Underway t) (w : Byte) (dec : ByteString → Except CodecFault FieldValue) :
    s.Reports (t.unpackField w dec) := h.guarded (h.deliver _)

/-- R260: the status check raises, or the rest of the operation ends it. -/
theorem State.Underway.statusCheck {st1 st2 : Byte} {k : State → State} (h : s.Underway t) (hk : s.Reports (k t)) :
    s.Reports (t.statusCheck st1 st2 k) := by
  unfold State.statusCheck
  split
  · exact h.raise _ _ _ _
  · exact hk

/-- R202 line 8, R206: the same, where the check may be skipped. -/
theorem State.Underway.checkReply {k : State → State} (h : s.Underway t) (hk : s.Reports (k t)) :
    s.Reports (t.checkReply k) := by
  unfold State.checkReply
  split
  · exact hk
  · exact h.statusCheck hk

end Endings

section Transport

variable {s t : State}

/-- R222 lines 3 to 11: a poll completes and raises nothing by itself. -/
theorem State.Underway.pollOnce (h : s.Underway t) : s.Underway t.pollOnce.1 := by
  rcases t.pollOnce_cases _ rfl with ⟨-, hp⟩ | ⟨-, -, hp⟩ | ⟨-, -, hp⟩ <;> rw [hp] <;>
    exact ⟨h.completions, h.clear⟩

/-- R224, R225, R310: a read, then the rest of the operation or the fault of the read. -/
theorem State.Underway.afterRead {n : Nat} {k : State → State} (h : s.Underway t)
    (hk : ∀ u, s.Underway u → s.Reports (k u)) : s.Reports (afterRead k (t.readExact n)) := by
  have hstart : s.Underway (t.startRead n) := ⟨h.completions, h.clear⟩
  have hr : s.Underway (t.readExact n).1 := State.readLoop_keeps (fun _ hu => hu.pollOnce) _ _ hstart
  cases hread : t.readExact n with
  | mk u e =>
    rw [hread] at hr
    cases e with
    | complete => exact hk u hr
    | timeout => exact hr.raise _ _ _ _
    | overlong len => exact hr.raise _ _ _ _

/-- R207, R230: the end of a raw reply. -/
theorem State.Underway.finishRaw (h : s.Underway t) (n : Nat) : s.Reports (t.finishRaw n) :=
  have hu : s.Underway { t with pbase := 0#16, plen := half n, seq := .idle } := ⟨h.completions, h.clear⟩
  hu.complete _

/-- R202 line 9. -/
theorem State.Underway.finishSend (h : s.Underway t) (n : Nat) : s.Reports (t.finishSend n) :=
  (h.enterPhase .idle).complete _

/-- R243 lines 5 to 7. -/
theorem State.Underway.deliverRegister (h : s.Underway t) (e : RegDescriptor) : s.Reports (t.deliverRegister e) :=
  (h.enterPhase .idle).deliver _

/-- R202 lines 2 to 8: send, take a standard reply, latch and check it, then the rest of the operation. -/
theorem State.Underway.exchange {n : Nat} {k : State → State} (h : s.Underway t)
    (hk : ∀ u, s.Underway u → s.Reports (k u)) : s.Reports (t.exchange n (State.checkReply k)) := by
  have hsent : s.Underway t.sendPacket := ⟨h.completions, h.clear⟩
  refine (hsent.enterPhase .poll).afterRead fun u hu => ?_
  have hl : s.Underway (u.latchReply n) := ⟨hu.completions, hu.clear⟩
  exact hl.checkReply (hk _ hl)

/-- R207. -/
theorem State.Underway.exchangeRaw (h : s.Underway t) (n : Nat) : s.Reports (t.exchangeRaw n) :=
  have hsent : s.Underway t.sendPacket := ⟨h.completions, h.clear⟩
  (hsent.enterPhase .poll).afterRead fun _ hu => hu.finishRaw n

/-- R230: `XP.READ` reads without a send. -/
theorem State.Underway.readOnly (h : s.Underway t) (n : Nat) : s.Reports (t.readOnly n) :=
  have hinv : s.Underway t.invalidateReply := ⟨h.completions, h.clear⟩
  (hinv.enterPhase .poll).afterRead fun _ hu => hu.finishRaw n

/-- R201: the pre-I/O checks of a send. -/
theorem State.Underway.sendChecked {n : Nat} {k : State → State} (h : s.Underway t) (hk : s.Reports (k t)) :
    s.Reports (t.sendChecked n k) := h.guarded (h.guarded hk)

end Transport

section Operations

variable {s : State}

/-- R295: with nothing latched, an ordinary operation runs its body. -/
theorem exec_ordinary_reports (hf : s.flt.kind = .noFault) {i : Instr} {body : State → State}
    (he : exec i s = .next (s.ordinary body)) (hb : s.Reports (body s)) : ∃ u, exec i s = .next u ∧ s.Reports u :=
  ⟨body s, by rw [he, State.ordinary_clear body s hf], hb⟩

theorem exec_srRd_reports (hf : s.flt.kind = .noFault) (n : Byte) :
    ∃ u, exec (.srRd n) s = .next u ∧ s.Reports u := by
  have h := State.Underway.refl hf
  refine ⟨_, exec_srRd n s, ?_⟩
  split
  · exact h.complete _
  · exact h.illegal _

theorem exec_regLookup_reports (hf : s.flt.kind = .noFault) (id : Byte) :
    ∃ u, exec (.regLookup id) s = .next u ∧ s.Reports u := by
  have h := State.Underway.refl hf
  refine exec_ordinary_reports hf (exec_regLookup id s) ?_
  split
  · exact h.raise _ _ _ _
  · exact h.complete _

theorem exec_regRead_reports (hf : s.flt.kind = .noFault) (id : Byte) :
    ∃ u, exec (.regRead id) s = .next u ∧ s.Reports u := by
  have h := State.Underway.refl hf
  refine exec_ordinary_reports hf (exec_regRead id s) ?_
  split
  · exact h.raise _ _ _ _
  next e _ =>
    have hb : s.Underway (s.beginRegisterRead id) := ⟨rfl, hf⟩
    exact h.guarded (hb.exchange fun _ hu => hu.deliverRegister e)

theorem exec_st3Decode_reports (hf : s.flt.kind = .noFault) :
    ∃ u, exec .st3Decode s = .next u ∧ s.Reports u := by
  have h := State.Underway.refl hf
  refine exec_ordinary_reports hf (exec_st3Decode s) ?_
  split
  · exact h.raise _ _ _ _
  · exact h.complete _

/-- R102: every operation run with nothing latched ends in a completion that agrees with the latch. -/
theorem exec_reports (i : Instr) (hf : s.flt.kind = .noFault) : ∃ u, exec i s = .next u ∧ s.Reports u := by
  have h := State.Underway.refl hf
  have hstored {t : State} (hc : t.completions = s.completions) (ht : t.flt = s.flt) (v : Datum) :
      s.Reports (t.complete v) := State.Underway.complete ⟨hc, ht ▸ hf⟩ v
  cases i with
  | nop => exact exec_ordinary_reports hf (exec_nop s) (h.complete _)
  | fack => exact ⟨_, exec_fack s, State.Underway.complete ⟨rfl, rfl⟩ _⟩
  | srst => exact ⟨_, exec_srst s, State.Underway.complete ⟨rfl, rfl⟩ _⟩
  | srRd n => exact exec_srRd_reports hf n
  | argClr => exact exec_ordinary_reports hf (exec_argClr s) (hstored rfl rfl _)
  | argPush b => exact exec_ordinary_reports hf (exec_argPush b s) (h.guarded (hstored rfl rfl _))
  | argRes => exact exec_ordinary_reports hf (exec_argRes s) (h.guarded (hstored rfl rfl _))
  | resRd idx => exact exec_ordinary_reports hf (exec_resRd idx s) (h.guarded (h.complete _))
  | payRd idx => exact exec_ordinary_reports hf (exec_payRd idx s) (h.guarded (h.complete _))
  | fencTxt w => exact exec_ordinary_reports hf (exec_fencTxt w s) (h.storeField w _)
  | fencNum w sc e => exact exec_ordinary_reports hf (exec_fencNum w sc e s) (h.storeField w _)
  | fencNumd w => exact exec_ordinary_reports hf (exec_fencNumd w s) (h.storeField w _)
  | fencBcd w sc e => exact exec_ordinary_reports hf (exec_fencBcd w sc e s) (h.storeField w _)
  | fencBcdd w => exact exec_ordinary_reports hf (exec_fencBcdd w s) (h.storeField w _)
  | fencRaw w => exact exec_ordinary_reports hf (exec_fencRaw w s) (h.storeField w _)
  | fdecTxt w => exact exec_ordinary_reports hf (exec_fdecTxt w s) (h.decodeArgument w _)
  | fdecNum w sc => exact exec_ordinary_reports hf (exec_fdecNum w sc s) (h.decodeArgument w _)
  | fdecBcd w sc => exact exec_ordinary_reports hf (exec_fdecBcd w sc s) (h.decodeArgument w _)
  | fdecRaw w => exact exec_ordinary_reports hf (exec_fdecRaw w s) (h.decodeArgument w _)
  | fpackTxt w => exact exec_ordinary_reports hf (exec_fpackTxt w s) (h.packField w _)
  | fpackNum w sc e => exact exec_ordinary_reports hf (exec_fpackNum w sc e s) (h.packField w _)
  | fpackNumd w => exact exec_ordinary_reports hf (exec_fpackNumd w s) (h.packField w _)
  | fpackBcd w sc e => exact exec_ordinary_reports hf (exec_fpackBcd w sc e s) (h.packField w _)
  | fpackBcdd w => exact exec_ordinary_reports hf (exec_fpackBcdd w s) (h.packField w _)
  | fpackRaw w => exact exec_ordinary_reports hf (exec_fpackRaw w s) (h.packField w _)
  | funpkTxt w => exact exec_ordinary_reports hf (exec_funpkTxt w s) (h.unpackField w _)
  | funpkNum w sc => exact exec_ordinary_reports hf (exec_funpkNum w sc s) (h.unpackField w _)
  | funpkBcd w sc => exact exec_ordinary_reports hf (exec_funpkBcd w sc s) (h.unpackField w _)
  | funpkRaw w => exact exec_ordinary_reports hf (exec_funpkRaw w s) (h.unpackField w _)
  | cmdBegin id => exact exec_ordinary_reports hf (exec_cmdBegin id s) (hstored rfl rfl _)
  | cmdPush b => exact exec_ordinary_reports hf (exec_cmdPush b s) (h.guarded (h.guarded (hstored rfl rfl _)))
  | csum => exact exec_ordinary_reports hf (exec_csum s) (h.complete _)
  | cmdSend n =>
    exact exec_ordinary_reports hf (exec_cmdSend n s) (h.sendChecked (h.exchange fun _ hu => hu.finishSend n.toNat))
  | cmdSendr n => exact exec_ordinary_reports hf (exec_cmdSendr n s) (h.sendChecked (h.exchangeRaw n.toNat))
  | xpRead n => exact exec_ordinary_reports hf (exec_xpRead n s) (h.guarded (h.readOnly n.toNat))
  | regLookup id => exact exec_regLookup_reports hf id
  | regRead id => exact exec_regRead_reports hf id
  | stDecode => exact exec_ordinary_reports hf (exec_stDecode s) (h.statusCheck (h.complete _))
  | st3Decode => exact exec_st3Decode_reports hf

end Operations

/-- Settles O14: each operation ends in `complete` with the latch clear, or in a raise, which fills latch and completion
alike. -/
theorem completionMatchesLatch : Obligations.CompletionMatchesLatch := by
  unfold Obligations.CompletionMatchesLatch
  intro i s t hf he
  obtain ⟨u, hu, hr⟩ := exec_reports i hf
  rw [hu] at he
  cases he
  exact hr

end Sys2Proof.Machine
end

section
/-! SUPPORT. The field codec at work (40_field_codec.md sections 3 and 4): what the `FENC.*` store and the `FDEC.*`
deliver with no fault latched, when they raise, and the round trips of R132 through `ARG.RES`. -/

namespace Sys2Proof.Machine

/-- R121, R133: an encode completes in `t` with the `w` bytes `f` in `RES`, and nothing else. -/
structure State.Stores (w : Byte) (f : ByteString) (s t : State) : Prop where
  result : s.res.Holds t.res f
  frame : t = { s with res := t.res, completions := ⟨0#4, w.setWidth 64⟩ :: s.completions }

section Values

theorem decimalValue_digitString {m n : Nat} (h : m < 10 ^ n) : decimalValue (digitString m n) = m := by
  rw [← digitsNumber_eq, digitsNumber_digitString, Nat.mod_eq_of_lt h]

theorem digitString_asciiDigits (m n : Nat) : ∀ b ∈ digitString m n, AsciiDigit b :=
  fun b hb => (asciiDigit_iff b).1 (digitString_digits m n b hb)

theorem packedString_bcdBytes (m w : Nat) : ∀ b ∈ packedString m w, BcdByte b :=
  fun b hb => (bcdByte_iff b).1 (packedString_bcd m w b hb)

theorem bcdText_packedString (m w : Nat) : bcdText (packedString m w) = digitString m (2 * w) := by
  rw [← bcdCharacters_eq, packedString_characters]

theorem bcdText_asciiDigits {b : ByteString} (h : ∀ x ∈ b, BcdByte x) : ∀ c ∈ bcdText b, AsciiDigit c := by
  rw [← bcdCharacters_eq]
  intro c hc
  exact (asciiDigit_iff c).1 (flatMap_bcdCharacters_digits b (fun x hx => (bcdByte_iff x).2 (h x hx)) c hc)

/-- R129: a string of `n` digits is below `10^n`. -/
theorem decimalValue_lt {t : ByteString} (h : ∀ b ∈ t, AsciiDigit b) : decimalValue t < 10 ^ t.length := by
  rw [← digitsNumber_eq]
  exact digitsNumber_lt t fun b hb => (asciiDigit_iff b).2 (h b hb)

/-- The digits of the number of a digit string are that string. -/
theorem digitString_decimalValue {t : ByteString} (h : ∀ b ∈ t, AsciiDigit b) :
    digitString (decimalValue t) t.length = t := by
  refine digitsNumber_inj _ _ (digitString_length _ _) (digitString_digits _ _)
    (fun b hb => (asciiDigit_iff b).2 (h b hb)) ?_
  rw [digitsNumber_eq, digitsNumber_eq, decimalValue_digitString (decimalValue_lt h)]

/-- R132 (b) for the pure functions: the packed digits of a packed-decimal string are that string. -/
theorem packedString_bcdText {b : ByteString} (h : ∀ x ∈ b, BcdByte x) :
    packedString (decimalValue (bcdText b)) b.length = b := by
  refine flatMap_bcdCharacters_inj _ _ (packedString_bcd _ _) (fun x hx => (bcdByte_iff x).2 (h x hx)) ?_
  rw [packedString_characters, bcdCharacters_eq, ← bcdText_length, digitString_decimalValue (bcdText_asciiDigits h)]

/-- R125: with `E = S` the operand is not scaled. -/
theorem State.scaledOperand_self (sc : BitVec 4) (s : State) : s.scaledOperand sc sc = s.xs.toNat :=
  Nat.mul_div_cancel _ (Nat.pow_pos (by decide))

/-- R131: "Nineteen digits always fit 64 bits". -/
theorem datum_toNat_of_digits {m n : Nat} (hn : n ≤ 19) (h : m < 10 ^ n) : (datum m).toNat = m := by
  have hle : 10 ^ n ≤ 10 ^ 19 := Nat.pow_le_pow_right (by decide) hn
  exact Nat.mod_eq_of_lt (by omega)

end Values

section FieldValues

variable {s : State} {w : Byte} {sc e : BitVec 4} {arg : ByteString} {i : Nat}

theorem decimalField_ok (h : s.scaledOperand sc e < 10 ^ w.toNat) :
    decimalField s.coefficient w sc e = .ok (digitString (s.scaledOperand sc e) w.toNat) := encNum_ok _ _ h

theorem decimalField_overflow (h : 10 ^ w.toNat ≤ s.scaledOperand sc e) :
    decimalField s.coefficient w sc e = .error .overflow := encNum_overflow _ _ h

theorem packedField_ok (h : s.scaledOperand sc e < 10 ^ (2 * w.toNat)) :
    packedField s.coefficient w sc e = .ok (packedString (s.scaledOperand sc e) w.toNat) := encBcd_ok _ _ h

theorem packedField_overflow (h : 10 ^ (2 * w.toNat) ≤ s.scaledOperand sc e) :
    packedField s.coefficient w sc e = .error .overflow := encBcd_overflow _ _ h

theorem decimalDigitsField_of_digits (h : ∀ b ∈ arg, AsciiDigit b) :
    decimalDigitsField arg w = encNum (decimalValue arg) w.toNat := by
  rw [decimalDigitsField, digitsVal_of_digits arg h]

/-- R135: "the digit check comes first". -/
theorem decimalDigitsField_bad (h : FirstBad AsciiDigit arg i) :
    decimalDigitsField arg w = .error (.invalid i) := by
  rw [decimalDigitsField, digitsVal_firstBad arg i h]

theorem packedDigitsField_of_digits (h : ∀ b ∈ arg, AsciiDigit b) :
    packedDigitsField arg w = encBcd (decimalValue arg) w.toNat := by
  rw [packedDigitsField, digitsVal_of_digits arg h]

/-- R137: "the digit check comes first". -/
theorem packedDigitsField_bad (h : FirstBad AsciiDigit arg i) :
    packedDigitsField arg w = .error (.invalid i) := by
  rw [packedDigitsField, digitsVal_firstBad arg i h]

theorem rawField_ok (h : arg.length = w.toNat) : rawField arg w = .ok arg := by
  simp [rawField, h]

theorem rawField_long (h : w.toNat < arg.length) : rawField arg w = .error .overflow := by
  simp [rawField, h]

theorem rawField_short (h : arg.length < w.toNat) : rawField arg w = .error (.invalid arg.length) := by
  simp [rawField, h, Nat.le_of_lt h]

end FieldValues

section Encodes

variable {s : State} {w : Byte} {i : Instr} {r : State → Except CodecFault ByteString} {f : ByteString}

/-- R133: an `FENC.*` whose field exists stores it. -/
theorem exec_stores (hf : s.flt.kind = .noFault) (hw : s.res.mem.wf = true)
    (he : exec i s = .next (s.ordinary fun s => s.storeField w (r s))) (hr : r s = .ok f)
    (hlen : f.length = w.toNat) : ∃ t, exec i s = .next t ∧ s.Stores w f t := by
  obtain ⟨t, ht, hholds, hframe⟩ := State.storeField_ok w f s hw (by omega)
  refine ⟨t, ?_, hholds, hframe⟩
  rw [he, State.ordinary_clear _ s hf, hr, ht]

/-- R303, R305: an `FENC.*` whose field does not fit. -/
theorem exec_stores_overflow (hf : s.flt.kind = .noFault)
    (he : exec i s = .next (s.ordinary fun s => s.storeField w (r s))) (hr : r s = .error .overflow) :
    exec i s = .next (s.faulted .fieldOverflow 0#8 0#16 .noTable) := by
  rw [he, State.ordinary_clear _ s hf, hr]
  exact congrArg _ (State.raiseCodec_overflow s hf)

/-- R303, R305: an `FENC.*` whose input cannot be encoded. -/
theorem exec_stores_invalid (hf : s.flt.kind = .noFault) {n : Nat}
    (he : exec i s = .next (s.ordinary fun s => s.storeField w (r s))) (hr : r s = .error (.invalid n)) :
    exec i s = .next (s.faulted .invalidEncoding 0#8 (half n) .noTable) := by
  rw [he, State.ordinary_clear _ s hf, hr]
  exact congrArg _ (State.raiseCodec_invalid n s hf)

/-- R134. -/
theorem exec_fencNum_stores {sc e : BitVec 4} (hf : s.flt.kind = .noFault) (hw : s.res.mem.wf = true)
    (h : s.scaledOperand sc e < 10 ^ w.toNat) :
    ∃ t, exec (.fencNum w sc e) s = .next t ∧ s.Stores w (digitString (s.scaledOperand sc e) w.toNat) t :=
  exec_stores hf hw (exec_fencNum w sc e s) (decimalField_ok h) (digitString_length _ _)

/-- R136. -/
theorem exec_fencBcd_stores {sc e : BitVec 4} (hf : s.flt.kind = .noFault) (hw : s.res.mem.wf = true)
    (h : s.scaledOperand sc e < 10 ^ (2 * w.toNat)) :
    ∃ t, exec (.fencBcd w sc e) s = .next t ∧ s.Stores w (packedString (s.scaledOperand sc e) w.toNat) t :=
  exec_stores hf hw (exec_fencBcd w sc e s) (packedField_ok h) (packedString_length _ _)

/-- R135. -/
theorem exec_fencNumd_stores (hf : s.flt.kind = .noFault) (hw : s.res.mem.wf = true)
    (hd : ∀ b ∈ s.arg.content, AsciiDigit b) (h : decimalValue s.arg.content < 10 ^ w.toNat) :
    ∃ t, exec (.fencNumd w) s = .next t ∧ s.Stores w (digitString (decimalValue s.arg.content) w.toNat) t :=
  exec_stores hf hw (exec_fencNumd w s) ((decimalDigitsField_of_digits hd).trans (encNum_ok _ _ h))
    (digitString_length _ _)

/-- R137. -/
theorem exec_fencBcdd_stores (hf : s.flt.kind = .noFault) (hw : s.res.mem.wf = true)
    (hd : ∀ b ∈ s.arg.content, AsciiDigit b) (h : decimalValue s.arg.content < 10 ^ (2 * w.toNat)) :
    ∃ t, exec (.fencBcdd w) s = .next t ∧ s.Stores w (packedString (decimalValue s.arg.content) w.toNat) t :=
  exec_stores hf hw (exec_fencBcdd w s) ((packedDigitsField_of_digits hd).trans (encBcd_ok _ _ h))
    (packedString_length _ _)

end Encodes

/-- Settles O26: `enc_txt` has no fault. -/
theorem fencTxtStores : Obligations.FencTxtStores := by
  unfold Obligations.FencTxtStores
  intro s w hf hw
  obtain ⟨t, he, hs⟩ := exec_stores hf hw (exec_fencTxt w s) rfl (encTxt_length _ _)
  exact ⟨rfl, t, _, he, encTxt_isTextField _ _, hs.result, hs.frame⟩

/-- Settles O27: the two sides of the bound of `enc_num`. -/
theorem fencNumStores : Obligations.FencNumStores := by
  unfold Obligations.FencNumStores
  intro s w sc e hf hw
  refine ⟨rfl, fun h => ?_, fun h => exec_stores_overflow hf (exec_fencNum w sc e s) (decimalField_overflow h)⟩
  obtain ⟨t, he, hs⟩ := exec_fencNum_stores hf hw h
  exact ⟨t, _, he, digitString_isDecimalField _ _, hs.result, hs.frame⟩

/-- Settles O28: the digit check, then the two sides of the bound of `enc_num`. -/
theorem fencNumdStores : Obligations.FencNumdStores := by
  unfold Obligations.FencNumdStores
  intro s w hf hw
  have hexec := exec_fencNumd w s
  refine ⟨rfl, fun hd h => ?_, fun hd h => ?_, fun i hbad => ?_⟩
  · obtain ⟨t, he, hs⟩ := exec_fencNumd_stores hf hw hd h
    exact ⟨t, _, he, digitString_isDecimalField _ _, hs.result, hs.frame⟩
  · exact exec_stores_overflow hf hexec ((decimalDigitsField_of_digits hd).trans (encNum_overflow _ _ h))
  · exact exec_stores_invalid hf hexec (decimalDigitsField_bad hbad)

/-- Settles O29: the two sides of the bound of `enc_bcd`. -/
theorem fencBcdStores : Obligations.FencBcdStores := by
  unfold Obligations.FencBcdStores
  intro s w sc e hf hw
  refine ⟨rfl, fun h => ?_, fun h => exec_stores_overflow hf (exec_fencBcd w sc e s) (packedField_overflow h)⟩
  obtain ⟨t, he, hs⟩ := exec_fencBcd_stores hf hw h
  exact ⟨t, _, he, packedString_isPackedField _ _, hs.result, hs.frame⟩

/-- Settles O30: the digit check, then the two sides of the bound of `enc_bcd`. -/
theorem fencBcddStores : Obligations.FencBcddStores := by
  unfold Obligations.FencBcddStores
  intro s w hf hw
  have hexec := exec_fencBcdd w s
  refine ⟨rfl, fun hd h => ?_, fun hd h => ?_, fun i hbad => ?_⟩
  · obtain ⟨t, he, hs⟩ := exec_fencBcdd_stores hf hw hd h
    exact ⟨t, _, he, packedString_isPackedField _ _, hs.result, hs.frame⟩
  · exact exec_stores_overflow hf hexec ((packedDigitsField_of_digits hd).trans (encBcd_overflow _ _ h))
  · exact exec_stores_invalid hf hexec (packedDigitsField_bad hbad)

/-- Settles O31: the three ways the length of `ARG` and the width compare. -/
theorem fencRawStores : Obligations.FencRawStores := by
  unfold Obligations.FencRawStores
  intro s w hf hw
  have hexec := exec_fencRaw w s
  have hlen := s.arg.content_length
  refine ⟨rfl, fun h => ?_, fun h => ?_, fun h => ?_⟩
  · obtain ⟨t, he, hs⟩ := exec_stores hf hw hexec (rawField_ok (hlen.trans h)) (hlen.trans h)
    exact ⟨t, he, hs.result, hs.frame⟩
  · exact exec_stores_overflow hf hexec (rawField_long (by omega))
  · have hraise := exec_stores_invalid hf hexec (rawField_short (by omega))
    rwa [hlen, half_toNat_self] at hraise

section Decodings

variable {s : State} {w : Byte} {i : Instr} {dec : ByteString → Except CodecFault FieldValue}

/-- R139: an `FDEC.*` of a field of the declared width. -/
theorem exec_decodes (hf : s.flt.kind = .noFault)
    (he : exec i s = .next (s.ordinary fun s => s.decodeArgument w dec)) (hlen : s.arg.len.toNat = w.toNat) :
    exec i s = .next (s.deliver (dec s.arg.content)) := by
  rw [he, State.ordinary_clear _ s hf, State.decodeArgument_eq w dec s hlen]

/-- R139, R303: an `FDEC.*` of a field of another length. -/
theorem exec_decodes_length (hf : s.flt.kind = .noFault)
    (he : exec i s = .next (s.ordinary fun s => s.decodeArgument w dec)) (hlen : s.arg.len.toNat ≠ w.toNat) :
    exec i s = .next (s.faulted .invalidEncoding 0#8 (half (min s.arg.len.toNat w.toNat)) .noTable) := by
  rw [he, State.ordinary_clear _ s hf, State.decodeArgument_ne w dec s hlen, State.raiseCodec_invalid _ s hf]

/-- R303, R305: an `FDEC.*` of a field with a byte that does not decode. -/
theorem exec_decodes_invalid (hf : s.flt.kind = .noFault) {n : Nat}
    (he : exec i s = .next (s.ordinary fun s => s.decodeArgument w dec)) (hlen : s.arg.len.toNat = w.toNat)
    (hdec : dec s.arg.content = .error (.invalid n)) :
    exec i s = .next (s.faulted .invalidEncoding 0#8 (half n) .noTable) := by
  rw [exec_decodes hf he hlen, hdec]
  exact congrArg _ (State.raiseCodec_invalid n s hf)

/-- R139, R142: the field as it stands. -/
theorem exec_decodes_verbatim (hf : s.flt.kind = .noFault) (hw : s.res.mem.wf = true)
    (he : exec i s = .next (s.ordinary fun s => s.decodeArgument w decodeVerbatim))
    (hlen : s.arg.len.toNat = w.toNat) :
    ∃ t, exec i s = .next t ∧ Decodes s t s.arg.content false 0#4 (w.setWidth 64) := by
  have hwidth : datum s.arg.content.length = w.setWidth 64 := by
    rw [s.arg.content_length, hlen]
    exact BitVec.ofNat_toNat 64 w
  have hd := State.deliver_ok ⟨s.arg.content, false, 0#4, datum s.arg.content.length⟩ s hw
    (by simpa using s.arg.len.isLt)
  rw [hwidth] at hd
  refine ⟨_, exec_decodes hf he hlen, ?_⟩
  rw [decodeVerbatim, hwidth]
  exact hd

/-- R140. -/
theorem exec_fdecNum_decodes {sc : BitVec 4} (hf : s.flt.kind = .noFault) (hw : s.res.mem.wf = true)
    (hlen : s.arg.len.toNat = w.toNat) (hd : ∀ b ∈ s.arg.content, AsciiDigit b) :
    ∃ t, exec (.fdecNum w sc) s = .next t ∧ DecodesNumber s t s.arg.content sc := by
  refine ⟨_, exec_decodes hf (exec_fdecNum w sc s) hlen, ?_⟩
  rw [decodeNum_ok _ _ hd]
  exact State.deliver_number _ sc s hw (by simpa using s.arg.len.isLt)

/-- R141. -/
theorem exec_fdecBcd_decodes {sc : BitVec 4} (hf : s.flt.kind = .noFault) (hw : s.res.mem.wf = true)
    (hlen : s.arg.len.toNat = w.toNat) (hd : ∀ b ∈ s.arg.content, BcdByte b) :
    ∃ t, exec (.fdecBcd w sc) s = .next t ∧ DecodesNumber s t (bcdText s.arg.content) sc := by
  refine ⟨_, exec_decodes hf (exec_fdecBcd w sc s) hlen, ?_⟩
  rw [decodeBcd_ok _ _ hd]
  exact State.deliver_number _ sc s hw (by rw [bcdText_length, s.arg.content_length]; omega)

end Decodings

/-- Settles O32: `FDEC.TXT` and `FDEC.RAW` have one body. -/
theorem fdecVerbatim : Obligations.FdecVerbatim := by
  unfold Obligations.FdecVerbatim
  intro s w i hi hf hw
  have hexec : exec i s = .next (s.ordinary fun s => s.decodeArgument w decodeVerbatim) := by
    rcases hi with rfl | rfl
    · exact exec_fdecTxt w s
    · exact exec_fdecRaw w s
  exact ⟨rfl, rfl, exec_decodes_verbatim hf hw hexec, exec_decodes_length hf hexec⟩

/-- Settles O33: the length check, then the digit check. -/
theorem fdecNumDecodes : Obligations.FdecNumDecodes := by
  unfold Obligations.FdecNumDecodes
  intro s w sc hf hw
  have hexec := exec_fdecNum w sc s
  exact ⟨rfl, exec_fdecNum_decodes hf hw, exec_decodes_length hf hexec,
    fun hlen i hbad => exec_decodes_invalid hf hexec hlen (decodeNum_bad _ sc i hbad)⟩

/-- Settles O34: the length check, then the nibble check. -/
theorem fdecBcdDecodes : Obligations.FdecBcdDecodes := by
  unfold Obligations.FdecBcdDecodes
  intro s w sc hf hw
  have hexec := exec_fdecBcd w sc s
  exact ⟨rfl, exec_fdecBcd_decodes hf hw, exec_decodes_length hf hexec,
    fun hlen i hbad => exec_decodes_invalid hf hexec hlen (decodeBcd_bad _ sc i hbad)⟩

end Sys2Proof.Machine
end

section
/-! SUPPORT. The round trips of the field codec through the host port (40_field_codec.md R132): one transaction that
completes from a sound state, the copy of `RES` to `ARG`, and the sequence encode, copy, decode in either direction. -/

namespace Sys2Proof.Machine

/-- R9, R15: the host's transaction of `i` with operand `xs` completes from `s` in `t` with `CC = 0` and `XD = v`, and
the block is ready for the next one. -/
structure State.Serves (i : Instr) (xs v : Datum) (s t : State) : Prop where
  transaction : transact (request i xs) s = some (⟨0#4, v⟩, t)
  sound : t.Sound
  clear : t.flt.kind = .noFault
  cfg : t.cfg = s.cfg

/-- R38: the flags after a decode that gave a number of scale `sc`. -/
def State.NumberFlags (sc : BitVec 4) (t : State) : Prop := t.flags.nv = true ∧ t.flags.ns = sc

section Transactions

variable {s t : State} {i : Instr} {xs v : Datum}

/-- The operation that completes with `CC = 0` keeps the rest by itself: the invariant, the empty latch, the
configuration. -/
theorem State.Sound.serves (h : s.Sound) (hf : s.flt.kind = .noFault)
    (he : exec i (s.accept (request i xs) []) = .next t) (hc : t.completions = ⟨0#4, v⟩ :: s.completions) :
    s.Serves i xs v t := by
  have ha := h.accept (request i xs) []
  obtain ⟨u, hu, hsound⟩ := exec_sound i ha
  obtain ⟨u', hu', hends⟩ := exec_completes i ha.idle
  obtain ⟨u'', hu'', c, hcompl, hcc, -⟩ := exec_reports (s := s.accept (request i xs) []) i hf
  cases he.symm.trans hu
  cases he.symm.trans hu'
  cases he.symm.trans hu''
  cases (List.cons.inj (hc.symm.trans hcompl)).1
  exact ⟨transact_request i xs s t _ _ h.idle (decode_encode i) he hc, hsound,
    (FaultKind.code_eq_zero _).1 hcc.symm, hends.cfg⟩

/-- R106: the sequence goes on after it. -/
theorem State.Serves.issue_cons (h : s.Serves i xs v t) (rest : List Transaction) :
    issue (request i xs :: rest) s =
      ⟨⟨0#4, v⟩ :: (issue rest t).results, (issue rest t).finished, (issue rest t).state⟩ :=
  Machine.issue_cons _ rest s t _ h.transaction rfl

/-- R163: `ARG.RES` of a result that fits `ARG`. -/
theorem exec_argRes_copies (hf : s.flt.kind = .noFault) (hw : s.arg.mem.wf = true)
    (hfits : s.res.len.toNat ≤ s.params.argCap) :
    ∃ t, exec .argRes s = .next t ∧ s.arg.Holds t.arg s.res.content ∧
      t = { s with arg := t.arg, completions := ⟨0#4, s.res.len.setWidth 64⟩ :: s.completions } := by
  have hcopy := Buffer.load_holds s.arg s.res.content hw (by simpa using s.res.len.isLt)
  refine ⟨({ s with arg := s.arg.load s.res.content }).complete (datumOfHalf s.res.len), ?_, hcopy, rfl⟩
  rw [exec_argRes, execArgRes, State.ordinary_clear _ s hf, if_neg (Nat.not_lt.2 hfits)]
  simp only [Buffer.load_len, Buffer.content_length, half_toNat_self]

/-- R163: the copy as a transaction. -/
theorem State.Sound.serves_argRes (h : s.Sound) (hf : s.flt.kind = .noFault)
    (hfits : s.res.content.length ≤ s.params.argCap) :
    ∃ t, s.Serves .argRes 0 (s.res.len.setWidth 64) t ∧ t.arg.content = s.res.content := by
  obtain ⟨t, he, hcopy, hframe⟩ := exec_argRes_copies (s := s.accept (request .argRes 0) []) hf h.arg.canonical
    (s.res.content_length ▸ hfits)
  exact ⟨t, h.serves hf he (congrArg State.completions hframe), hcopy.1⟩

/-- R106, R132: a field in `RES`, its copy, and the operation on the copy: the sequence finishes as its last operation
does. -/
theorem issue_through_argRes {j : Instr} {ys x : Datum} {P : State → Prop} (hi : s.Serves i xs v t)
    (hfits : t.res.content.length ≤ s.params.argCap)
    (hj : ∀ u : State, u.Sound → u.flt.kind = .noFault → u.arg.content = t.res.content →
      ∃ z, u.Serves j ys x z ∧ P z) :
    let r := issue [request i xs, request .argRes 0, request j ys] s
    r.finished = true ∧ r.results.getLast? = some ⟨0#4, x⟩ ∧ P r.state := by
  have hparams : t.params = s.params := congrArg Configuration.params hi.cfg
  obtain ⟨u, hu, hcopy⟩ := hi.sound.serves_argRes hi.clear (hparams ▸ hfits)
  obtain ⟨z, hz, hP⟩ := hj u hu.sound hu.clear hcopy
  rw [hi.issue_cons, hu.issue_cons, hz.issue_cons]
  exact ⟨rfl, rfl, hP⟩

end Transactions

section Numbers

variable {s : State} {w : Byte} {sc : BitVec 4} {m : Nat}

/-- The state in which the operand `m`, not scaled because `E = S`, is encoded. -/
theorem State.scaledOperand_accept {n : Nat} (hn : n ≤ 19) (hm : m < 10 ^ n) (i : Instr) :
    (s.accept (request i (datum m)) []).scaledOperand sc sc = m :=
  (State.scaledOperand_self sc _).trans (datum_toNat_of_digits hn hm)

/-- R134: a number of at most nineteen digits encoded. -/
theorem State.Sound.serves_fencNum (h : s.Sound) (hf : s.flt.kind = .noFault) (hw : w.toNat ≤ 19)
    (hm : m < 10 ^ w.toNat) :
    ∃ t, s.Serves (.fencNum w sc sc) (datum m) (w.setWidth 64) t ∧ t.res.content = digitString m w.toNat := by
  have hop := s.scaledOperand_accept (sc := sc) hw hm (.fencNum w sc sc)
  obtain ⟨t, he, hs⟩ := exec_fencNum_stores (s := s.accept _ []) hf h.res.canonical (hop.trans_lt hm)
  rw [hop] at hs
  exact ⟨t, h.serves hf he (congrArg State.completions hs.frame), hs.result.1⟩

/-- R136: a number of at most eighteen digits encoded. -/
theorem State.Sound.serves_fencBcd (h : s.Sound) (hf : s.flt.kind = .noFault) (hw : w.toNat ≤ 9)
    (hm : m < 10 ^ (2 * w.toNat)) :
    ∃ t, s.Serves (.fencBcd w sc sc) (datum m) (w.setWidth 64) t ∧ t.res.content = packedString m w.toNat := by
  have hop := s.scaledOperand_accept (sc := sc) (show 2 * w.toNat ≤ 19 by omega) hm (.fencBcd w sc sc)
  obtain ⟨t, he, hs⟩ := exec_fencBcd_stores (s := s.accept _ []) hf h.res.canonical (hop.trans_lt hm)
  rw [hop] at hs
  exact ⟨t, h.serves hf he (congrArg State.completions hs.frame), hs.result.1⟩

/-- R131: a decode that delivers the at most nineteen digits of `m` answers `m`. -/
theorem State.Sound.serves_number (h : s.Sound) (hf : s.flt.kind = .noFault) {j : Instr} {n : Nat} {t : State}
    (hn : n ≤ 19) (hm : m < 10 ^ n) (he : exec j (s.accept (request j 0) []) = .next t)
    (hd : DecodesNumber (s.accept (request j 0) []) t (digitString m n) sc) :
    s.Serves j 0 (BitVec.ofNat 64 m) t ∧ t.NumberFlags sc := by
  simp only [DecodesNumber, digitString_length, hn, decide_true, if_true, decimalValue_digitString hm] at hd
  have hflags := congrArg State.flags hd.frame
  exact ⟨h.serves hf he (congrArg State.completions hd.frame), congrArg FlagBits.nv hflags,
    congrArg FlagBits.ns hflags⟩

/-- R140. -/
theorem State.Sound.serves_fdecNum (h : s.Sound) (hf : s.flt.kind = .noFault) (hw : w.toNat ≤ 19)
    (hm : m < 10 ^ w.toNat) (ha : s.arg.content = digitString m w.toNat) :
    ∃ t, s.Serves (.fdecNum w sc) 0 (BitVec.ofNat 64 m) t ∧ t.NumberFlags sc := by
  have hlen : s.arg.len.toNat = w.toNat := by rw [← s.arg.content_length, ha, digitString_length]
  obtain ⟨t, he, hd⟩ := exec_fdecNum_decodes (s := s.accept (request (.fdecNum w sc) 0) []) (sc := sc) hf
    h.res.canonical hlen (ha ▸ digitString_asciiDigits m w.toNat)
  exact ⟨t, h.serves_number hf hw hm he (ha ▸ hd)⟩

/-- R141. -/
theorem State.Sound.serves_fdecBcd (h : s.Sound) (hf : s.flt.kind = .noFault) (hw : w.toNat ≤ 9)
    (hm : m < 10 ^ (2 * w.toNat)) (ha : s.arg.content = packedString m w.toNat) :
    ∃ t, s.Serves (.fdecBcd w sc) 0 (BitVec.ofNat 64 m) t ∧ t.NumberFlags sc := by
  have hlen : s.arg.len.toNat = w.toNat := by rw [← s.arg.content_length, ha, packedString_length]
  have htext : bcdText s.arg.content = digitString m (2 * w.toNat) := by rw [ha, bcdText_packedString]
  obtain ⟨t, he, hd⟩ := exec_fdecBcd_decodes (s := s.accept (request (.fdecBcd w sc) 0) []) (sc := sc) hf
    h.res.canonical hlen (ha ▸ packedString_bcdBytes m w.toNat)
  exact ⟨t, h.serves_number hf (by omega) hm he (htext ▸ hd)⟩

end Numbers

section PackedBytes

variable {s : State} {w : Byte}

/-- R130, R141: packed-decimal bytes decoded to their digits. -/
theorem State.Sound.serves_fdecBcd_bytes (h : s.Sound) (hf : s.flt.kind = .noFault)
    (hlen : s.arg.len.toNat = w.toNat) (hd : ∀ b ∈ s.arg.content, BcdByte b) (sc : BitVec 4) :
    ∃ v t, s.Serves (.fdecBcd w sc) 0 v t ∧ t.res.content = bcdText s.arg.content := by
  obtain ⟨t, he, hdec⟩ := exec_fdecBcd_decodes (s := s.accept (request (.fdecBcd w sc) 0) []) (sc := sc) hf
    h.res.canonical hlen hd
  exact ⟨_, t, h.serves hf he (congrArg State.completions hdec.frame), hdec.result.1⟩

/-- R127, R137: the digits of packed-decimal bytes encoded to these bytes. -/
theorem State.Sound.serves_fencBcdd_bytes (h : s.Sound) (hf : s.flt.kind = .noFault) {b : ByteString}
    (hb : ∀ x ∈ b, BcdByte x) (hw : b.length = w.toNat) (ha : s.arg.content = bcdText b) :
    ∃ t, s.Serves (.fencBcdd w) 0 (w.setWidth 64) t ∧ t.res.content = b := by
  have hdigits := bcdText_asciiDigits hb
  have hlt := decimalValue_lt hdigits
  rw [bcdText_length, hw] at hlt
  obtain ⟨t, he, hs⟩ := exec_fencBcdd_stores (s := s.accept (request (.fencBcdd w) 0) []) hf h.res.canonical
    (ha ▸ hdigits) (ha ▸ hlt)
  have hbytes : packedString (decimalValue s.arg.content) w.toNat = b := by
    rw [ha, ← hw, packedString_bcdText hb]
  exact ⟨t, h.serves hf he (congrArg State.completions hs.frame), hs.result.1.trans hbytes⟩

end PackedBytes

/-- Settles O57: each encode leaves the digits of the number in `RES`, and its decode answers their number. -/
theorem numbersRoundTrip : Obligations.NumbersRoundTrip := by
  unfold Obligations.NumbersRoundTrip
  intro s w sc m h hf
  have hcap := s.capacities
  constructor
  · intro hw hm
    obtain ⟨t, ht, hres⟩ := h.serves_fencNum (sc := sc) hf hw hm
    have hfits : t.res.content.length ≤ s.params.argCap := by rw [hres, digitString_length]; omega
    exact issue_through_argRes (P := State.NumberFlags sc) ht hfits fun u hu hclear ha =>
      hu.serves_fdecNum hclear hw hm (ha.trans hres)
  · intro hw hm
    obtain ⟨t, ht, hres⟩ := h.serves_fencBcd (sc := sc) hf hw hm
    have hfits : t.res.content.length ≤ s.params.argCap := by rw [hres, packedString_length]; omega
    exact issue_through_argRes (P := State.NumberFlags sc) ht hfits fun u hu hclear ha =>
      hu.serves_fdecBcd hclear hw hm (ha.trans hres)

/-- Settles O58: a packed-decimal string is the packed digits of its own text. -/
theorem packedBytesRoundTrip : Obligations.PackedBytesRoundTrip := by
  unfold Obligations.PackedBytesRoundTrip
  intro s w h hf hlen hb hcap
  obtain ⟨v, t, ht, hres⟩ := h.serves_fdecBcd_bytes hf hlen hb 0#4
  have hw : s.arg.content.length = w.toNat := s.arg.content_length.trans hlen
  have hfits : t.res.content.length ≤ s.params.argCap := by rw [hres, bcdText_length, hw]; exact hcap
  obtain ⟨hfinished, -, hback⟩ := issue_through_argRes ht hfits fun u hu hclear ha =>
    hu.serves_fencBcdd_bytes hclear hb hw (ha.trans hres)
  exact ⟨hfinished, hback⟩

end Sys2Proof.Machine
end

section
/-! SUPPORT. The host's loads and stores, the packs and the unpacks (41_field_pack_unpack.md sections 2 to 4): what each
does with no fault latched, and which check or codec fault it raises. -/

namespace Sys2Proof.Machine

/-- R166: an append of `w` bytes to `CMD` passes both checks: a command is begun, and the bytes fit. -/
structure State.RoomFor (w : Byte) (s : State) : Prop where
  begun : s.cmd.len ≠ 0#16
  fits : s.cmd.len.toNat + w.toNat ≤ s.params.cmdCap

/-- R166: a pack completes in `t` with the `w` bytes `f` appended to `CMD`, and nothing else. -/
structure State.Packs (w : Byte) (f : ByteString) (s t : State) : Prop where
  result : s.cmd.Extends t.cmd f
  frame : t = { s with
    cmd := t.cmd
    completions := ⟨0#4, BitVec.ofNat 64 (s.cmd.len.toNat + w.toNat)⟩ :: s.completions }

section Bytes

/-- R14: a byte of a cut is the byte of the buffer at its place. -/
theorem Memory.readBytes_getElem?_eq_some {m : Memory} {a n i : Nat} {b : Byte} :
    (m.readBytes a n)[i]? = some b ↔ i < n ∧ m.read (a + i) = b := by
  rw [Memory.readBytes_getElem?]
  split <;> simp [*]

theorem Buffer.content_getElem?_eq_some {c : Buffer} {i : Nat} {b : Byte} :
    c.content[i]? = some b ↔ i < c.len.toNat ∧ c.mem.read i = b := by
  rw [Buffer.content, Memory.readBytes_getElem?_eq_some, Nat.zero_add]

/-- R29, R165: a byte of the payload is the byte of the window. -/
theorem State.payload_getElem?_eq_some {s : State} {i : Nat} {b : Byte} :
    s.payload[i]? = some b ↔ i < s.plen.toNat ∧ s.windowByte i = b := Memory.readBytes_getElem?_eq_some

end Bytes

section Access

variable {s : State} {i : Instr} {p : State → Prop} [DecidablePred p] {r : IllegalReason} {k : State → State}

/-- R308: an operation whose check fails raises `IllegalOp` and does nothing else. -/
theorem exec_check_fails (hf : s.flt.kind = .noFault)
    (he : exec i s = .next (s.ordinary fun s => if p s then s.illegal r else k s)) (hp : p s) :
    exec i s = .next (s.faulted .illegalOp 0#8 r.code .noTable) := by
  rw [he, State.ordinary_clear _ s hf, if_pos hp, State.illegal_clear r s hf]

/-- R308: an operation whose check passes goes on. -/
theorem exec_check_passes (hf : s.flt.kind = .noFault)
    (he : exec i s = .next (s.ordinary fun s => if p s then s.illegal r else k s)) (hp : ¬ p s) :
    exec i s = .next (k s) := by
  rw [he, State.ordinary_clear _ s hf, if_neg hp]

end Access

/-- Settles O21: `ARG.CLR` writes the length of `ARG` only. -/
theorem argClrEmpties : Obligations.ArgClrEmpties := by
  unfold Obligations.ArgClrEmpties
  refine ⟨rfl, fun s hf => ⟨({ s with arg := s.arg.clear }).complete 0#64, ?_, ?_, fun a => ?_, rfl⟩⟩
  · rw [exec_argClr, execArgClr, State.ordinary_clear _ s hf]
  · exact s.arg.clear_content
  · exact congrArg (Memory.read · a) s.arg.clear_mem

/-- Settles O22: the two sides of the capacity check. -/
theorem argPushAppends : Obligations.ArgPushAppends := by
  unfold Obligations.ArgPushAppends
  intro s b hf hw
  have hexec := exec_argPush b s
  have hcap := s.capacities
  refine ⟨rfl, fun hroom => ?_, fun hfull => exec_check_fails hf hexec (Nat.le_of_eq hfull.symm)⟩
  have hlt : s.arg.len.toNat + [b].length < 65536 := by simp only [List.length_singleton]; omega
  have hlen : datumOfHalf (s.arg.append [b]).len = BitVec.ofNat 64 (s.arg.len.toNat + 1) := datumOfHalf_half _ hlt
  refine ⟨_, exec_check_passes hf hexec (Nat.not_le.2 hroom), Buffer.append_extends s.arg [b] hw hlt, ?_⟩
  rw [← hlen]
  rfl

/-- Settles O23: the two sides of the capacity check. -/
theorem argResCopies : Obligations.ArgResCopies := by
  unfold Obligations.ArgResCopies
  exact fun s hf hw => ⟨rfl, exec_argRes_copies hf hw, exec_check_fails hf (exec_argRes s)⟩

/-- Settles O24: an index of the content is one below `RESLEN`. -/
theorem resRdReads : Obligations.ResRdReads := by
  unfold Obligations.ResRdReads
  intro s idx hf
  have hexec := exec_resRd idx s
  refine ⟨rfl, fun b hb => ?_, exec_check_fails hf hexec⟩
  obtain ⟨hlt, rfl⟩ := Buffer.content_getElem?_eq_some.1 hb
  exact exec_check_passes hf hexec (Nat.not_le.2 hlt)

/-- Settles O25: an index of the payload is one below `PLEN`. -/
theorem payRdReads : Obligations.PayRdReads := by
  unfold Obligations.PayRdReads
  intro s idx hf
  have hexec := exec_payRd idx s
  refine ⟨rfl, fun b hb => ?_, exec_check_fails hf hexec⟩
  obtain ⟨hlt, rfl⟩ := State.payload_getElem?_eq_some.1 hb
  exact exec_check_passes hf hexec (Nat.not_le.2 hlt)

section Packings

variable {s : State} {w : Byte} {i : Instr} {r : State → Except CodecFault ByteString} {f : ByteString}

/-- R166: an `FPACK.*` whose field exists appends it. -/
theorem exec_packs (hf : s.flt.kind = .noFault) (hw : s.cmd.mem.wf = true) (hroom : s.RoomFor w)
    (he : exec i s = .next (s.ordinary fun s => s.packField w (r s))) (hr : r s = .ok f)
    (hlen : f.length = w.toNat) : ∃ t, exec i s = .next t ∧ s.Packs w f t := by
  obtain ⟨t, ht, hext, hframe⟩ := State.packField_ok w f s hw hlen hroom.begun hroom.fits
  refine ⟨t, ?_, hext, hframe⟩
  rw [he, State.ordinary_clear _ s hf, hr, ht]

/-- R166, R303: an `FPACK.*` that passes both checks and whose field does not exist raises its codec fault. -/
theorem exec_packs_error (hf : s.flt.kind = .noFault) (hroom : s.RoomFor w) {e : CodecFault}
    (he : exec i s = .next (s.ordinary fun s => s.packField w (r s))) (hr : r s = .error e) :
    exec i s = .next (s.raiseCodec e) := by
  rw [he, State.ordinary_clear _ s hf, hr, State.packField_error w e s hroom.begun hroom.fits]

/-- R303, R305: an `FPACK.*` whose field does not fit. -/
theorem exec_packs_overflow (hf : s.flt.kind = .noFault) (hroom : s.RoomFor w)
    (he : exec i s = .next (s.ordinary fun s => s.packField w (r s))) (hr : r s = .error .overflow) :
    exec i s = .next (s.faulted .fieldOverflow 0#8 0#16 .noTable) := by
  rw [exec_packs_error hf hroom he hr, State.raiseCodec_overflow s hf]

/-- R303, R305: an `FPACK.*` whose input cannot be encoded. -/
theorem exec_packs_invalid (hf : s.flt.kind = .noFault) (hroom : s.RoomFor w) {n : Nat}
    (he : exec i s = .next (s.ordinary fun s => s.packField w (r s))) (hr : r s = .error (.invalid n)) :
    exec i s = .next (s.faulted .invalidEncoding 0#8 (half n) .noTable) := by
  rw [exec_packs_error hf hroom he hr, State.raiseCodec_invalid n s hf]

/-- R166: an `FPACK.*` with no command begun, whatever its field. -/
theorem exec_packs_noCommand (hf : s.flt.kind = .noFault) (h0 : s.cmd.len = 0#16)
    (he : exec i s = .next (s.ordinary fun s => s.packField w (r s))) :
    exec i s = .next (s.faulted .illegalOp 0#8 4#16 .noTable) := by
  rw [he, State.ordinary_clear _ s hf, State.packField_noCommand w _ s h0, State.illegal_clear _ s hf]
  rfl

/-- R166: an `FPACK.*` whose `w` bytes do not fit the command, whatever its field. -/
theorem exec_packs_capacity (hf : s.flt.kind = .noFault) (h0 : s.cmd.len ≠ 0#16)
    (h1 : s.params.cmdCap < s.cmd.len.toNat + w.toNat)
    (he : exec i s = .next (s.ordinary fun s => s.packField w (r s))) :
    exec i s = .next (s.faulted .illegalOp 0#8 5#16 .noTable) := by
  rw [he, State.ordinary_clear _ s hf, State.packField_capacity w _ s h0 h1, State.illegal_clear _ s hf]
  rfl

/-- R166: the six `FPACK.*` differ in their field only. -/
theorem exec_pack_of_mem {sc e : BitVec 4}
    (hi : i ∈ [Instr.fpackTxt w, .fpackNum w sc e, .fpackNumd w, .fpackBcd w sc e, .fpackBcdd w, .fpackRaw w]) :
    ∃ r : State → Except CodecFault ByteString,
      exec i s = .next (s.ordinary fun s => s.packField w (r s)) := by
  simp only [List.mem_cons, List.not_mem_nil, or_false] at hi
  rcases hi with rfl | rfl | rfl | rfl | rfl | rfl
  · exact ⟨_, exec_fpackTxt w s⟩
  · exact ⟨_, exec_fpackNum w sc e s⟩
  · exact ⟨_, exec_fpackNumd w s⟩
  · exact ⟨_, exec_fpackBcd w sc e s⟩
  · exact ⟨_, exec_fpackBcdd w s⟩
  · exact ⟨_, exec_fpackRaw w s⟩

end Packings

/-- Settles O35: a text always has a field, an `ARG` of the declared width is its own. -/
theorem fpackBytesAppends : Obligations.FpackBytesAppends := by
  unfold Obligations.FpackBytesAppends
  intro s w hf hw h0 h1
  have hroom : s.RoomFor w := ⟨h0, h1⟩
  constructor
  · obtain ⟨t, he, hp⟩ := exec_packs hf hw hroom (exec_fpackTxt w s) rfl (encTxt_length _ _)
    exact ⟨t, _, he, encTxt_isTextField _ _, hp.result, hp.frame⟩
  · intro h
    have hlen := s.arg.content_length.trans h
    obtain ⟨t, he, hp⟩ := exec_packs hf hw hroom (exec_fpackRaw w s) (rawField_ok hlen) hlen
    exact ⟨t, he, hp.result, hp.frame⟩

/-- Settles O36: the fields of a coefficient below the bounds of `enc_num` and `enc_bcd`. -/
theorem fpackNumbersAppend : Obligations.FpackNumbersAppend := by
  unfold Obligations.FpackNumbersAppend
  intro s w sc e hf hw h0 h1
  have hroom : s.RoomFor w := ⟨h0, h1⟩
  constructor
  · intro h
    obtain ⟨t, he, hp⟩ :=
      exec_packs hf hw hroom (exec_fpackNum w sc e s) (decimalField_ok h) (digitString_length _ _)
    exact ⟨t, _, he, digitString_isDecimalField _ _, hp.result, hp.frame⟩
  · intro h
    obtain ⟨t, he, hp⟩ :=
      exec_packs hf hw hroom (exec_fpackBcd w sc e s) (packedField_ok h) (packedString_length _ _)
    exact ⟨t, _, he, packedString_isPackedField _ _, hp.result, hp.frame⟩

/-- Settles O37: the fields of a digit string below the bounds of `enc_num` and `enc_bcd`. -/
theorem fpackDigitsAppend : Obligations.FpackDigitsAppend := by
  unfold Obligations.FpackDigitsAppend
  intro s w hf hw h0 h1 hd
  have hroom : s.RoomFor w := ⟨h0, h1⟩
  constructor
  · intro h
    have hfield := (decimalDigitsField_of_digits (w := w) hd).trans (encNum_ok _ _ h)
    obtain ⟨t, he, hp⟩ := exec_packs hf hw hroom (exec_fpackNumd w s) hfield (digitString_length _ _)
    exact ⟨t, _, he, digitString_isDecimalField _ _, hp.result, hp.frame⟩
  · intro h
    have hfield := (packedDigitsField_of_digits (w := w) hd).trans (encBcd_ok _ _ h)
    obtain ⟨t, he, hp⟩ := exec_packs hf hw hroom (exec_fpackBcdd w s) hfield (packedString_length _ _)
    exact ⟨t, _, he, packedString_isPackedField _ _, hp.result, hp.frame⟩

section PackFaults

variable {s : State} {w : Byte}

/-- R169, R171: the packs of a digit string raise at its first byte that is no digit. -/
theorem exec_packs_badDigit (hf : s.flt.kind = .noFault) (hroom : s.RoomFor w) {n : Nat}
    (hbad : FirstBad AsciiDigit s.arg.content n) {i : Instr} (hi : i ∈ [Instr.fpackNumd w, .fpackBcdd w]) :
    exec i s = .next (s.faulted .invalidEncoding 0#8 (half n) .noTable) := by
  simp only [List.mem_cons, List.not_mem_nil, or_false] at hi
  rcases hi with rfl | rfl
  · exact exec_packs_invalid hf hroom (exec_fpackNumd w s) (decimalDigitsField_bad hbad)
  · exact exec_packs_invalid hf hroom (exec_fpackBcdd w s) (packedDigitsField_bad hbad)

/-- R172: `FPACK.RAW` of too short an `ARG` raises with its length. -/
theorem exec_fpackRaw_short (hf : s.flt.kind = .noFault) (hroom : s.RoomFor w)
    (h : s.arg.len.toNat < w.toNat) :
    exec (.fpackRaw w) s = .next (s.faulted .invalidEncoding 0#8 s.arg.len .noTable) := by
  have hlen := s.arg.content_length
  have hraise := exec_packs_invalid hf hroom (exec_fpackRaw w s) (rawField_short (by omega))
  rwa [hlen, half_toNat_self] at hraise

end PackFaults

/-- Settles O38: the two checks come before the field, whichever it is; then each field has its own faults. -/
theorem fpackTraps : Obligations.FpackTraps := by
  unfold Obligations.FpackTraps
  intro s w sc e hf packs
  refine ⟨fun h0 i hi => ?noCommand, fun h0 h1 i hi => ?capacity, fun h0 h1 => ?codec⟩
  case noCommand =>
    obtain ⟨r, he⟩ := exec_pack_of_mem hi
    exact exec_packs_noCommand hf h0 he
  case capacity =>
    obtain ⟨r, he⟩ := exec_pack_of_mem hi
    exact exec_packs_capacity hf h0 h1 he
  case codec =>
    have hroom : s.RoomFor w := ⟨h0, h1⟩
    refine ⟨fun h => ?num, fun h => ?bcd, fun hd h => ?numd, fun hd h => ?bcdd,
      fun k hbad i hi => exec_packs_badDigit hf hroom hbad hi, fun h => ?rawLong, exec_fpackRaw_short hf hroom⟩
    case num => exact exec_packs_overflow hf hroom (exec_fpackNum w sc e s) (decimalField_overflow h)
    case bcd => exact exec_packs_overflow hf hroom (exec_fpackBcd w sc e s) (packedField_overflow h)
    case numd =>
      exact exec_packs_overflow hf hroom (exec_fpackNumd w s)
        ((decimalDigitsField_of_digits hd).trans (encNum_overflow _ _ h))
    case bcdd =>
      exact exec_packs_overflow hf hroom (exec_fpackBcdd w s)
        ((packedDigitsField_of_digits hd).trans (encBcd_overflow _ _ h))
    case rawLong =>
      exact exec_packs_overflow hf hroom (exec_fpackRaw w s) (rawField_long (by rwa [s.arg.content_length]))

section Unpackings

variable {s : State} {w : Byte} {i : Instr} {dec : ByteString → Except CodecFault FieldValue}

/-- R173: an `FUNPK.*` of a field inside the payload decodes that field. -/
theorem exec_unpacks (hf : s.flt.kind = .noFault)
    (he : exec i s = .next (s.ordinary fun s => s.unpackField w dec))
    (hin : s.xs.toNat + w.toNat ≤ s.plen.toNat) : exec i s = .next (s.deliver (dec (s.payloadField w))) := by
  rw [he, State.ordinary_clear _ s hf, State.unpackField_inside w dec s hin]

/-- R173: an `FUNPK.*` of a field that reaches past the payload. -/
theorem exec_unpacks_outside (hf : s.flt.kind = .noFault)
    (he : exec i s = .next (s.ordinary fun s => s.unpackField w dec))
    (hout : s.plen.toNat < s.xs.toNat + w.toNat) :
    exec i s = .next (s.faulted .illegalOp 0#8 3#16 .noTable) := by
  rw [he, State.ordinary_clear _ s hf, State.unpackField_outside w dec s hout, State.illegal_clear _ s hf]
  rfl

/-- R303, R305: an `FUNPK.*` of a field with a byte that does not decode. -/
theorem exec_unpacks_invalid (hf : s.flt.kind = .noFault) {n : Nat}
    (he : exec i s = .next (s.ordinary fun s => s.unpackField w dec))
    (hin : s.xs.toNat + w.toNat ≤ s.plen.toNat) (hdec : dec (s.payloadField w) = .error (.invalid n)) :
    exec i s = .next (s.faulted .invalidEncoding 0#8 (half n) .noTable) := by
  rw [exec_unpacks hf he hin, hdec]
  exact congrArg _ (State.raiseCodec_invalid n s hf)

/-- R174, R177: the field as it stands. -/
theorem exec_unpacks_verbatim (hf : s.flt.kind = .noFault) (hw : s.res.mem.wf = true)
    (he : exec i s = .next (s.ordinary fun s => s.unpackField w decodeVerbatim))
    (hin : s.xs.toNat + w.toNat ≤ s.plen.toNat) :
    ∃ t, exec i s = .next t ∧ Decodes s t (s.payloadField w) false 0#4 (w.setWidth 64) := by
  have hlen := State.payloadField_length w s hin
  have hwidth : datum (s.payloadField w).length = w.setWidth 64 := by
    rw [hlen]
    exact BitVec.ofNat_toNat 64 w
  refine ⟨_, exec_unpacks hf he hin, ?_⟩
  rw [decodeVerbatim, hwidth]
  exact State.deliver_ok ⟨s.payloadField w, false, 0#4, w.setWidth 64⟩ s hw (by simp only [hlen]; omega)

end Unpackings

/-- Settles O39: `FUNPK.TXT` and `FUNPK.RAW` have one body. -/
theorem funpkVerbatim : Obligations.FunpkVerbatim := by
  unfold Obligations.FunpkVerbatim
  intro s w i hi hf hw
  have hexec : exec i s = .next (s.ordinary fun s => s.unpackField w decodeVerbatim) := by
    rcases hi with rfl | rfl
    · exact exec_funpkTxt w s
    · exact exec_funpkRaw w s
  exact ⟨rfl, rfl, exec_unpacks_verbatim hf hw hexec, exec_unpacks_outside hf hexec⟩

/-- Settles O40: the window check, then the digit check. -/
theorem funpkNumDecodes : Obligations.FunpkNumDecodes := by
  unfold Obligations.FunpkNumDecodes
  intro s w sc hf hw
  have hexec := exec_funpkNum w sc s
  refine ⟨rfl, fun hin hd => ⟨_, exec_unpacks hf hexec hin, ?_⟩,
    fun hin i hbad => exec_unpacks_invalid hf hexec hin (decodeNum_bad _ sc i hbad), exec_unpacks_outside hf hexec⟩
  rw [decodeNum_ok _ _ hd]
  exact State.deliver_number _ sc s hw (by rw [State.payloadField_length w s hin]; omega)

/-- Settles O41: the window check, then the nibble check. -/
theorem funpkBcdDecodes : Obligations.FunpkBcdDecodes := by
  unfold Obligations.FunpkBcdDecodes
  intro s w sc hf hw
  have hexec := exec_funpkBcd w sc s
  refine ⟨rfl, fun hin hd => ⟨_, exec_unpacks hf hexec hin, ?_⟩,
    fun hin i hbad => exec_unpacks_invalid hf hexec hin (decodeBcd_bad _ sc i hbad), exec_unpacks_outside hf hexec⟩
  rw [decodeBcd_ok _ _ hd]
  exact State.deliver_number _ sc s hw (by rw [bcdText_length, State.payloadField_length w s hin]; omega)

end Sys2Proof.Machine
end

section
/-! SUPPORT. The frame builder and the command cycle (42_frame_builder_checksum.md), with `XP.READ`: what the operations
do with no fault latched, when their checks fail before any I/O, and how they end over a reply that is delivered. -/

namespace Sys2Proof.Machine

section Checks

variable {s : State} {i : Instr} {p q : State → Prop} [DecidablePred p] [DecidablePred q] {r r' : IllegalReason}
  {k : State → State}

/-- R308: an operation whose second check fails raises the reason of that check and does nothing else. -/
theorem exec_second_check_fails (hf : s.flt.kind = .noFault)
    (he : exec i s = .next (s.ordinary fun s => if p s then s.illegal r else if q s then s.illegal r' else k s))
    (hp : ¬ p s) (hq : q s) : exec i s = .next (s.faulted .illegalOp 0#8 r'.code .noTable) := by
  rw [exec_check_passes hf he hp, if_pos hq, State.illegal_clear r' s hf]

/-- R308: an operation both of whose checks pass goes on. -/
theorem exec_both_checks_pass (hf : s.flt.kind = .noFault)
    (he : exec i s = .next (s.ordinary fun s => if p s then s.illegal r else if q s then s.illegal r' else k s))
    (hp : ¬ p s) (hq : ¬ q s) : exec i s = .next (k s) := by
  rw [exec_check_passes hf he hp, if_neg hq]

/-- R201: a send with no command begun. -/
theorem exec_sends_noCommand {n : Nat} (hf : s.flt.kind = .noFault) (h0 : s.cmd.len = 0#16)
    (he : exec i s = .next (s.ordinary fun s => s.sendChecked n k)) :
    exec i s = .next (s.faulted .illegalOp 0#8 4#16 .noTable) := exec_check_fails hf he h0

/-- R201: a send whose reply of `n` bytes does not fit `RPL`. -/
theorem exec_sends_capacity {n : Nat} (hf : s.flt.kind = .noFault) (h0 : s.cmd.len ≠ 0#16)
    (hn : s.params.rplCap < n) (he : exec i s = .next (s.ordinary fun s => s.sendChecked n k)) :
    exec i s = .next (s.faulted .illegalOp 0#8 5#16 .noTable) := exec_second_check_fails hf he h0 hn

end Checks

/-- R241: no entry is found exactly where none has the number. -/
theorem lookupRegister_eq_none {p : Params} {id : Byte} :
    lookupRegister p id = none ↔ ∀ e ∈ p.regTable, e.id ≠ id := by
  simp [lookupRegister, List.find?_eq_none]

/-- R244: `REG.READ` of a register absent from the table. -/
theorem exec_regRead_absent {s : State} {id : Byte} (hf : s.flt.kind = .noFault)
    (h : lookupRegister s.params id = none) :
    exec (.regRead id) s = .next (s.faulted .unsupportedRegister 0#8 (id.setWidth 16) .noTable) := by
  rw [exec_regRead, execRegRead, State.ordinary_clear _ s hf]
  simp only [h]
  exact congrArg _ (State.raise_clear _ _ _ _ s hf)

/-- R195, R198: the word of `CSUM` as a number, for a command whose packet length fits 16 bits. -/
theorem csumWord_eq {c : ByteString} (h : c.length + 2 < 65536) :
    0#32 ++ packetLength c ++ checksum c =
      BitVec.ofNat 64 ((c.map BitVec.toNat).sum % 65536 + (c.length + 2) * 65536) := by
  apply BitVec.eq_of_toNat_eq
  rw [toNat_append_eq, toNat_append_eq, checksum_eq, packetLength, half_toNat_of_lt _ h, half_toNat]
  simp only [BitVec.toNat_ofNat]
  omega

section Delivered

variable {s u : State} {i : Instr} {chunks : List ByteString}

/-- R221: an operation with I/O whose reply is delivered goes on to its finish. -/
theorem exec_delivers {n : Nat} {reply : ByteString} (hf : s.flt.kind = .noFault)
    (h : s.beforeRead i = some (u, n)) (ha : Answers u.txScript u.txLog n chunks)
    (hd : Delivers s.params.retryCeiling n chunks reply) :
    exec i s = .next (ioFinish s.params i ((u.enterPhase .poll).afterPolls n chunks reply)) := by
  obtain ⟨hcfg, -⟩ := s.beforeRead_frame u i n h
  have hp : (u.enterPhase .poll).params = s.params := congrArg Configuration.params hcfg
  have hread := (u.enterPhase .poll).readExact_delivers n (s.beforeRead_length u i n h).2 chunks reply ha (hp ▸ hd)
  rw [exec_beforeRead s u i n hf h, hread]
  rfl

/-- R207, R230: the end of a raw reply of `n` bytes. -/
theorem State.finishRaw_afterPolls (u : State) (n : Half) (reply : ByteString) :
    ((u.enterPhase .poll).afterPolls n.toNat chunks reply).finishRaw n.toNat =
      { u.received n.toNat chunks (u.rpl.load reply) with
        pbase := 0#16, plen := n, completions := ⟨0#4, n.setWidth 64⟩ :: u.completions } := by
  have hplen : half n.toNat = n := half_toNat_self n
  have hxd : datum n.toNat = n.setWidth 64 := BitVec.ofNat_toNat 64 n
  rw [State.finishRaw, hplen, hxd]
  rfl

/-- R201: what `CMD.SEND` does before its read, once its checks have passed. -/
theorem State.beforeRead_cmdSend {n : Half} (h0 : s.cmd.len ≠ 0#16) (hn : n.toNat + 3 ≤ s.params.rplCap) :
    s.beforeRead (.cmdSend n) = some (s.sent, n.toNat + 3) := if_neg (not_or.2 ⟨h0, Nat.not_lt.2 hn⟩)

/-- R205: what `CMD.SEND` returns of the payload `pay`: its one byte, else the payload length asked for. -/
def sendResult (n : Half) : ByteString → Datum
  | [b] => b.setWidth 64
  | _ => n.setWidth 64

/-- R202 line 9, R205: the end of a send whose reply, in `RPL`, has the payload `pay`. -/
theorem State.finishSend_of_payload (r : State) {n : Half} {pay : ByteString} (hlen : pay.length = n.toNat)
    (hpay : ∀ b, pay = [b] → r.rpl.mem.read 1 = b) :
    r.finishSend n.toNat = (r.enterPhase .idle).complete (sendResult n pay) := by
  have hxd : datum n.toNat = n.setWidth 64 := BitVec.ofNat_toNat 64 n
  rw [State.finishSend, ← hlen]
  congr 1
  match pay, hlen, hpay with
  | [], hlen, _ => rw [if_neg (by simp), hlen, hxd]; rfl
  | [b], _, hpay => rw [if_pos List.length_singleton, hpay b rfl]; rfl
  | _ :: _ :: _, hlen, _ => rw [if_neg (by simp), hlen, hxd]; rfl

/-- R202 lines 2 to 7: the state in which `CMD.SEND N16` has latched the reply `ack`, `pay`, `st1`, `st2`. -/
def State.repliedTo (n : Half) (chunks : List ByteString) (ack st1 st2 : Byte) (pay : ByteString) (s : State) : State :=
  (s.sent.received (n.toNat + 3) chunks (s.rpl.load (ack :: pay ++ [st1, st2]))).latched ack st1 st2 n.toNat

/-- R202: `CMD.SEND` with a reply that is delivered latches it, checks it and ends. -/
theorem exec_cmdSend_delivers {n : Half} {ack st1 st2 : Byte} {pay : ByteString} (hf : s.flt.kind = .noFault)
    (hw : s.rpl.mem.wf = true) (h0 : s.cmd.len ≠ 0#16) (hn : n.toNat + 3 ≤ s.params.rplCap)
    (ha : Answers s.txScript s.sent.txLog (n.toNat + 3) chunks)
    (hd : Delivers s.params.retryCeiling (n.toNat + 3) chunks (ack :: pay ++ [st1, st2])) :
    exec (.cmdSend n) s =
      .next (((s.repliedTo n chunks ack st1 st2 pay).enterPhase .check).checkReply (State.finishSend n.toNat)) := by
  have hlatch := latchReply_eq (s.sent.enterPhase .poll) n chunks ack st1 st2 pay hw hd.total
  rw [exec_delivers hf (State.beforeRead_cmdSend h0 hn) ha hd, ioFinish, hlatch]
  rfl

/-- R14, R199: a reply that fits `RPL` is held there. -/
theorem State.repliedTo_holds {n : Half} {ack st1 st2 : Byte} {pay : ByteString} (hw : s.rpl.mem.wf = true)
    (hn : n.toNat + 3 ≤ s.params.rplCap) (hlen : (ack :: pay ++ [st1, st2]).length = n.toNat + 3) :
    s.rpl.Holds (s.repliedTo n chunks ack st1 st2 pay).rpl (ack :: pay ++ [st1, st2]) := by
  have hcap := s.capacities
  exact Buffer.load_holds s.rpl _ hw (by omega)

/-- R202 line 9, R205: the end of `CMD.SEND` over the reply it has latched. -/
theorem State.repliedTo_finishSend {n : Half} {ack st1 st2 : Byte} {pay : ByteString} (hw : s.rpl.mem.wf = true)
    (hlen : (ack :: pay ++ [st1, st2]).length = n.toNat + 3) :
    ((s.repliedTo n chunks ack st1 st2 pay).enterPhase .check).finishSend n.toNat =
      (s.repliedTo n chunks ack st1 st2 pay).complete (sendResult n pay) := by
  have hpay : pay.length = n.toNat := by simpa using hlen
  refine State.finishSend_of_payload _ hpay fun b hb => Buffer.load_read _ s.rpl hw 1 b ?_
  rw [hb]
  rfl

end Delivered

/-- Settles O42: `CMD` is loaded with the identifier's bytes, at most three. -/
theorem cmdBeginStarts : Obligations.CmdBeginStarts := by
  unfold Obligations.CmdBeginStarts
  intro s id hf hw
  have hlt : (idBytes id).length < 65536 := by have := idBytes_length_le id; omega
  have hlen : datumOfHalf (s.cmd.load (idBytes id)).len = BitVec.ofNat 64 (idBytes id).length :=
    datumOfHalf_half _ hlt
  have hexec := exec_cmdBegin id s
  rw [execCmdBegin, State.ordinary_clear _ s hf] at hexec
  refine ⟨rfl, _, idBytes id, hexec, idBytes_isIdentifier id, Buffer.load_holds s.cmd _ hw hlt, ?_⟩
  rw [← hlen]
  rfl

/-- Settles O43: the two checks in their order, then the append. -/
theorem cmdPushAppends : Obligations.CmdPushAppends := by
  unfold Obligations.CmdPushAppends
  intro s b hf hw
  have hexec := exec_cmdPush b s
  have hcap := s.capacities
  refine ⟨rfl, fun h0 hroom => ?_, fun h0 => exec_check_fails hf hexec h0,
    fun h0 hfull => exec_second_check_fails hf hexec h0 (Nat.le_of_eq hfull.symm)⟩
  have hlt : s.cmd.len.toNat + [b].length < 65536 := by simp only [List.length_singleton]; omega
  have hlen : datumOfHalf (s.cmd.append [b]).len = BitVec.ofNat 64 (s.cmd.len.toNat + 1) := datumOfHalf_half _ hlt
  refine ⟨_, exec_both_checks_pass hf hexec h0 (Nat.not_le.2 hroom), Buffer.append_extends s.cmd [b] hw hlt, ?_⟩
  rw [← hlen]
  rfl

/-- Settles O44: the word of `CSUM` is its number, because `CMD_CAP + 2` fits 16 bits. -/
theorem csumSums : Obligations.CsumSums := by
  unfold Obligations.CsumSums
  intro s hf hlen
  have hcap := s.capacities
  have hword := csumWord_eq (c := s.cmd.content) (by rw [s.cmd.content_length]; omega)
  rw [s.cmd.content_length] at hword
  rw [exec_csum, execCsum, State.ordinary_clear _ s hf, hword]
  rfl

/-- Settles O45: the reply is latched; then the status check lets it pass or raises its fault. -/
theorem cmdSendRuns : Obligations.CmdSendRuns := by
  unfold Obligations.CmdSendRuns
  intro s n chunks ack st1 st2 pay hf hw h0 hn ha hd
  have hexec := exec_cmdSend_delivers hf hw h0 hn ha hd
  have hholds := State.repliedTo_holds (chunks := chunks) hw hn hd.total
  constructor
  · intro hpass
    rw [State.checkReply_passes _ _ hpass, State.repliedTo_finishSend hw hd.total] at hexec
    exact ⟨_, hexec, hholds, rfl⟩
  · intro hid e tbl hraise
    have hraised := State.checkReply_raises (State.finishSend n.toNat)
      ((s.repliedTo n chunks ack st1 st2 pay).enterPhase .check) e tbl hid hraise hf
    exact ⟨_, hexec.trans (congrArg _ hraised), hholds, rfl⟩

/-- Settles O46: `CMD.SENDR` and `XP.READ` end alike over a reply that is delivered. -/
theorem rawReadsRun : Obligations.RawReadsRun := by
  unfold Obligations.RawReadsRun
  intro s u n i chunks reply hi hf hw hbefore ha hd
  obtain ⟨-, hrpl, -, -, hcompletions, -⟩ := s.beforeRead_frame u i n.toNat hbefore
  have hfinish : ioFinish s.params i = State.finishRaw n.toNat := by rcases hi with rfl | rfl <;> rfl
  have hexec := exec_delivers hf hbefore ha hd
  rw [hfinish, State.finishRaw_afterPolls, hrpl, hcompletions] at hexec
  have hlt : reply.length < 65536 := by rw [hd.total]; exact n.isLt
  exact ⟨_, hexec, Buffer.load_holds s.rpl reply hw hlt, rfl⟩

/-- Settles O47: each failed check raises at once. -/
theorem checksPrecedeIo : Obligations.ChecksPrecedeIo := by
  unfold Obligations.ChecksPrecedeIo
  intro s n id hf
  refine ⟨fun h0 i hi => ?noCommand, fun h0 hn => exec_sends_capacity hf h0 hn (exec_cmdSend n s),
    fun h0 hn => exec_sends_capacity hf h0 hn (exec_cmdSendr n s), exec_check_fails hf (exec_xpRead n s),
    fun habsent => exec_regRead_absent hf (lookupRegister_eq_none.2 habsent)⟩
  case noCommand =>
    simp only [List.mem_cons, List.not_mem_nil, or_false] at hi
    rcases hi with rfl | rfl
    · exact exec_sends_noCommand hf h0 (exec_cmdSend n s)
    · exact exec_sends_noCommand hf h0 (exec_cmdSendr n s)

end Sys2Proof.Machine
end

section
/-! SUPPORT. The transport loop at work (43_transport_loop.md): how an operation with I/O ends over each end of its read
(R222 to R225, R233), that its finish neither sees nor touches what the polls left behind (R231), how often it polls
(R228), and that the machine with steps follows the one-shot procedure (R226). -/

namespace Sys2Proof.Machine

section Reads

variable {s u : State} {i : Instr} {n : Nat} {chunks : List ByteString} {got : ByteString}

/-- R11: the parameters of the state a read begins in. -/
theorem State.beforeRead_params (h : s.beforeRead i = some (u, n)) : (u.enterPhase .poll).params = s.params :=
  congrArg Configuration.params (s.beforeRead_frame u i n h).1

/-- R233, R310: the fault of a read, raised over what had arrived. -/
theorem State.afterPolls_raise (hf : s.flt.kind = .noFault) (h : s.beforeRead i = some (u, n)) (k : FaultKind)
    (det : Half) :
    ((u.enterPhase .poll).afterPolls n chunks got).raise k 0#8 det .noTable =
      (u.received n chunks (s.rpl.load got)).faulted k 0#8 det .noTable := by
  obtain ⟨-, hrpl, -, -, -, hflt, -⟩ := s.beforeRead_frame u i n h
  have hnone : u.flt.kind = .noFault := hflt ▸ hf
  rw [← hrpl]
  exact State.raise_clear _ _ _ _ _ hnone

/-- R224, R233: an operation with I/O whose retry budget runs out. -/
theorem exec_exhausts (hf : s.flt.kind = .noFault) (h : s.beforeRead i = some (u, n))
    (ha : Answers u.txScript u.txLog n chunks) (hd : Exhausts s.params.retryCeiling n chunks got) :
    exec i s = .next ((u.received n chunks (s.rpl.load got)).faulted
      .communicationTimeout 0#8 (half got.length) .noTable) := by
  rw [← State.beforeRead_params h] at hd
  rw [exec_beforeRead s u i n hf h,
    (u.enterPhase .poll).readExact_exhausts n (s.beforeRead_length u i n h).2 chunks got ha hd]
  exact congrArg _ (State.afterPolls_raise hf h _ _)

/-- R225, R233: an operation with I/O that is answered with more than is missing. -/
theorem exec_overruns {excess : ByteString} (hf : s.flt.kind = .noFault) (h : s.beforeRead i = some (u, n))
    (ha : Answers u.txScript u.txLog n (chunks ++ [excess]))
    (hd : Overruns s.params.retryCeiling n chunks got excess) :
    exec i s = .next ((u.received n (chunks ++ [excess]) (s.rpl.load got)).faulted
      .protocolViolation 0#8 (half excess.length) .noTable) := by
  rw [← State.beforeRead_params h] at hd
  rw [exec_beforeRead s u i n hf h,
    (u.enterPhase .poll).readExact_overruns n (s.beforeRead_length u i n h).2 chunks got excess ha hd]
  exact congrArg _ (State.afterPolls_raise hf h _ _)

/-- R14, R222: what a read that did not complete has received is held in `RPL`. -/
theorem State.beforeRead_holds (hw : s.rpl.mem.wf = true) (h : s.beforeRead i = some (u, n)) (hlt : got.length < n) :
    s.rpl.Holds (s.rpl.load got) got :=
  Buffer.load_holds s.rpl got hw (hlt.trans (s.beforeRead_length u i n h).2)

end Reads

/-- Settles O48: both faults of a read, over the bytes that had arrived. -/
theorem readFaults : Obligations.ReadFaults := by
  unfold Obligations.ReadFaults
  intro s u i n chunks got hf hw hbefore
  refine ⟨fun ha hd => ?timeout, fun excess ha hd => ?overlong⟩
  case timeout => exact ⟨_, exec_exhausts hf hbefore ha hd, State.beforeRead_holds hw hbefore hd.partly, rfl⟩
  case overlong => exact ⟨_, exec_overruns hf hbefore ha hd, State.beforeRead_holds hw hbefore hd.partly, rfl⟩

section Finishes

variable {retry : Half} {script : List ByteString} {log : List TxEvent}

/-- R231: the state with another count of empty polls, script and log, which is all that one chunking of a reply leaves
behind and another does not. -/
def State.withPolls (retry : Half) (script : List ByteString) (log : List TxEvent) (s : State) : State :=
  { s with retry := retry, txScript := script, txLog := log }

/-- R260: the status check does not look at the polls. -/
theorem State.statusCheck_withPolls {k : State → State} (s : State) (st1 st2 : Byte)
    (hk : k (s.withPolls retry script log) = (k s).withPolls retry script log) :
    (s.withPolls retry script log).statusCheck st1 st2 k = (s.statusCheck st1 st2 k).withPolls retry script log := by
  unfold State.statusCheck
  rw [show (s.withPolls retry script log).params = s.params from rfl]
  cases statusFault s.params st1 st2 with
  | none => exact hk
  | some r => rfl

/-- R202 line 8, R206: nor does the check of a reply. -/
theorem State.checkReply_withPolls {k : State → State} (s : State)
    (hk : k (s.withPolls retry script log) = (k s).withPolls retry script log) :
    (s.withPolls retry script log).checkReply k = (s.checkReply k).withPolls retry script log := by
  by_cases hid : s.cmdId = s.params.rdregId
  · exact (if_pos hid).trans (hk.trans (congrArg _ (if_pos hid).symm))
  · exact (if_neg hid).trans ((State.statusCheck_withPolls s _ _ hk).trans (congrArg _ (if_neg hid).symm))

/-- R243 lines 5 to 7: nor does the decoding of a register. -/
theorem State.deliverRegister_withPolls (e : RegDescriptor) (s : State) :
    (s.withPolls retry script log).deliverRegister e = (s.deliverRegister e).withPolls retry script log := by
  unfold State.deliverRegister State.deliver
  rw [show (s.withPolls retry script log).rpl = s.rpl from rfl]
  match decodeRegister e (s.rpl.mem.readBytes 1 e.width.toNat) with
  | .ok v => rfl
  | .error .overflow => rfl
  | .error (.invalid i) => rfl

/-- R231: the finish of an operation with I/O neither sees nor touches what the polls left behind. -/
theorem ioFinish_withPolls (p : Params) (i : Instr) (s : State) :
    ioFinish p i (s.withPolls retry script log) = (ioFinish p i s).withPolls retry script log := by
  unfold ioFinish
  split
  next n => exact State.checkReply_withPolls (s.latchReply n.toNat) rfl
  next n => rfl
  next n => rfl
  next id =>
    cases lookupRegister p id with
    | none => rfl
    | some e => exact State.checkReply_withPolls (s.latchReply e.width.toNat) (State.deliverRegister_withPolls e _)
  next => rfl

/-- R68: the finish makes no call on the transport port. -/
theorem ioFinish_txLog (p : Params) (i : Instr) (s : State) : (ioFinish p i s).txLog = s.txLog := by
  have h : ioFinish p i s = (ioFinish p i s).withPolls s.retry s.txScript s.txLog := ioFinish_withPolls p i s
  rw [h]
  rfl

end Finishes

/-- R67: the script ahead has no part in what an operation does before its read. -/
theorem State.beforeRead_withScript (s : State) (i : Instr) (script : List ByteString) :
    ({ s with txScript := script } : State).beforeRead i =
      (s.beforeRead i).map fun r => ({ r.1 with txScript := script }, r.2) := by
  unfold State.beforeRead
  split
  · split <;> rfl
  · split <;> rfl
  · split <;> rfl
  · dsimp only [State.params]
    split <;> rfl
  · rfl

/-- Settles O50: two deliveries of one reply give the finish states that differ in the polls alone, and the finish keeps
it so. -/
theorem chunkingIsInvisible : Obligations.ChunkingIsInvisible := by
  unfold Obligations.ChunkingIsInvisible
  intro s u i n script chunks chunks' reply hf hw hbefore ha hd ha' hd'
  have hbefore' : ({ s with txScript := script } : State).beforeRead i = some ({ u with txScript := script }, n) := by
    rw [State.beforeRead_withScript, hbefore]
    rfl
  have hpolls : (State.enterPhase .poll { u with txScript := script }).afterPolls n chunks' reply =
      ((u.enterPhase .poll).afterPolls n chunks reply).withPolls (half (emptyPolls chunks'))
        (script.drop chunks'.length) (pollLog n chunks' u.txLog) := rfl
  refine ⟨_, _, exec_delivers hf hbefore ha hd, exec_delivers hf hbefore' ha' hd', ?_⟩
  rw [hpolls, ioFinish_withPolls]
  rfl

section Packets

/-- R67: the polls write no packet. -/
theorem packetsWritten_pollLog (k : Nat) (chunks : List ByteString) (log : List TxEvent) :
    packetsWritten (pollLog k chunks log) = packetsWritten log := by
  induction chunks generalizing k log with
  | nil => rfl
  | cons c cs ih => exact (ih _ _).trans (packetsWritten_read k c log)

/-- R208, R243: the command an operation that sends puts in its packet. -/
def State.commandOf (s : State) : Instr → ByteString
  | .regRead id => idBytes s.params.rdregId ++ [id]
  | _ => s.cmd.content

/-- R66, R202: a send writes the packet of its command. -/
theorem State.packetsWritten_sent (s : State) :
    packetsWritten s.sent.txLog = packetBytes s.params.stx s.cmd.content :: packetsWritten s.txLog := rfl

/-- R243 line 3: what the read-register command holds. -/
theorem State.withRegisterCommand_content {s : State} (hw : s.cmd.mem.wf = true) (id : Byte) :
    (s.withRegisterCommand id).cmd.content = idBytes s.params.rdregId ++ [id] := by
  have hlen := idBytes_length_le s.params.rdregId
  refine Buffer.load_content _ s.cmd hw ?_
  rw [List.length_append, List.length_singleton]
  omega

/-- R76, R208: before its read an operation with I/O writes its packet, if it sends, and no other. -/
theorem State.beforeRead_packets {s u : State} {i : Instr} {n : Nat} (hw : s.cmd.mem.wf = true)
    (h : s.beforeRead i = some (u, n)) :
    packetsWritten u.txLog = (if sendsPacket i = true then [packetBytes s.params.stx (s.commandOf i)] else []) ++
      packetsWritten s.txLog := by
  unfold State.beforeRead at h
  split at h
  next m =>
    obtain ⟨-, h⟩ := Option.ite_none_left_eq_some.1 h
    obtain ⟨rfl, -⟩ := h
    rfl
  next m =>
    obtain ⟨-, h⟩ := Option.ite_none_left_eq_some.1 h
    obtain ⟨rfl, -⟩ := h
    rfl
  next m =>
    obtain ⟨-, h⟩ := Option.ite_none_left_eq_some.1 h
    obtain ⟨rfl, -⟩ := h
    rfl
  next id =>
    split at h
    · nomatch h
    · cases h
      rw [State.packetsWritten_sent, State.withRegisterCommand_content hw]
      rfl
  next => nomatch h

end Packets

/-- R222, R228: every end of an operation with I/O leaves on the log just the polls of its read. -/
theorem exec_io_txLog {s u : State} {i : Instr} {n : Nat} (hf : s.flt.kind = .noFault)
    (h : s.beforeRead i = some (u, n)) :
    ∃ t chunks, exec i s = .next t ∧ Answers u.txScript u.txLog n chunks ∧ t.txLog = pollLog n chunks u.txLog ∧
      (n = 0 → chunks = []) ∧ (1 ≤ n → chunks.length ≤ n + s.params.retryCeiling - 1) := by
  obtain ⟨chunks, ha, hnone, hbound, hends⟩ := exec_io_cases s u i n hf h
  rcases hends with ⟨reply, -, hexec⟩ | ⟨got, -, hexec⟩ | ⟨pre, got, excess, -, -, hexec⟩
  · exact ⟨_, chunks, hexec, ha, ioFinish_txLog _ _ _, hnone, hbound⟩
  · exact ⟨_, chunks, hexec, ha, rfl, hnone, hbound⟩
  · exact ⟨_, chunks, hexec, ha, rfl, hnone, hbound⟩

/-- Settles O49: the polls are those of the read, which is bounded, and the packet was written before it. -/
theorem pollsAreBounded : Obligations.PollsAreBounded := by
  unfold Obligations.PollsAreBounded
  intro s u i n hf hw hbefore
  obtain ⟨t, chunks, hexec, ha, hlog, hnone, hbound⟩ := exec_io_txLog hf hbefore
  refine ⟨t, chunks, hexec, ha, hlog, ?_, hnone, hbound⟩
  rw [hlog, packetsWritten_pollLog]
  exact State.beforeRead_packets hw hbefore

section Phases

variable {op : IoOp} {s : State}

/-- R226, the row `IDLE`: an idle block takes no further transition. -/
theorem IoOp.phaseRun_of_idle (op : IoOp) (hi : s.seq = .idle) (fuel : Nat) : op.phaseRun fuel s = s := by
  cases fuel with
  | zero => rfl
  | succ fuel => exact if_pos hi

/-- R226: one transition of a busy block. -/
theorem IoOp.phaseRun_of_busy (op : IoOp) (hb : s.seq ≠ .idle) (fuel : Nat) :
    op.phaseRun (fuel + 1) s = op.phaseRun fuel (op.phaseStep s) := if_neg hb

/-- R226, the row `CHECK`: the caller's work ends with the block idle. -/
theorem IoOp.finish_idle (op : IoOp) (s : State) : (op.finish s).seq = .idle := by
  have hk (n : Nat) : s.HostKept (s.latchReply n) := ⟨rfl, rfl, rfl⟩
  cases op with
  | send n => exact ((hk n).checkReply (hk n).finishSend).seq
  | sendRaw n => rfl
  | readOnly n => rfl
  | registerRead e => exact ((hk _).checkReply (hk _).deliverRegister).seq

/-- R226, the row `CHECK`: the caller's work does not look at the phase it is entered in. -/
theorem IoOp.finish_enterPhase (op : IoOp) (p : Phase) (s : State) : op.finish (s.enterPhase p) = op.finish s := by
  cases op <;> rfl

/-- R226, the row `POLL`: nothing is missing any more. -/
theorem IoOp.phaseStep_complete (op : IoOp) (hs : s.seq = .poll) (hm : s.missing = 0) :
    op.phaseStep s = s.enterPhase .check := by
  simp only [IoOp.phaseStep, hs, hm, if_pos]

/-- R226, the row `POLL`: a poll after which the read goes on. -/
theorem IoOp.phaseStep_goes_on (op : IoOp) {t : State} (hs : s.seq = .poll) (hm : s.missing ≠ 0)
    (hp : s.pollOnce = (t, none)) : op.phaseStep s = t := by
  simp only [IoOp.phaseStep, hs, if_neg hm, hp]

/-- R226, the row `POLL`: a poll that ends the read. -/
theorem IoOp.phaseStep_ends (op : IoOp) {t : State} {e : ReadEnd} (hs : s.seq = .poll) (hm : s.missing ≠ 0)
    (hp : s.pollOnce = (t, some e)) : op.phaseStep s = afterRead (fun t => t) (t, e) := by
  simp only [IoOp.phaseStep, hs, if_neg hm, hp]

/-- R222: a poll after which the read goes on. -/
theorem State.readLoop_goes_on {t : State} (hm : s.missing ≠ 0) (hp : s.pollOnce = (t, none)) (fuel : Nat) :
    s.readLoop (fuel + 1) = t.readLoop fuel := by
  rw [State.readLoop, if_neg hm, hp]

/-- R222: a poll that ends the read. -/
theorem State.readLoop_ends {t : State} {e : ReadEnd} (hm : s.missing ≠ 0) (hp : s.pollOnce = (t, some e))
    (fuel : Nat) : s.readLoop (fuel + 1) = (t, e) := by
  rw [State.readLoop, if_neg hm, hp]

/-- R222: a read that misses nothing is complete. -/
theorem State.readLoop_complete (hm : s.missing = 0) (fuel : Nat) : s.readLoop fuel = (s, .complete) := by
  cases fuel with
  | zero => rfl
  | succ fuel => exact if_pos hm

/-- R220 to R222: a read in progress, whose missing bytes and empty polls left come to at most `m`. -/
structure State.Reading (m : Nat) (s : State) : Prop where
  phase : s.seq = .poll
  received : s.rpl.len.toNat ≤ s.rplWant.toNat
  budget : s.retry.toNat < s.params.retryCeiling
  polls : s.missing + (s.params.retryCeiling - s.retry.toNat) ≤ m

/-- R11: polls change no parameter. -/
theorem State.polled_params (chunks : List ByteString) (got : ByteString) (s : State) :
    (s.polled chunks got).params = s.params := rfl

/-- R222, R228: a poll of a read in progress faults, or leaves a read in progress that has one poll less to make. -/
theorem State.Reading.pollOnce {m : Nat} (h : s.Reading (m + 1)) :
    (∃ t, s.pollOnce = (t, none) ∧ t.Reading m) ∨
      ∃ t e, s.pollOnce = (t, some e) ∧ e ≠ .complete := by
  obtain ⟨hs, hle, hb, hm⟩ := h
  have hceil := s.ceiling
  obtain ⟨c, hc⟩ : ∃ c, s.txAnswer s.missing = c := ⟨_, rfl⟩
  rcases s.pollOnce_cases c hc with ⟨h0, hp⟩ | ⟨-, -, hp⟩ | ⟨h0, hle', hp⟩
  case inl =>
    have hretry := s.retry_polled_empty c h0 (by omega)
    obtain ⟨hmiss, -⟩ := s.missing_polled [c] [] hle (Nat.zero_le _)
    rw [half_toNat_of_lt _ (by omega)] at hp
    by_cases hlast : s.params.retryCeiling ≤ s.retry.toNat + 1
    · rw [if_pos hlast] at hp
      exact .inr ⟨_, _, hp, nofun⟩
    · rw [if_neg hlast] at hp
      refine .inl ⟨s.polled [c] [], hp, hs, by simpa using hle, hretry ▸ Nat.not_le.1 hlast, ?_⟩
      rw [hmiss, hretry, List.length_nil, State.polled_params]
      omega
  case inr.inl => exact .inr ⟨_, _, hp, nofun⟩
  case inr.inr =>
    have hretry := s.retry_polled_bytes c c h0
    obtain ⟨hmiss, hlen⟩ := s.missing_polled [c] c hle hle'
    refine .inl ⟨s.polled [c] c, hp, hs, ?_, hretry ▸ hb, ?_⟩
    · rw [hlen, State.polled_rplWant]
      unfold State.missing at hle'
      omega
    · rw [hmiss, hretry, State.polled_params]
      omega

/-- R226: the phase machine in `POLL` makes the polls of the one-shot read, then the caller's work or the fault. -/
theorem IoOp.phaseRun_of_reading (op : IoOp) {m : Nat} (h : s.Reading m) (extra : Nat) :
    op.phaseRun (m + (extra + 2)) s = afterRead op.finish (s.readLoop m) := by
  induction m generalizing s with
  | zero =>
    have hb := h.budget
    have hp := h.polls
    omega
  | succ m ih =>
    have hbusy : s.seq ≠ .idle := by rw [h.phase]; nofun
    rw [Nat.add_right_comm, op.phaseRun_of_busy hbusy]
    by_cases hm : s.missing = 0
    · have hcheck : (s.enterPhase .check).seq ≠ .idle := nofun
      rw [op.phaseStep_complete h.phase hm, ← Nat.add_assoc, op.phaseRun_of_busy hcheck, s.readLoop_complete hm]
      show op.phaseRun _ (op.finish (s.enterPhase .check)) = op.finish s
      rw [op.finish_enterPhase, op.phaseRun_of_idle (op.finish_idle s)]
    · rcases h.pollOnce with ⟨t, hp, ht⟩ | ⟨t, e, hp, he⟩
      · rw [op.phaseStep_goes_on h.phase hm hp, State.readLoop_goes_on hm hp, ih ht]
      · rw [op.phaseStep_ends h.phase hm hp, State.readLoop_ends hm hp]
        cases e with
        | complete => exact absurd rfl he
        | timeout => exact op.phaseRun_of_idle rfl _
        | overlong len => exact op.phaseRun_of_idle rfl _

/-- R222 line 1: a read of `n` bytes that has just been started. -/
theorem State.startRead_reading {n : Nat} (hs : s.seq = .poll) (hn : n < 65536) :
    (s.startRead n).Reading (s.params.retryCeiling + n) where
  phase := hs
  received := Nat.zero_le _
  budget := s.cfg.ceiling.1
  polls := by
    rw [s.startRead_missing n hn, Nat.add_comm]
    exact Nat.le_refl _

/-- R221, R226: from the start of its read the phase machine follows the one-shot `read_exact`. -/
theorem IoOp.phaseRun_startRead (op : IoOp) (hs : s.seq = .poll) (hn : op.length < 65536) (extra : Nat) :
    op.phaseRun (s.params.retryCeiling + op.length + (extra + 2)) (s.startRead op.length) =
      afterRead op.finish (s.readExact op.length) :=
  op.phaseRun_of_reading (State.startRead_reading hs hn) extra

/-- R226, the row `WRITE`: an operation that sends writes its packet in the first transition, and polls from there. -/
theorem IoOp.phaseRun_start_writes (hw : op.writes = true) (fuel : Nat) :
    op.phaseRun (fuel + 1) (op.start s) = op.phaseRun fuel ((s.sendPacket.enterPhase .poll).startRead op.length) := by
  have hstart : op.start s = s.invalidateReply.enterPhase .write := if_pos hw
  rw [hstart]
  rfl

/-- R202, R207, R230, R243: the one-shot procedure is a read, from the state its write leaves, then the caller's
work. -/
theorem IoOp.oneShot_eq (op : IoOp) (s : State) :
    op.oneShot s = afterRead op.finish
      (((if op.writes then s.sendPacket else s.invalidateReply).enterPhase .poll).readExact op.length) := by
  cases op <;> rfl

end Phases

/-- Settles O56: the phase machine writes if the operation sends, then makes the polls of the one-shot read. -/
theorem phasesEqualOneShot : Obligations.PhasesEqualOneShot := by
  unfold Obligations.PhasesEqualOneShot
  intro op s hn
  have hlt : op.length < 65536 := by have := s.capacities; omega
  rw [op.oneShot_eq]
  cases hw : op.writes with
  | true =>
    rw [IoOp.phaseRun_start_writes hw]
    exact op.phaseRun_startRead (s := s.sendPacket.enterPhase .poll) rfl hlt 0
  | false =>
    have hstart : op.start s = (s.invalidateReply.enterPhase .poll).startRead op.length :=
      if_neg (by rw [hw]; exact Bool.false_ne_true)
    rw [hstart]
    exact op.phaseRun_startRead (s := s.invalidateReply.enterPhase .poll) rfl hlt 1

end Sys2Proof.Machine
end

section
/-! SUPPORT. The register table and the register reader (44_register_table.md): what a lookup answers, how `REG.READ`
ends over a reply that is delivered (R243), and that it has the effect of the host's long form (R250). -/

namespace Sys2Proof.Machine

section Lookup

/-- R46, R241: an entry of the table is the one found under its number. -/
theorem State.lookupRegister_of_mem {s : State} {e : RegDescriptor} (he : e ∈ s.params.regTable) :
    lookupRegister s.params e.id = some e := s.cfg.find_register e he

/-- R242: the result word of `REG.LOOKUP` as a number. -/
theorem registerWord_eq (e : RegDescriptor) :
    0#55 ++ BitVec.ofBool e.isBcd ++ e.width = BitVec.ofNat 64 (e.width.toNat + 256 * e.isBcd.toNat) := by
  have hw := e.width.isLt
  have hb := e.isBcd.toNat_lt
  apply BitVec.eq_of_toNat_eq
  rw [toNat_append_eq, toNat_append_eq, BitVec.toNat_ofBool]
  simp only [BitVec.toNat_ofNat]
  omega

/-- R242: `REG.LOOKUP` of an entry of the table. -/
theorem exec_regLookup_present {s : State} {e : RegDescriptor} (hf : s.flt.kind = .noFault)
    (he : e ∈ s.params.regTable) :
    exec (.regLookup e.id) s =
      .next (s.complete (BitVec.ofNat 64 (e.width.toNat + 256 * e.isBcd.toNat))) := by
  rw [exec_regLookup, execRegLookup, State.ordinary_clear _ s hf]
  simp only [State.lookupRegister_of_mem he, registerWord_eq]

/-- R242: `REG.LOOKUP` of a number absent from the table. -/
theorem exec_regLookup_absent {s : State} {id : Byte} (hf : s.flt.kind = .noFault)
    (h : lookupRegister s.params id = none) :
    exec (.regLookup id) s = .next (s.faulted .unsupportedRegister 0#8 (id.setWidth 16) .noTable) := by
  rw [exec_regLookup, execRegLookup, State.ordinary_clear _ s hf]
  simp only [h]
  exact congrArg _ (State.raise_clear _ _ _ _ s hf)

end Lookup

/-- Settles O51: the search finds the one entry with the number, or none has it. -/
theorem regLookupFinds : Obligations.RegLookupFinds := by
  unfold Obligations.RegLookupFinds
  intro s id hf
  refine ⟨rfl, fun e he hid => ?_, fun habsent => exec_regLookup_absent hf (lookupRegister_eq_none.2 habsent)⟩
  subst hid
  exact exec_regLookup_present hf he

section Reading

variable {s : State} {e : RegDescriptor} {chunks : List ByteString}

/-- R243: what `REG.READ` of an entry of the table does before its read. -/
theorem State.beforeRead_regRead (he : e ∈ s.params.regTable) :
    s.beforeRead (.regRead e.id) = some ((s.withRegisterCommand e.id).sent, e.width.toNat + 3) := by
  have hfind : s.params.regTable.find? (fun x => x.id == e.id) = some e := State.lookupRegister_of_mem he
  simp only [State.beforeRead, hfind]

/-- R206, R243, R246: the finish of `REG.READ` consults no status table, because the command is `RDREG_ID`. -/
theorem ioFinish_regRead (he : e ∈ s.params.regTable) {r : State} (hid : r.cmdId = r.params.rdregId) :
    ioFinish s.params (.regRead e.id) r = (r.latchReply e.width.toNat).deliverRegister e := by
  simp only [ioFinish, State.lookupRegister_of_mem he]
  exact State.checkReply_passes _ _ (.inl hid)

/-- R199: the width of a register as the operand `N16` of a send. -/
theorem registerWidth_toNat (e : RegDescriptor) : (e.width.setWidth 16).toNat = e.width.toNat :=
  BitVec.toNat_setWidth_of_le (by decide)

/-- R243 lines 2 to 4: the state in which a read of the register `e` has latched the reply that the answers `chunks`
delivered, idle again. -/
def State.registerLatched (e : RegDescriptor) (chunks : List ByteString) (reply : ByteString) (s : State) : State :=
  (State.latchReply e.width.toNat (((s.withRegisterCommand e.id).sent.enterPhase .poll).afterPolls
    (e.width.toNat + 3) chunks reply)).enterPhase .idle

/-- R243 lines 5 and 6: what the payload in `RPL` decodes to by the table's format. -/
def State.registerValue (e : RegDescriptor) (s : State) : Except CodecFault FieldValue :=
  decodeRegister e (s.rpl.mem.readBytes 1 e.width.toNat)

/-- R221, R243: `REG.READ` whose reply is delivered latches it and decodes its payload. -/
theorem exec_regRead_delivers {reply : ByteString} (hf : s.flt.kind = .noFault) (he : e ∈ s.params.regTable)
    (ha : Answers s.txScript (s.withRegisterCommand e.id).sent.txLog (e.width.toNat + 3) chunks)
    (hd : Delivers s.params.retryCeiling (e.width.toNat + 3) chunks reply) :
    exec (.regRead e.id) s = .next ((s.registerLatched e chunks reply).deliver
      ((s.registerLatched e chunks reply).registerValue e)) := by
  rw [exec_delivers hf (State.beforeRead_regRead he) ha hd, ioFinish_regRead he rfl]
  rfl

/-- R202, R243: the payload of a standard reply in `RPL`. -/
theorem Buffer.load_payload {b : Buffer} {ack st1 st2 : Byte} {pay : ByteString} (hw : b.mem.wf = true) :
    (b.load (ack :: pay ++ [st1, st2])).mem.readBytes 1 pay.length = pay := by
  refine List.ext_getElem? fun i => ?_
  rw [Memory.readBytes_getElem?]
  split
  next hi =>
    rw [List.getElem?_eq_getElem hi]
    refine congrArg some (Buffer.load_read _ b hw (1 + i) _ ?_)
    rw [Nat.add_comm, List.cons_append, List.getElem?_cons_succ, List.getElem?_append_left hi,
      List.getElem?_eq_getElem hi]
  next hi => rw [List.getElem?_eq_none (Nat.le_of_not_lt hi)]

section Split

variable {ack st1 st2 : Byte} {pay : ByteString}

/-- R243 line 4: what the latch holds of a reply split into `ack`, `pay`, `st1` and `st2`. -/
theorem State.registerLatched_eq (hw : s.rpl.mem.wf = true)
    (hlen : (ack :: pay ++ [st1, st2]).length = e.width.toNat + 3) :
    s.registerLatched e chunks (ack :: pay ++ [st1, st2]) =
      ((s.withRegisterCommand e.id).sent.received (e.width.toNat + 3) chunks
        (s.rpl.load (ack :: pay ++ [st1, st2]))).latched ack st1 st2 e.width.toNat := by
  have hwidth := registerWidth_toNat e
  have hlatch := latchReply_eq ((s.withRegisterCommand e.id).sent.enterPhase .poll) (e.width.setWidth 16) chunks
    ack st1 st2 pay hw (hwidth ▸ hlen)
  rw [hwidth] at hlatch
  rw [State.registerLatched, hlatch]
  rfl

/-- R243 lines 5 and 6: the value of a reply split so is that of `pay`. -/
theorem State.registerValue_eq (hw : s.rpl.mem.wf = true) (hlen : pay.length = e.width.toNat) :
    (s.registerLatched e chunks (ack :: pay ++ [st1, st2])).registerValue e = decodeRegister e pay := by
  rw [State.registerValue, ← hlen]
  exact congrArg (decodeRegister e) (Buffer.load_payload hw)

end Split

/-- R142: a raw field of the declared width. -/
theorem decodeVerbatim_of_width {f : ByteString} {w : Byte} (h : f.length = w.toNat) :
    decodeVerbatim f = .ok ⟨f, false, 0#4, w.setWidth 64⟩ := by
  have hxd : datum f.length = w.setWidth 64 := by rw [h]; exact BitVec.ofNat_toNat 64 w
  rw [decodeVerbatim, hxd]

theorem decodeRegister_raw (h : e.isBcd = false) (p : ByteString) : decodeRegister e p = decodeVerbatim p :=
  if_neg (by rw [h]; exact Bool.false_ne_true)

theorem decodeRegister_packed (h : e.isBcd = true) (p : ByteString) : decodeRegister e p = decodeBcd p 0#4 :=
  if_pos h

/-- R243 line 3, R245: the command held in `CMD` before the send. -/
theorem State.withRegisterCommand_holds (hw : s.cmd.mem.wf = true) (id : Byte) :
    s.cmd.Holds (s.withRegisterCommand id).cmd (idBytes s.params.rdregId ++ [id]) := by
  have hid := idBytes_length_le s.params.rdregId
  refine Buffer.load_holds s.cmd _ hw ?_
  rw [List.length_append, List.length_singleton]
  omega

end Reading

/-- Settles O52: the reply is latched; then its payload is decoded, raw or packed, or has a bad nibble. -/
theorem regReadRuns : Obligations.RegReadRuns := by
  unfold Obligations.RegReadRuns
  intro s u id e chunks ack st1 st2 pay hf hrpl hres hcmd he hid hu ha hd
  subst hid hu
  have hlen : pay.length = e.width.toNat := by simpa using hd.total
  have hexec := exec_regRead_delivers hf he ha hd
  rw [State.registerValue_eq hrpl hlen, State.registerLatched_eq hrpl hd.total] at hexec
  have hfits : (ack :: pay ++ [st1, st2]).length < 65536 := by rw [hd.total]; omega
  have hcommand : half ((idBytes s.params.rdregId).length + 1) = (s.withRegisterCommand e.id).cmd.len :=
    congrArg half (List.length_append (bs := [e.id])).symm
  refine ⟨?packet, rfl, ?command, s.rpl.load (ack :: pay ++ [st1, st2]), Buffer.load_holds s.rpl _ hrpl hfits,
    fun hraw => ?raw, fun hbcd hgood => ?packed, fun hbcd k hbad => ?bad⟩
  case packet =>
    rw [← State.withRegisterCommand_content hcmd]
    rfl
  case command =>
    rw [hcommand]
    exact State.withRegisterCommand_holds hcmd e.id
  case raw =>
    rw [decodeRegister_raw hraw, decodeVerbatim_of_width hlen] at hexec
    exact ⟨_, hexec, State.deliver_ok _ _ hres (by simp only [hlen]; omega)⟩
  case packed =>
    rw [decodeRegister_packed hbcd, decodeBcd_ok pay 0#4 hgood] at hexec
    exact ⟨_, hexec, State.deliver_number _ 0#4 _ hres (by rw [bcdText_length, hlen]; omega)⟩
  case bad =>
    rw [decodeRegister_packed hbcd, decodeBcd_bad pay 0#4 k hbad] at hexec
    exact hexec.trans (congrArg _ (State.raiseCodec_invalid k _ hf))

section LongForm

/-- R106: a sequence of one operation ends in the state of that operation, whether or not it raises a fault. -/
theorem issue_last {s t : State} {i : Instr} {xs : Datum} (hi : s.seq = .idle)
    (he : exec i (s.accept (request i xs) []) = .next t) : (issue [request i xs] s).state = t := by
  obtain ⟨u, hu, hends⟩ := exec_completes (s := s.accept (request i xs) []) i hi
  cases he.symm.trans hu
  obtain ⟨c, hc⟩ := hends.completion
  have htransact := transact_request i xs s t c _ hi (decode_encode i) he hc
  by_cases hcc : c.cc = 0#4
  · rw [issue_cons _ [] s t c htransact hcc]
    rfl
  · rw [issue_stop _ [] s t c htransact hcc]

/-- R106: at an operation that raises a fault the host stops the sequence. -/
theorem issue_faulted {s t : State} {i : Instr} {xs : Datum} (hi : s.seq = .idle) (hf : s.flt.kind = .noFault)
    (he : exec i (s.accept (request i xs) []) = .next t) (hfault : t.flt.kind ≠ .noFault)
    (rest : List Transaction) : (issue (request i xs :: rest) s).state = t := by
  obtain ⟨u, hu, c, hc, hcc, -⟩ := exec_reports (s := s.accept (request i xs) []) i hf
  cases he.symm.trans hu
  have htransact := transact_request i xs s t c _ hi (decode_encode i) he hc
  have hne : c.cc ≠ 0#4 := fun h => hfault ((FaultKind.code_eq_zero _).1 (hcc.symm.trans h))
  rw [issue_stop _ rest s t c htransact hne]

/-- R9, R21: the state after another history of the host port: nothing is presented, the last operand was 0, and the
host was given `cs`. -/
def State.withHost (cs : List Completion) (s : State) : State := { s with xs := 0#64, hostIn := [], completions := cs }

variable {s : State} {cs : List Completion}

/-- R14, R178 (a): a buffer loaded and then appended to is loaded with the whole. -/
theorem Buffer.load_append (b : Buffer) (x y : ByteString) (h : x.length < 65536) :
    (b.load x).append y = b.load (x ++ y) := by
  rw [← Buffer.clear_append, ← Buffer.clear_append]
  exact Buffer.append_append b.clear x y (by simpa using h)

/-- R15: an operation with operand 0 that completes with the value `v`, as a transaction. -/
theorem State.Sound.serves_withHost {i : Instr} {u : State} {v : Datum} (h : (s.withHost cs).Sound)
    (hf : s.flt.kind = .noFault) (he : exec i (s.withHost cs) = .next ((u.withHost cs).complete v)) :
    (s.withHost cs).Serves i 0#64 v (u.withHost (⟨0#4, v⟩ :: cs)) := h.serves hf he rfl

/-- R192: the command begun. -/
def State.withCommand (id : BitVec 24) (s : State) : State := { s with cmd := s.cmd.load (idBytes id), cmdId := id }

/-- R192: `CMD.BEGIN` as a transaction. -/
theorem State.Sound.serves_cmdBegin (h : s.Sound) (hf : s.flt.kind = .noFault) (id : BitVec 24) :
    ∃ v, s.Serves (.cmdBegin id) 0#64 v ((s.withCommand id).withHost (⟨0#4, v⟩ :: s.completions)) := by
  refine ⟨datumOfHalf (s.cmd.load (idBytes id)).len, h.serves hf ?_ rfl⟩
  rw [exec_cmdBegin, execCmdBegin, State.ordinary_clear _ (s.accept _ []) hf]
  rfl

/-- R193: `CMD.PUSH` as a transaction, where the command is begun and the byte fits. -/
theorem State.Sound.serves_cmdPush (h : (s.withHost cs).Sound) (hf : s.flt.kind = .noFault) (b : Byte)
    (hbegun : s.cmd.len ≠ 0#16) (hroom : s.cmd.len.toNat < s.params.cmdCap) :
    ∃ v, (s.withHost cs).Serves (.cmdPush b) 0#64 v
      (({ s with cmd := s.cmd.append [b] } : State).withHost (⟨0#4, v⟩ :: cs)) :=
  ⟨datumOfHalf (s.cmd.append [b]).len, State.Sound.serves_withHost h hf
    (exec_both_checks_pass (s := s.withHost cs) hf (exec_cmdPush b _) hbegun (Nat.not_le.2 hroom))⟩

/-- R191, R193: the command just begun takes one byte more, which gives that of `REG.READ`. -/
theorem State.withCommand_push (s : State) (id : Byte) :
    ({ s.withCommand s.params.rdregId with cmd := (s.withCommand s.params.rdregId).cmd.append [id] } : State) =
      s.withRegisterCommand id := by
  have hle := idBytes_length_le s.params.rdregId
  exact congrArg (fun c => { s.withCommand s.params.rdregId with cmd := c })
    (Buffer.load_append s.cmd (idBytes s.params.rdregId) [id] (by omega))

/-- R14: a loaded length that is small is not 0 where the string is not empty. -/
theorem half_length_ne_zero {f : ByteString} (hpos : 1 ≤ f.length) (hlt : f.length < 65536) :
    half f.length ≠ 0#16 := fun h0 => by
  have hlen := half_toNat_of_lt _ hlt
  rw [h0] at hlen
  simp only [BitVec.toNat_ofNat] at hlen
  omega

/-- R243 line 3, R250: `CMD.BEGIN RDREG_ID` and `CMD.PUSH` build the command of `REG.READ`. -/
theorem State.Sound.issue_registerCommand (h : s.Sound) (hf : s.flt.kind = .noFault) (id : Byte)
    (rest : List Transaction) :
    ∃ cs, ((s.withRegisterCommand id).withHost cs).Sound ∧
      (issue (request (.cmdBegin s.params.rdregId) 0#64 :: request (.cmdPush id) 0#64 :: rest) s).state =
        (issue rest ((s.withRegisterCommand id).withHost cs)).state := by
  have hcap := s.capacities
  have hpos := idBytes_length_pos s.params.rdregId
  have hle := idBytes_length_le s.params.rdregId
  have hroom : (half (idBytes s.params.rdregId).length).toNat < s.params.cmdCap := by
    rw [half_toNat_of_lt _ (by omega)]
    omega
  obtain ⟨v, hbegin⟩ := h.serves_cmdBegin hf s.params.rdregId
  obtain ⟨v', hpush⟩ := hbegin.sound.serves_cmdPush hf id (half_length_ne_zero hpos (by omega)) hroom
  rw [State.withCommand_push] at hpush
  refine ⟨_, hpush.sound, ?_⟩
  rw [hbegin.issue_cons, hpush.issue_cons]

/-- R250: the unpack of the long form. -/
def registerUnpack (e : RegDescriptor) : Instr := if e.isBcd then .funpkBcd e.width 0#4 else .funpkRaw e.width

/-- R173, R243: it decodes as `REG.READ` does. -/
theorem exec_registerUnpack (e : RegDescriptor) (s : State) :
    exec (registerUnpack e) s = .next (s.ordinary fun s => s.unpackField e.width (decodeRegister e)) := by
  cases h : e.isBcd with
  | true =>
    rw [registerUnpack, if_pos h, funext (decodeRegister_packed h)]
    exact exec_funpkBcd _ _ s
  | false =>
    rw [registerUnpack, if_neg (by rw [h]; exact Bool.false_ne_true), funext (decodeRegister_raw h)]
    exact exec_funpkRaw _ s

/-- R139 to R141: the result steps of a decode do not look at the host port. -/
theorem State.deliver_withHost (r : Except CodecFault FieldValue) :
    ∃ cs', (s.withHost cs).deliver r = (s.deliver r).withHost cs' := by
  match r with
  | .ok v => exact ⟨_, rfl⟩
  | .error .overflow => exact ⟨_, rfl⟩
  | .error (.invalid i) => exact ⟨_, rfl⟩

/-- R173, R250: the unpack at offset 0 of a reply that has been latched does what `REG.READ` does with its payload. -/
theorem State.issue_registerUnpack {e : RegDescriptor} (hi : s.seq = .idle) (hf : s.flt.kind = .noFault)
    (hbase : s.pbase = 1#16) (hlen : s.plen = half e.width.toNat) :
    ∃ cs', (issue [request (registerUnpack e) 0#64] (s.withHost cs)).state =
      (s.deliver (s.registerValue e)).withHost cs' := by
  have hin : (s.withHost cs).xs.toNat + e.width.toNat ≤ (s.withHost cs).plen.toNat := by
    show (0#64).toNat + e.width.toNat ≤ s.plen.toNat
    rw [hlen, half_toNat_of_lt _ (by omega)]
    simp
  have hfield : (s.withHost cs).payloadField e.width = s.rpl.mem.readBytes 1 e.width.toNat := by
    rw [State.payloadField_eq _ _ hin]
    show s.rpl.mem.readBytes (s.pbase.toNat + 0) e.width.toNat = _
    rw [hbase]
    rfl
  have hexec := exec_unpacks (s := s.withHost cs) hf (exec_registerUnpack e _) hin
  rw [hfield] at hexec
  obtain ⟨cs', hsame⟩ := State.deliver_withHost (s := s) (cs := cs) (s.registerValue e)
  exact ⟨cs', (issue_last (s := s.withHost cs) hi hexec).trans hsame⟩

end LongForm

section Equivalence

variable {s : State} {e : RegDescriptor} {cs : List Completion} {chunks : List ByteString}

/-- R243, R250: the host's long form of a read of the register `e`. -/
def longForm (p : Params) (e : RegDescriptor) : List Transaction :=
  [request (.cmdBegin p.rdregId) 0#64, request (.cmdPush e.id) 0#64, request (.cmdSend (e.width.setWidth 16)) 0#64,
    request (registerUnpack e) 0#64]

/-- R203: what `CMD.SEND` does before its read with the command of `REG.READ` in `CMD`. -/
theorem State.beforeRead_registerSend (s : State) (e : RegDescriptor) :
    ((s.withRegisterCommand e.id).withHost cs).beforeRead (.cmdSend (e.width.setWidth 16)) =
      some ((s.withRegisterCommand e.id).sent.withHost cs, e.width.toNat + 3) := by
  have hcap := s.capacities
  have hwidth := registerWidth_toNat e
  have hle := idBytes_length_le s.params.rdregId
  have hlen : (idBytes s.params.rdregId ++ [e.id]).length = (idBytes s.params.rdregId).length + 1 :=
    List.length_append
  have hbegun : half (idBytes s.params.rdregId ++ [e.id]).length ≠ 0#16 :=
    half_length_ne_zero (by omega) (by omega)
  have hfits : (e.width.setWidth 16).toNat + 3 ≤ s.params.rplCap := by omega
  have hbefore := State.beforeRead_cmdSend (s := (s.withRegisterCommand e.id).withHost cs) hbegun hfits
  rw [hwidth] at hbefore
  exact hbefore

/-- R202, R206, R250: the send whose reply is delivered latches what `REG.READ` latches, no status table consulted. -/
theorem State.Sound.serves_registerSend {reply : ByteString} (h : ((s.withRegisterCommand e.id).withHost cs).Sound)
    (hf : s.flt.kind = .noFault)
    (ha : Answers s.txScript (s.withRegisterCommand e.id).sent.txLog (e.width.toNat + 3) chunks)
    (hd : Delivers s.params.retryCeiling (e.width.toNat + 3) chunks reply) :
    ∃ v, ((s.withRegisterCommand e.id).withHost cs).Serves (.cmdSend (e.width.setWidth 16)) 0#64 v
      ((s.registerLatched e chunks reply).withHost (⟨0#4, v⟩ :: cs)) := by
  have hwidth := registerWidth_toNat e
  have hsent := exec_delivers (s := (s.withRegisterCommand e.id).withHost cs) hf (s.beforeRead_registerSend e) ha hd
  rw [ioFinish, hwidth, State.checkReply_passes _ _ (.inl rfl)] at hsent
  exact ⟨_, State.Sound.serves_withHost (u := s.registerLatched e chunks reply) h hf hsent⟩

/-- R250: over any transport answers the long form ends as `REG.READ` does, but for the history of the host port. -/
theorem exec_regRead_longForm {t : State} (h : s.Sound) (hf : s.flt.kind = .noFault) (he : e ∈ s.params.regTable)
    (hexec : exec (.regRead e.id) s = .next t) :
    ∃ cs, (issue (longForm s.params e) s).state = t.withHost cs := by
  obtain ⟨cs, hsound, hissue⟩ := h.issue_registerCommand hf e.id
    [request (.cmdSend (e.width.setWidth 16)) 0#64, request (registerUnpack e) 0#64]
  have hsend := s.beforeRead_registerSend (cs := cs) e
  obtain ⟨chunks, ha, -, -, hends⟩ := exec_io_cases s _ _ _ hf (State.beforeRead_regRead he)
  rw [longForm, hissue]
  rcases hends with ⟨reply, hd, -⟩ | ⟨got, hd, hread⟩ | ⟨pre, got, excess, rfl, hd, hread⟩
  · cases hexec.symm.trans (exec_regRead_delivers hf he ha hd)
    obtain ⟨v, hsent⟩ := hsound.serves_registerSend hf ha hd
    rw [hsent.issue_cons]
    exact State.issue_registerUnpack rfl hf rfl rfl
  · cases hexec.symm.trans hread
    have hsent := exec_exhausts (s := (s.withRegisterCommand e.id).withHost cs) hf hsend ha hd
    exact ⟨_, issue_faulted hsound.idle hf hsent nofun _⟩
  · cases hexec.symm.trans hread
    have hsent := exec_overruns (s := (s.withRegisterCommand e.id).withHost cs) hf hsend ha hd
    exact ⟨_, issue_faulted hsound.idle hf hsent nofun _⟩

end Equivalence

/-- Settles O59: `REG.READ` and the long form end in one state, but for the history of the host port. -/
theorem regReadIsTheLongForm : Obligations.RegReadIsTheLongForm := by
  unfold Obligations.RegReadIsTheLongForm
  intro s t id e h hf he hid hexec
  subst hid
  obtain ⟨cs, hsame⟩ := exec_regRead_longForm h hf he hexec
  intro unpack r
  have hr : r = t.withHost cs := hsame
  rw [hr]
  exact ⟨rfl, rfl, rfl, rfl, rfl, rfl, rfl, rfl, rfl, rfl, rfl, rfl⟩

end Sys2Proof.Machine
end

section
/-! SUPPORT. The status decoder (45_status_decoder.md): which bytes the tables of a legal configuration pass and which
they raise on (R262), and how `ST.DECODE` and `ST3.DECODE` end over the outcomes of their searches (R263, R265). -/

namespace Sys2Proof.Machine

section Matching

/-- R256: only the mask 0 is within the byte 0. -/
theorem entryMatches_zero {e : MaskEntry} (h : EntryMatches 0x00#8 e) : e.mask = 0#8 :=
  h.symm.trans BitVec.zero_and

/-- R256, R262 (b): only the masks 0 and 0x02 are within the byte 0x02. -/
theorem entryMatches_coupon {e : MaskEntry} (h : EntryMatches 0x02#8 e) : e.mask = 0x02#8 ∨ e.mask = 0#8 := by
  have hand := BitVec.twoPow_and e.mask 1
  split at hand
  · exact .inl (h.symm.trans hand)
  · exact .inr (h.symm.trans hand)

/-- R256: the mask 0x80 is within a byte that has bit 7 set. -/
theorem entryMatches_outOfPaper {st1 sub : Byte} (h : st1.getLsbD 7 = true) :
    EntryMatches st1 ⟨0x80#8, sub⟩ :=
  (BitVec.and_twoPow st1 7).trans (if_pos h)

/-- R258: the search stops at the head of the table where that matches. -/
theorem firstMatch_of_head? {t : List MaskEntry} {v : Byte} {e : MaskEntry} (hhead : t.head? = some e)
    (h : EntryMatches v e) : FirstMatch t v e := by
  obtain ⟨rest, rfl⟩ := List.head?_eq_some_iff.1 hhead
  exact ⟨[], rest, rfl, h, nofun⟩

end Matching

section Tables

/-- R262 (b), (c): the tables of a legal configuration pass st1 = 0 and st1 = 0x02, with st2 = 0. -/
theorem statusClean_of_legal (c : Configuration) {st1 : Byte} (h : st1 = 0x00#8 ∨ st1 = 0x02#8) :
    StatusClean c.params st1 0x00#8 := by
  obtain ⟨-, hst1, hst2⟩ := c.st1Table
  refine ⟨fun e he hmatch => ?_, fun e he hmatch => hst2 e he (entryMatches_zero hmatch)⟩
  obtain ⟨hne2, hne0⟩ := hst1 e he
  rcases h with rfl | rfl
  · exact hne0 (entryMatches_zero hmatch)
  · exact (entryMatches_coupon hmatch).elim hne2 hne0

/-- R262 (a): those tables raise subtype 1 on an st1 with bit 7 set, whatever st2 is. -/
theorem statusRaises_outOfPaper (c : Configuration) {st1 : Byte} (st2 : Byte) (h : st1.getLsbD 7 = true) :
    StatusRaises c.params st1 st2 ⟨0x80#8, 1#8⟩ .st1Table :=
  .inl ⟨firstMatch_of_head? c.st1Table.1 (entryMatches_outOfPaper h), rfl⟩

end Tables

section Decodes

variable {s : State} (hf : s.flt.kind = .noFault)
include hf

/-- R263: `ST.DECODE` is the status check on the operand's two bytes, then the open-coupon bit. -/
theorem exec_stDecode_clear :
    exec .stDecode s = .next (s.statusCheck s.operandSt1 s.operandSt2
      (State.complete (if s.operandSt1.getLsbD 1 then 1#64 else 0#64))) := by
  rw [exec_stDecode, execStDecode, State.ordinary_clear _ s hf, couponOpen_eq]

/-- R260, R263: `ST.DECODE` of two bytes that match no entry. -/
theorem exec_stDecode_clean (h : StatusClean s.params s.operandSt1 s.operandSt2) :
    exec .stDecode s = .next (s.complete (if s.operandSt1.getLsbD 1 then 1#64 else 0#64)) := by
  rw [exec_stDecode_clear hf, State.statusCheck_clean _ _ _ s h]

/-- R260, R263: `ST.DECODE` of two bytes whose first match is `e`. -/
theorem exec_stDecode_raises {e : MaskEntry} {tbl : FaultTable}
    (h : StatusRaises s.params s.operandSt1 s.operandSt2 e tbl) :
    exec .stDecode s = .next (s.faulted .deviceFault e.sub (e.mask.setWidth 16) tbl) := by
  rw [exec_stDecode_clear hf, State.statusCheck_raises _ _ _ s e tbl h hf]

/-- R265: `ST3.DECODE` of a code with no entry. -/
theorem exec_st3Decode_absent (h : ∀ e ∈ s.params.st3Table, e.code ≠ s.operandCode) :
    exec .st3Decode s = .next (s.complete 0#64) := by
  have hfind : s.params.st3Table.find? (fun e => e.code == s.operandCode) = none :=
    List.find?_eq_none.2 fun e he heq => h e he (beq_iff_eq.1 heq)
  rw [exec_st3Decode, execSt3Decode, State.ordinary_clear _ s hf]
  simp only [hfind]

/-- R48, R265: `ST3.DECODE` of the code of an entry, which is the one the search finds. -/
theorem exec_st3Decode_present {e : CodeEntry} (he : e ∈ s.params.st3Table) (hcode : e.code = s.operandCode) :
    exec .st3Decode s = .next (s.faulted .deviceFault e.sub e.code .st3Table) := by
  have hfind : s.params.st3Table.find? (fun x => x.code == s.operandCode) = some e := hcode ▸ s.cfg.find_code e he
  rw [exec_st3Decode, execSt3Decode, State.ordinary_clear _ s hf, hcode]
  simp only [hfind]
  exact congrArg _ (State.raise_clear _ _ _ _ s hf)

end Decodes

/-- Settles O53: the status check passes the operand's bytes, or raises the fault of its first match. -/
theorem stDecodeDecides : Obligations.StDecodeDecides := by
  unfold Obligations.StDecodeDecides
  refine ⟨rfl, fun s st1 st2 hf hst1 hst2 => ?_⟩
  subst hst1 hst2
  exact ⟨exec_stDecode_clean hf, fun e tbl => exec_stDecode_raises hf⟩

/-- Settles O54: what R262 fixes of the tables decides these outcomes of `ST.DECODE`. -/
theorem statusOutcomes : Obligations.StatusOutcomes := by
  unfold Obligations.StatusOutcomes
  intro s st1 st2 hf hst1 hst2
  obtain ⟨hclean, hraises⟩ := stDecodeDecides.2 s st1 st2 hf hst1 hst2
  refine ⟨?closed, ?couponOpen, fun hbit => hraises _ _ (statusRaises_outOfPaper s.cfg st2 hbit)⟩
  case closed =>
    rintro rfl rfl
    exact hclean (statusClean_of_legal s.cfg (.inl rfl))
  case couponOpen =>
    rintro rfl rfl
    exact hclean (statusClean_of_legal s.cfg (.inr rfl))

/-- Settles O55: no entry has the operand's code, or the search finds the one that has it. -/
theorem st3DecodeMatches : Obligations.St3DecodeMatches := by
  unfold Obligations.St3DecodeMatches
  exact ⟨rfl, fun s hf => ⟨exec_st3Decode_absent hf, fun _ => exec_st3Decode_present hf⟩⟩

end Sys2Proof.Machine
end

section
/-! SUPPORT. The report read (46_report_decoder.md R285 to R287): how many packets an operation writes, and so a sequence
of the host, and under which names the values of the report stand. -/

namespace Sys2Proof.Machine

/-- R285: "Counted on the transport": how many packets it has seen. -/
def State.packetCount (s : State) : Nat := (packetsWritten s.txLog).length

/-- From `s` to `t` at most `n` packets are written, and exactly `n` where what was asked for is `done`. -/
structure State.Writes (n : Nat) (done : Prop) (s t : State) : Prop where
  bound : t.packetCount ≤ s.packetCount + n
  exact : done → t.packetCount = s.packetCount + n

section Counting

variable {s t u : State} {n m : Nat} {done done' : Prop}

theorem State.Writes.refl (done : Prop) (s : State) : s.Writes 0 done s := ⟨Nat.le_refl _, fun _ => rfl⟩

/-- What is done in full writes its number of packets, whatever follows. -/
theorem State.Writes.trans (h : s.Writes n done t) (hdone : done) (h' : t.Writes m done' u) :
    s.Writes (n + m) done' u := by
  have hn := h.exact hdone
  have hm := h'.bound
  exact ⟨by omega, fun hd => (h'.exact hd).trans (by omega)⟩

/-- What stops writes no more packets than it would have written. -/
theorem State.Writes.stop (h : s.Writes n done t) (m : Nat) (hstop : ¬ done') : s.Writes (n + m) done' t :=
  ⟨h.bound.trans (by omega), fun hd => absurd hd hstop⟩

theorem State.Writes.mono (h : s.Writes n done t) (himp : done' → done) : s.Writes n done' t :=
  ⟨h.bound, fun hd => h.exact (himp hd)⟩

end Counting

section Operations

variable {s t : State} {i : Instr}

theorem sendsPacket_iff :
    sendsPacket i = true ↔ (∃ n, i = .cmdSend n) ∨ (∃ n, i = .cmdSendr n) ∨ ∃ id, i = .regRead id := by
  cases i <;> simp [sendsPacket]

/-- R295: the operations that send are ordinary ones. -/
theorem exec_sends_ordinary (h : sendsPacket i = true) : ∃ body, exec i s = .next (s.ordinary body) := by
  rcases sendsPacket_iff.1 h with ⟨n, rfl⟩ | ⟨n, rfl⟩ | ⟨id, rfl⟩
  · exact ⟨_, exec_cmdSend n s⟩
  · exact ⟨_, exec_cmdSendr n s⟩
  · exact ⟨_, exec_regRead id s⟩

/-- R243, R244: `REG.READ` reaches its read exactly where the register is in the table. -/
theorem State.beforeRead_regRead_eq (s : State) (id : Byte) :
    s.beforeRead (.regRead id) =
      (lookupRegister s.params id).map fun e => ((s.withRegisterCommand id).sent, e.width.toNat + 3) := by
  show (match lookupRegister s.params id with
    | none => none
    | some e => some _) = _
  cases lookupRegister s.params id <;> rfl

/-- R201: a send one of whose checks fails raises `IllegalOp` and does nothing else. -/
theorem exec_send_check_fails {k : State → State} {len : Nat} (hf : s.flt.kind = .noFault)
    (he : exec i s = .next (s.ordinary fun s => s.sendChecked len k))
    (hbefore : (if s.cmd.len = 0#16 ∨ s.params.rplCap < len then none else some (s.sent, len)) = none) :
    ∃ k det, k ≠ .noFault ∧ exec i s = .next (s.faulted k 0#8 det .noTable) := by
  have hcheck : s.cmd.len = 0#16 ∨ s.params.rplCap < len :=
    by_contra fun hpass => nomatch (if_neg hpass).symm.trans hbefore
  by_cases h0 : s.cmd.len = 0#16
  · exact ⟨.illegalOp, _, nofun, exec_sends_noCommand hf h0 he⟩
  · exact ⟨.illegalOp, _, nofun, exec_sends_capacity hf h0 (hcheck.resolve_left h0) he⟩

/-- R201, R244: an operation that sends and fails a check raises a fault and does nothing else. -/
theorem exec_sends_check_fails (hf : s.flt.kind = .noFault) (h : sendsPacket i = true)
    (hbefore : s.beforeRead i = none) :
    ∃ k det, k ≠ .noFault ∧ exec i s = .next (s.faulted k 0#8 det .noTable) := by
  rcases sendsPacket_iff.1 h with ⟨n, rfl⟩ | ⟨n, rfl⟩ | ⟨id, rfl⟩
  · exact exec_send_check_fails hf (exec_cmdSend n s) hbefore
  · exact exec_send_check_fails hf (exec_cmdSendr n s) hbefore
  · rw [State.beforeRead_regRead_eq, Option.map_eq_none_iff] at hbefore
    exact ⟨.unsupportedRegister, _, nofun, exec_regRead_absent hf hbefore⟩

/-- R202, R243: before its read an operation that sends writes one packet. -/
theorem State.beforeRead_sends {u : State} {n : Nat} (h : sendsPacket i = true)
    (hbefore : s.beforeRead i = some (u, n)) : ∃ p, packetsWritten u.txLog = p :: packetsWritten s.txLog := by
  rcases sendsPacket_iff.1 h with ⟨n, rfl⟩ | ⟨n, rfl⟩ | ⟨id, rfl⟩
  · obtain ⟨-, ⟨⟩⟩ := Option.ite_none_left_eq_some.1 hbefore
    exact ⟨_, s.packetsWritten_sent⟩
  · obtain ⟨-, ⟨⟩⟩ := Option.ite_none_left_eq_some.1 hbefore
    exact ⟨_, s.packetsWritten_sent⟩
  · rw [State.beforeRead_regRead_eq, Option.map_eq_some_iff] at hbefore
    obtain ⟨e, -, ⟨⟩⟩ := hbefore
    exact ⟨_, (s.withRegisterCommand id).packetsWritten_sent⟩

/-- R201, R208, R312: an operation that sends completes with `CC ≠ 0` and an untouched transport, or writes one
packet. -/
theorem exec_sends_cases (h : sendsPacket i = true) (he : exec i s = .next t) :
    (t.txLog = s.txLog ∧ ∃ k : FaultKind, k ≠ .noFault ∧ t.completions = ⟨k.code, 0#64⟩ :: s.completions) ∨
      ∃ p, packetsWritten t.txLog = p :: packetsWritten s.txLog := by
  by_cases hf : s.flt.kind = .noFault
  case neg =>
    obtain ⟨body, hbody⟩ := exec_sends_ordinary (s := s) h
    rw [State.ordinary_latched body s hf] at hbody
    cases hbody.symm.trans he
    exact .inl ⟨rfl, _, hf, rfl⟩
  case pos =>
    cases hbefore : s.beforeRead i with
    | none =>
      obtain ⟨k, det, hk, hfault⟩ := exec_sends_check_fails hf h hbefore
      cases hfault.symm.trans he
      exact .inl ⟨rfl, k, hk, rfl⟩
    | some r =>
      obtain ⟨v, chunks, hexec, -, hlog, -⟩ := exec_io_txLog hf hbefore
      cases hexec.symm.trans he
      rw [hlog, packetsWritten_pollLog]
      exact .inr (State.beforeRead_sends h hbefore)

/-- R61, R208: an operation writes one packet if it sends and completes with `CC = 0`, and never more. -/
theorem exec_writes {c : Completion} (he : exec i s = .next t) (hc : t.completions.head? = some c) :
    s.Writes (sendsPacket i).toNat (c.cc = 0#4) t := by
  cases h : sendsPacket i with
  | false =>
    obtain ⟨-, -, hpackets, -⟩ := spacesWritten i s t he
    have hcount : t.packetCount = s.packetCount := congrArg List.length (hpackets h)
    exact ⟨hcount.le, fun _ => hcount⟩
  | true =>
    rcases exec_sends_cases h he with ⟨hlog, k, hk, hcompl⟩ | ⟨p, hp⟩
    · have hcount : t.packetCount = s.packetCount := by rw [State.packetCount, hlog, State.packetCount]
      refine ⟨by omega, fun hcc => ?_⟩
      rw [hcompl] at hc
      cases hc
      exact absurd ((FaultKind.code_eq_zero k).1 hcc) hk
    · have hcount : t.packetCount = s.packetCount + 1 := congrArg List.length hp
      exact ⟨hcount.le, fun _ => hcount⟩

end Operations

section Transactions

variable {s u : State} {t : Transaction} {c : Completion}

/-- R100, R208: how many packets a transaction writes that completes with `CC = 0`. -/
def Transaction.packets (t : Transaction) : Nat :=
  match decode t.cw with
  | .legal i => (sendsPacket i).toNat
  | .illegal _ => 0

theorem Transaction.packets_of_legal {i : Instr} (hd : decode t.cw = .legal i) : t.packets = (sendsPacket i).toNat := by
  rw [Transaction.packets, hd]

theorem Transaction.packets_of_illegal {e : DecodeError} (hd : decode t.cw = .illegal e) : t.packets = 0 := by
  rw [Transaction.packets, hd]

@[simp] theorem request_packets (i : Instr) (xs : Datum) : (request i xs).packets = (sendsPacket i).toNat :=
  Transaction.packets_of_legal (decode_encode i)

/-- R9, R33: the host has a completion only where an idle block took the transaction, and it is the newest one. -/
theorem transact_eq_some (h : transact t s = some (c, u)) :
    s.seq = .idle ∧ step { s with hostIn := [t] } = .next u ∧ u.completions.head? = some c := by
  have hidle : s.seq = .idle := by
    by_contra hbusy
    rw [transact, step_of_busy (s := { s with hostIn := [t] }) hbusy] at h
    nomatch h
  obtain ⟨v, hstep, hends⟩ := step_completes (s := { s with hostIn := [t] }) hidle rfl
  obtain ⟨d, hd⟩ := hends.completion
  rw [transact, hstep] at h
  simp only [hd] at h
  cases h
  exact ⟨hidle, hstep, by rw [hd, List.head?_cons]⟩

/-- R100, R312: a rejected word leaves the transport alone. -/
theorem State.rejectWord_txLog (s : State) (cw : CommandWord) (e : DecodeError) :
    (s.rejectWord cw e).txLog = s.txLog := by
  unfold State.rejectWord
  split <;> rfl

/-- R33, R208: a transaction writes its packets if it completes with `CC = 0`, and never more. -/
theorem transact_writes (h : transact t s = some (c, u)) : s.Writes t.packets (c.cc = 0#4) u := by
  obtain ⟨hidle, hstep, hc⟩ := transact_eq_some h
  cases hd : decode t.cw with
  | legal i =>
    rw [step_of_legal (s := { s with hostIn := [t] }) hidle rfl hd] at hstep
    rw [Transaction.packets_of_legal hd]
    exact { exec_writes hstep hc with }
  | illegal e =>
    rw [step_of_illegal (s := { s with hostIn := [t] }) hidle rfl hd] at hstep
    cases hstep
    have hcount : (State.rejectWord t.cw e (State.accept t [] { s with hostIn := [t] })).packetCount = s.packetCount :=
      congrArg (fun log => (packetsWritten log).length) (State.rejectWord_txLog _ _ _)
    rw [Transaction.packets_of_illegal hd]
    exact ⟨hcount.le, fun _ => hcount⟩

end Transactions

section Sequences

/-- R285: how many packets a sequence writes that the host carries to its end. -/
def packetsOf (ts : List Transaction) : Nat := (ts.map Transaction.packets).sum

theorem packetsOf_cons (t : Transaction) (ts : List Transaction) : packetsOf (t :: ts) = t.packets + packetsOf ts := by
  simp [packetsOf]

theorem packetsOf_eq_zero {ts : List Transaction} (h : ∀ t ∈ ts, t.packets = 0) : packetsOf ts = 0 :=
  List.sum_eq_zero (by simpa using h)

/-- R282: collecting `RES` after an unpack writes no packet. -/
theorem unpackReads_packets (s : State) : packetsOf (unpackReads s) = 0 := by
  refine packetsOf_eq_zero ?_
  unfold unpackReads resultReads readResult
  split <;> simp [sendsPacket]

/-- R106: a sequence writes the packets of its operations, and none after the one it stops at. -/
theorem issue_writes (ts : List Transaction) (s : State) :
    s.Writes (packetsOf ts) ((issue ts s).finished = true) (issue ts s).state := by
  induction ts generalizing s with
  | nil => exact .refl _ s
  | cons t rest ih =>
    rw [packetsOf_cons]
    cases htransact : transact t s with
    | none =>
      simp only [issue, htransact]
      exact ⟨Nat.le_add_right _ _, nofun⟩
    | some r =>
      obtain ⟨c, u⟩ := r
      have hfirst := transact_writes htransact
      by_cases hcc : c.cc = 0#4
      · rw [issue_cons t rest s u c htransact hcc]
        exact hfirst.trans hcc (ih u)
      · rw [issue_stop t rest s u c htransact hcc]
        exact hfirst.stop _ nofun

/-- R106: a sequence with a result writes the packets of its operations: the reads that fetch the bytes write none. -/
theorem fetch_writes {ops : List Transaction} {reads : State → List Transaction} (s : State)
    (hreads : ∀ u, packetsOf (reads u) = 0) :
    s.Writes (packetsOf ops) ((fetch ops reads s).value ≠ none) (fetch ops reads s).run.state := by
  have hops := issue_writes ops s
  have hfetched := issue_writes (reads (issue ops s).state) (issue ops s).state
  rw [hreads] at hfetched
  simp only [fetch]
  split
  next c hdone hlast =>
    have hall := hops.trans hdone hfetched
    split
    next hread => exact hall.mono fun _ => hread
    next => exact hall.mono (absurd rfl)
  next => exact hops.mono (absurd rfl)

/-- R286: unpacks that write no packet one by one write none together, wherever they stop. -/
theorem collect_writes (ts : List Transaction) (s : State) (hts : ∀ t ∈ ts, t.packets = 0) :
    s.Writes 0 ((collect ts s).finished = true) (collect ts s).state := by
  induction ts generalizing s with
  | nil => exact .refl _ s
  | cons t rest ih =>
    obtain ⟨ht, hrest⟩ := List.forall_mem_cons.1 hts
    have hfirst := fetch_writes (ops := [t]) s unpackReads_packets
    rw [packetsOf_eq_zero (by simpa using ht)] at hfirst
    cases hv : (fetch [t] unpackReads s).value with
    | none =>
      rw [collect_stop t rest s hv]
      exact hfirst.stop 0 nofun
    | some v =>
      obtain ⟨-, hfinished, hstate⟩ := collect_cons t rest s v hv
      rw [hfinished, hstate]
      exact hfirst.trans (by simp [hv]) (ih _ hrest)

end Sequences

section Report

variable (l : ReportLayout) (s : State)

/-- R285 line 1. -/
theorem issue_regRead_writes (id : Byte) :
    s.Writes 1 ((issue [request (.regRead id) 0] s).finished = true) (issue [request (.regRead id) 0] s).state := by
  have hpackets : packetsOf [request (.regRead id) 0] = 1 := by simp [packetsOf, sendsPacket]
  exact hpackets ▸ issue_writes [request (.regRead id) 0] s

/-- R285 line 2: reading the payload writes no packet. -/
theorem issue_payloadReads_writes :
    s.Writes 0 ((issue (payloadReads s) s).finished = true) (issue (payloadReads s) s).state := by
  have hpackets : packetsOf (payloadReads s) = 0 :=
    packetsOf_eq_zero (by simp [payloadReads, readPayload, sendsPacket])
  exact hpackets ▸ issue_writes (payloadReads s) s

/-- R285 lines 4 and 5: of the report command only its send, checked or raw, writes a packet. -/
theorem ReportLayout.issue_sendRequests_writes :
    s.Writes 1 ((issue l.sendRequests s).finished = true) (issue l.sendRequests s).state := by
  have hpackets : packetsOf l.sendRequests = 1 := by
    cases hraw : l.raw <;> simp [ReportLayout.sendRequests, packetsOf, sendsPacket, hraw]
  exact hpackets ▸ issue_writes l.sendRequests s

/-- R282: both unpacks of a report field leave the transport alone. -/
theorem ReportKind.unpack_packets (k : ReportKind) (w : Byte) (off : Nat) : (k.unpack w off).packets = 0 := by
  cases k <;> exact request_packets _ _

/-- R284, R286. -/
theorem ReportArray.requests_packets (a : ReportArray) : ∀ t ∈ a.requests, t.packets = 0 := by
  cases hk : a.kind <;> simp [ReportArray.requests, hk, unpackArray, unpackRawArray, sendsPacket]

theorem ReportLayout.unpacks_packets : ∀ t ∈ l.unpacks, t.packets = 0 := by
  intro t ht
  rcases List.mem_append.1 ht with hfield | hslot
  · obtain ⟨f, -, rfl⟩ := List.mem_map.1 hfield
    exact f.kind.unpack_packets _ _
  · obtain ⟨a, -, hta⟩ := List.mem_flatMap.1 hslot
    exact a.requests_packets t hta

/-- R285, R287: what a report read owes its host, by how it ends: packets written, and names of values. -/
def ReportRun.Accounts (names : List String) (s : State) : ReportRun → Prop
  | .empty t => s.Writes 1 True t
  | .values vs t => s.Writes 2 True t ∧ vs.map Prod.fst = names
  | .stopped vs t => s.Writes 2 False t ∧ vs.map Prod.fst <+: names

/-- R286, R287: the values decoded so far stand under the first names. -/
theorem map_fst_zip_initial {α β : Type} (names : List α) (values : List β) :
    (names.zip values).map Prod.fst <+: names := by
  induction names generalizing values with
  | nil => simp
  | cons n names ih =>
    cases values with
    | nil => simp
    | cons v values => simpa using ih values

/-- R285 lines 6 and 7. -/
theorem ReportLayout.unpackAll_accounts {u : State} (h : s.Writes 2 True u) :
    (l.unpackAll u).Accounts l.names s := by
  have hall := h.trans trivial (collect_writes l.unpacks u l.unpacks_packets)
  simp only [ReportLayout.unpackAll]
  split
  next hdone =>
    refine ⟨hall.mono fun _ => hdone, List.map_fst_zip ?_⟩
    rw [l.names_length, (collect_length l.unpacks u).2 hdone]
  next => exact ⟨hall.mono False.elim, map_fst_zip_initial _ _⟩

/-- R285: the register read writes one packet, the send another, and all else none. -/
theorem ReportLayout.run_accounts : (l.run s).Accounts l.names s := by
  have hdate := issue_regRead_writes s l.dateReg
  simp only [ReportLayout.run]
  split
  case isFalse => exact ⟨hdate.stop 1 id, ⟨_, rfl⟩⟩
  case isTrue hdateDone =>
    have hpayload := hdate.trans hdateDone (issue_payloadReads_writes _)
    split
    case isFalse => exact ⟨hpayload.stop 1 id, ⟨_, rfl⟩⟩
    case isTrue hpayloadDone =>
      split
      case isTrue => exact hpayload.mono fun _ => hpayloadDone
      case isFalse =>
        have hsent := hpayload.trans hpayloadDone (l.issue_sendRequests_writes _)
        split
        case isTrue hsentDone => exact l.unpackAll_accounts s (hsent.mono fun _ => hsentDone)
        case isFalse => exact ⟨hsent.mono False.elim, ⟨_, rfl⟩⟩

end Report

/-- Settles O60: each ending of the sequence, with the packets of the operations up to it. -/
theorem reportShortCircuit : Obligations.ReportShortCircuit := by
  unfold Obligations.ReportShortCircuit
  intro l s
  have haccounts := l.run_accounts s
  refine ⟨fun t hrun => ?empty, fun vs t hrun => ?values, fun vs t hrun => ?stopped⟩
  all_goals rw [hrun] at haccounts
  case empty => exact haccounts.exact trivial
  case values =>
    obtain ⟨hwrites, hnames⟩ := haccounts
    exact ⟨hwrites.exact trivial, hnames⟩
  case stopped =>
    obtain ⟨hwrites, hnames⟩ := haccounts
    exact ⟨hwrites.bound, hnames⟩

end Sys2Proof.Machine
end

section
/-! SUPPORT. The system operations (47_system_ops.md): what `NOP` and `FACK` do, and what `SR.RD` reads (10_state.md
R41, R42). -/

namespace Sys2Proof.Machine

/-- Settles O18: `NOP` is an ordinary operation that only completes. -/
theorem nopChangesNothing : Obligations.NopChangesNothing := by
  unfold Obligations.NopChangesNothing
  refine ⟨by decide, fun s => ⟨fun hf => ?clear, fun hf => ?latched⟩⟩
  case clear =>
    rw [exec_nop, execNop, State.ordinary_clear _ s hf]
    rfl
  case latched =>
    rw [exec_nop, execNop, State.ordinary_latched _ s hf]
    rfl

/-- R34: the fields of `FLT` in the datum that `FACK` hands over, its low bits first. -/
theorem FaultLatch.datum_fields (f : FaultLatch) :
    (f.word.setWidth 64).extractLsb' 0 4 = f.kind.code ∧ (f.word.setWidth 64).extractLsb' 4 4 = 0#4 ∧
      (f.word.setWidth 64).extractLsb' 8 8 = f.sub ∧ (f.word.setWidth 64).extractLsb' 16 16 = f.det ∧
      (f.word.setWidth 64).extractLsb' 32 4 = f.tbl.code ∧ (f.word.setWidth 64).extractLsb' 36 28 = 0#28 := by
  have hkind := f.kind.code.isLt
  have hsub := f.sub.isLt
  have hdet := f.det.isLt
  have htbl := f.tbl.code.isLt
  have hword : (f.word.setWidth 64).toNat = f.word.toNat := BitVec.toNat_setWidth_of_le (by decide)
  simp only [← BitVec.toNat_inj, BitVec.extractLsb'_toNat, Nat.shiftRight_eq_div_pow, hword, FaultLatch.word_toNat,
    BitVec.toNat_ofNat]
  omega

/-- Settles O19: the datum is the latch's word, whose fields are read off; the latch is then clear. -/
theorem fackHandsOver : Obligations.FackHandsOver := by
  unfold Obligations.FackHandsOver
  have hword : encode .fack = 0x01000000#32 := by decide
  exact ⟨hword, fun s => ⟨s.flt.word.setWidth 64, .clear, exec_fack s, FaultLatch.clear_word, s.flt.datum_fields⟩⟩

section Registers

/-- R41: a parameter of at most 8 bits, zero-extended. -/
theorem datumOfByte_ofNat {n : Nat} (h : n < 256) : datumOfByte (BitVec.ofNat 8 n) = BitVec.ofNat 64 n := by
  apply BitVec.eq_of_toNat_eq
  simp only [datumOfByte, BitVec.toNat_setWidth, BitVec.toNat_ofNat]
  omega

theorem datumOfHalf_eq_ofNat (h : Half) : datumOfHalf h = BitVec.ofNat 64 h.toNat := (BitVec.ofNat_toNat 64 h).symm

/-- Of any table: the search from its first entry. -/
theorem map_lookup_cons {α : Type} (f : Nat → α) (n k : Byte) (v : Nat) (table : List (Byte × Nat)) :
    (((k, v) :: table).lookup n).map f = if n = k then some (f v) else (table.lookup n).map f := by
  by_cases h : n = k
  · simp [h]
  · simp [List.lookup_cons, h, beq_false_of_ne h]

/-- R10, R41: every parameter fits the width it is read in. -/
theorem State.parameters_fit (s : State) :
    (s.params.retryCeiling < 65536 ∧ s.params.argCap < 65536 ∧ s.params.cmdCap < 65536 ∧ s.params.rplCap < 65536 ∧
      s.params.resCap < 65536) ∧
    s.params.regTable.length < 65536 ∧ s.params.st1Table.length < 256 ∧ s.params.st2Table.length < 256 ∧
      s.params.st3Table.length < 65536 := by
  have hceil := s.ceiling
  have hcaps := s.capacities
  have htables := s.cfg.tables
  unfold State.params at *
  omega

/-- R41, R42: `SR.RD` of an idle block finds the numbers of the table, each with its value. -/
theorem State.systemRegister_eq_lookup {s : State} (hi : s.seq = .idle) (n : Byte) :
    s.systemRegister n = (s.registerValues.lookup n).map (BitVec.ofNat 64) := by
  obtain ⟨⟨hceil, harg, hcmd, hrpl, hres⟩, hreg, hst1, hst2, hst3⟩ := s.parameters_fit
  have hseq : s.seq.code.toNat = 0 := by rw [hi]; rfl
  have htrailer : datum trailerW = BitVec.ofNat 64 2 := rfl
  rw [State.systemRegister, State.registerValues]
  simp only [map_lookup_cons, List.lookup_nil, Option.map_none, ← FaultLatch.word_toNat,
    ← FlagBits.word_toNat, ← StatusLatch.word_toNat, ← BitVec.ofNat_toNat, hseq, htrailer,
    datumOfHalf_half _ hceil, datumOfHalf_half _ harg, datumOfHalf_half _ hcmd, datumOfHalf_half _ hrpl,
    datumOfHalf_half _ hres, datumOfHalf_half _ hreg, datumOfHalf_half _ hst3, datumOfByte_ofNat hst1,
    datumOfByte_ofNat hst2, datumOfHalf_eq_ofNat]

/-- R41: the numbers of the table are distinct. -/
theorem State.registerValues_nodup (s : State) : (s.registerValues.map Prod.fst).Nodup := by
  have hnumbers : s.registerValues.map Prod.fst = [0x00#8, 0x01#8, 0x02#8, 0x03#8, 0x04#8, 0x05#8, 0x06#8, 0x07#8,
    0x08#8, 0x09#8, 0x0A#8, 0x0B#8, 0x0C#8, 0x10#8, 0x11#8, 0x12#8, 0x13#8, 0x14#8, 0x15#8, 0x16#8, 0x17#8, 0x18#8,
    0x19#8, 0x1A#8] := rfl
  rw [hnumbers]
  decide

/-- Of any table: a key without an entry is not found. -/
theorem lookup_of_not_mem {n : Byte} {table : List (Byte × Nat)} (h : n ∉ table.map Prod.fst) :
    table.lookup n = none := by
  refine List.lookup_eq_none_iff.2 fun p hp => ?_
  have hne : n ≠ p.1 := fun he => h (he ▸ List.mem_map_of_mem hp)
  simpa using hne

/-- Of any table with distinct keys: every entry is found under its key. -/
theorem lookup_of_mem {n : Byte} {v : Nat} {table : List (Byte × Nat)} (hnd : (table.map Prod.fst).Nodup)
    (h : (n, v) ∈ table) : table.lookup n = some v := by
  obtain ⟨before, after, rfl⟩ := List.append_of_mem h
  refine List.lookup_eq_some_iff.2 ⟨before, after, rfl, fun p hp => ?_⟩
  rw [List.map_append, List.nodup_append] at hnd
  obtain ⟨-, -, hapart⟩ := hnd
  have hne : p.1 ≠ n := hapart p.1 (List.mem_map_of_mem hp) n (by simp)
  simpa using hne.symm

section Reads

variable {s : State} {n : Byte}

/-- R42, R293: a number of R41 completes with its register. -/
theorem exec_srRd_of_mem (hi : s.seq = .idle) {v : Nat} (h : (n, v) ∈ s.registerValues) :
    exec (.srRd n) s = .next (s.complete (BitVec.ofNat 64 v)) := by
  rw [exec_srRd, execSrRd, State.systemRegister_eq_lookup hi, lookup_of_mem s.registerValues_nodup h]
  rfl

/-- R293: a reserved number raises. -/
theorem exec_srRd_reserved (hi : s.seq = .idle) (h : n ∉ s.registerValues.map Prod.fst) :
    exec (.srRd n) s = .next (s.illegal .reservedRegister) := by
  rw [exec_srRd, execSrRd, State.systemRegister_eq_lookup hi, lookup_of_not_mem h]
  rfl

end Reads

end Registers

/-- Settles O20: the search of R41's table, and the raise where it finds nothing. -/
theorem srRdReads : Obligations.SrRdReads := by
  unfold Obligations.SrRdReads
  intro s n hi
  refine ⟨rfl, fun v h => exec_srRd_of_mem hi h, fun h hf => ?unlatched, fun h hf => ?latched⟩
  case unlatched =>
    rw [exec_srRd_reserved hi h, State.illegal_clear _ s hf]
    rfl
  case latched =>
    rw [exec_srRd_reserved hi h, State.illegal, State.raise_latched _ _ _ _ s hf]
    rfl

end Sys2Proof.Machine
end

section
/-! SUPPORT. What happens while a fault is latched (60_exceptions.md R312, R314): every transaction is refused but those
with the opcode of `FACK`, `SRST` or `SR.RD`, and no raise changes the latch. -/

namespace Sys2Proof.Machine

section Words

/-- R295, R312: the opcodes of the three exceptions. -/
theorem executesWhileLatched_iff (cw : CommandWord) :
    executesWhileLatched cw = true ↔ opcodeOf cw = 0x01#8 ∨ opcodeOf cw = 0x02#8 ∨ opcodeOf cw = 0x03#8 := by
  simp [executesWhileLatched, or_assoc]

/-- R295: an operation executes while a fault is latched exactly when its opcode is one of the three. -/
theorem executesWhileLatched_encode (i : Instr) : executesWhileLatched (encode i) = runsLatched i := by
  cases i <;> simp [executesWhileLatched, runsLatched, encode]

/-- R295: an operation that does not execute while a fault is latched is an ordinary one. -/
theorem exec_ordinary_of_not_runsLatched {i : Instr} (h : runsLatched i = false) (s : State) :
    ∃ body, exec i s = .next (s.ordinary body) := by
  cases i with
  | fack => exact nomatch h
  | srst => exact nomatch h
  | srRd n => exact nomatch h
  | _ => exact ⟨_, rfl⟩

/-- R295: the operations that execute while a fault is latched. -/
theorem runsLatched_iff (i : Instr) : runsLatched i = true ↔ i = .fack ∨ i = .srst ∨ ∃ n, i = .srRd n := by
  cases i <;> simp [runsLatched]

end Words

section Steps

variable {s : State} {t : Transaction} {rest : List Transaction}

/-- R312: any word without one of the three opcodes, legal or not, is refused while a fault is latched. -/
theorem step_refused (hi : s.seq = .idle) (hin : s.hostIn = t :: rest) (hf : s.flt.kind ≠ .noFault)
    (hcw : executesWhileLatched t.cw = false) : step s = .next (s.accept t rest).refuse := by
  cases hd : decode t.cw with
  | legal i =>
    have hruns : runsLatched i = false := by
      rw [← executesWhileLatched_encode, ← (decode_eq_legal_iff t.cw i).1 hd, hcw]
    obtain ⟨body, hbody⟩ := exec_ordinary_of_not_runsLatched hruns (s.accept t rest)
    rw [step_of_legal hi hin hd, hbody, State.ordinary_latched body (s.accept t rest) hf]
  | illegal e =>
    have hrefused : ¬ ((s.accept t rest).flt.kind = .noFault ∨ executesWhileLatched t.cw = true) := by simp [hf, hcw]
    rw [step_of_illegal hi hin hd, State.rejectWord, if_neg hrefused]

/-- R314: a raise of an idle block that holds a fault is a completion and nothing else. -/
theorem State.raise_latched_idle (hi : s.seq = .idle) (hf : s.flt.kind ≠ .noFault) (k : FaultKind) (sub : Byte)
    (det : Half) (tbl : FaultTable) :
    s.raise k sub det tbl = { s with completions := ⟨k.code, 0#64⟩ :: s.completions } := by
  rw [State.raise_latched k sub det tbl s hf, ← hi]

/-- R314: a malformed word with one of the three opcodes raises `IllegalOp` while a fault is latched. -/
theorem step_malformed_latched (hi : s.seq = .idle) (hin : s.hostIn = t :: rest) (hf : s.flt.kind ≠ .noFault)
    (hcw : executesWhileLatched t.cw = true) {e : DecodeError} (hd : decode t.cw = .illegal e) :
    step s = .next { s with xs := t.xs, hostIn := rest, completions := ⟨7#4, 0#64⟩ :: s.completions } := by
  have hraise := State.raise_latched_idle (s := s.accept t rest) hi hf .illegalOp 0#8 (reasonOfDecodeError e).code
    .noTable
  rw [step_of_illegal hi hin hd, State.rejectWord, if_pos (.inr hcw), State.illegal, hraise]
  rfl

end Steps

/-- Settles O7: the refusal at the opcode, and the three exceptions by their opcodes. -/
theorem refusedWhileLatched : Obligations.RefusedWhileLatched := by
  unfold Obligations.RefusedWhileLatched
  intro s t rest hi hin hf
  refine ⟨fun hother => ?refused, fun i hd => ?exceptions⟩
  case refused =>
    have hcw : executesWhileLatched t.cw = false := by
      rw [← Bool.not_eq_true, executesWhileLatched_iff]
      tauto
    exact step_refused hi hin hf hcw
  case exceptions =>
    rw [← executesWhileLatched_encode, ← (decode_eq_legal_iff t.cw i).1 hd]
    exact executesWhileLatched_iff t.cw

section Latch

variable {s u : State} {t : Transaction} {rest : List Transaction}

/-- R314: `SR.RD`, completing or raising, leaves a latched fault alone. -/
theorem exec_srRd_keeps_latch (hf : s.flt.kind ≠ .noFault) (n : Byte) :
    ∃ u, exec (.srRd n) s = .next u ∧ u.flt = s.flt := by
  refine ⟨_, exec_srRd n s, ?_⟩
  split
  · rfl
  · exact if_neg hf

/-- R314: while a fault is latched, every operation but `FACK` and `SRST` leaves it alone. -/
theorem exec_keeps_latch (hf : s.flt.kind ≠ .noFault) {i : Instr} (hfack : i ≠ .fack) (hsrst : i ≠ .srst) :
    ∃ u, exec i s = .next u ∧ u.flt = s.flt := by
  cases hruns : runsLatched i with
  | false =>
    obtain ⟨body, hbody⟩ := exec_ordinary_of_not_runsLatched hruns s
    exact ⟨s.refuse, by rw [hbody, State.ordinary_latched body s hf], rfl⟩
  | true =>
    rcases (runsLatched_iff i).1 hruns with rfl | rfl | ⟨n, rfl⟩
    · exact absurd rfl hfack
    · exact absurd rfl hsrst
    · exact exec_srRd_keeps_latch hf n

/-- R314: a word the decoder rejects, raising or refused, leaves a latched fault alone. -/
theorem State.rejectWord_keeps_latch (hf : s.flt.kind ≠ .noFault) (cw : CommandWord) (e : DecodeError) :
    (s.rejectWord cw e).flt = s.flt := by
  unfold State.rejectWord
  split
  · exact if_neg hf
  · rfl

/-- R314: no transaction but a well-formed `FACK` or `SRST` changes a latched fault. -/
theorem step_keeps_latch (hi : s.seq = .idle) (hin : s.hostIn = t :: rest) (hf : s.flt.kind ≠ .noFault)
    (hfack : t.cw ≠ encode .fack) (hsrst : t.cw ≠ encode .srst) : ∃ u, step s = .next u ∧ u.flt = s.flt := by
  cases hd : decode t.cw with
  | legal i =>
    have hcw := (decode_eq_legal_iff t.cw i).1 hd
    rw [step_of_legal hi hin hd]
    exact exec_keeps_latch (s := s.accept t rest) hf (fun h => hfack (h ▸ hcw)) (fun h => hsrst (h ▸ hcw))
  | illegal e =>
    rw [step_of_illegal hi hin hd]
    exact ⟨_, rfl, State.rejectWord_keeps_latch (s := s.accept t rest) hf t.cw e⟩

/-- R293, R314: `SR.RD` of a reserved number while a fault is latched. -/
theorem step_srRd_reserved_latched (hi : s.seq = .idle) (hin : s.hostIn = t :: rest) (hf : s.flt.kind ≠ .noFault)
    {n : Byte} (hcw : t.cw = encode (.srRd n)) (hn : n ∉ s.registerValues.map Prod.fst) :
    step s = .next { s with xs := t.xs, hostIn := rest, completions := ⟨7#4, 0#64⟩ :: s.completions } := by
  have hd := (decode_eq_legal_iff t.cw (.srRd n)).2 hcw
  rw [step_of_legal hi hin hd, exec_srRd_reserved (s := s.accept t rest) hi hn, State.illegal,
    State.raise_latched_idle (s := s.accept t rest) hi hf]
  rfl

/-- R33: a block that takes a step with a transaction presented was idle. -/
theorem seq_idle_of_step (hst : step s = .next u) : s.seq = .idle := by
  by_contra hi
  rw [step_of_busy hi] at hst
  cases hst

end Latch

/-- Settles O8: what each kind of word leaves of the latch, and the two ways to a second fault. -/
theorem firstFaultWins : Obligations.FirstFaultWins := by
  unfold Obligations.FirstFaultWins
  intro s u t rest hin hf hst
  have hi := seq_idle_of_step hst
  refine ⟨fun hfack hsrst => ?kept, fun hop hw => ?malformed, fun n hcw hn => ?reserved⟩
  case kept =>
    obtain ⟨u', hu', hkept⟩ := step_keeps_latch hi hin hf hfack hsrst
    rw [hu'] at hst
    cases hst
    exact hkept
  case malformed =>
    cases hd : decode t.cw with
    | legal i =>
      have hlegal := (decode_decodes t.cw).rows.1 ⟨i, hd⟩
      exact absurd (hw.symm.trans hlegal) nofun
    | illegal e =>
      rw [step_malformed_latched hi hin hf ((executesWhileLatched_iff t.cw).2 hop) hd] at hst
      cases hst
      rfl
  case reserved =>
    rw [step_srRd_reserved_latched hi hin hf hcw hn] at hst
    cases hst
    rfl

end Sys2Proof.Machine
end

section
/-! SUPPORT. Which fault an operation can raise, and where (60_exceptions.md R309, R311): all the ways in which an
operation run with no fault latched can end. -/

namespace Sys2Proof.Machine

/-- R309, R311: the states in which the operation `i`, run from `s` with no fault latched, can be over. Either no fault
is latched, or one of the operation's own was raised over `s` itself, or one other than `IllegalOp` and
`UnsupportedRegister` was raised once its I/O had begun. -/
inductive State.EndsIn (i : Instr) (s : State) : State → Prop
  | clear {t : State} (h : t.flt.kind = .noFault) : EndsIn i s t
  | before {k : FaultKind} {sub : Byte} {det : Half} {tbl : FaultTable}
      (h : (k = .illegalOp ∧ det ∈ ownReasons i) ∨ k ∈ mayRaise i) : EndsIn i s (s.faulted k sub det tbl)
  | during {u : State} {k : FaultKind} {sub : Byte} {det : Half} {tbl : FaultTable} (hio : touchesTransport i = true)
      (hillegal : k ≠ .illegalOp) (hunsupported : k ≠ .unsupportedRegister) (h : k ∈ mayRaise i) :
      EndsIn i s (u.faulted k sub det tbl)

/-- R303: the kind of a codec fault. -/
def CodecFault.kind : CodecFault → FaultKind
  | .overflow => .fieldOverflow
  | .invalid _ => .invalidEncoding

/-- R303, R309: if the codec fails, then with a fault of `kinds`. -/
def FailsIn {α : Type} (kinds : List FaultKind) (r : Except CodecFault α) : Prop := ∀ e, r = .error e → e.kind ∈ kinds

section Codec

variable {α : Type} {kinds : List FaultKind}

theorem FailsIn.of_ok (v : α) : FailsIn kinds (.ok v) := nofun

theorem FailsIn.of_error {e : CodecFault} (h : e.kind ∈ kinds) : FailsIn (α := α) kinds (.error e) := by
  rintro _ ⟨⟩
  exact h

theorem textField_failsIn (arg : ByteString) (w : Byte) : FailsIn kinds (textField arg w) := .of_ok _

/-- R134. -/
theorem decimalField_failsIn (c : Nat) (w : Byte) (sc e : BitVec 4) :
    FailsIn [.fieldOverflow] (decimalField c w sc e) := by
  obtain ⟨f, -, h⟩ | h := decimalField_cases c w sc e <;> rw [h]
  · exact .of_ok f
  · exact .of_error (List.mem_singleton.2 rfl)

/-- R136. -/
theorem packedField_failsIn (c : Nat) (w : Byte) (sc e : BitVec 4) :
    FailsIn [.fieldOverflow] (packedField c w sc e) := by
  obtain ⟨f, -, h⟩ | h := packedField_cases c w sc e <;> rw [h]
  · exact .of_ok f
  · exact .of_error (List.mem_singleton.2 rfl)

/-- R303: no codec fault has another kind. -/
theorem failsIn_codec (r : Except CodecFault α) : FailsIn [.fieldOverflow, .invalidEncoding] r := by
  rintro (_ | i) -
  · exact .head _
  · exact .tail _ (.head _)

theorem decodeVerbatim_failsIn (f : ByteString) : FailsIn kinds (decodeVerbatim f) := .of_ok _

/-- R140. -/
theorem decodeNum_failsIn (f : ByteString) (sc : BitVec 4) : FailsIn [.invalidEncoding] (decodeNum f sc) := by
  obtain h | ⟨i, -, h⟩ := decodeNum_cases f sc <;> rw [h]
  · exact .of_ok _
  · exact .of_error (List.mem_singleton.2 rfl)

/-- R141. -/
theorem decodeBcd_failsIn (f : ByteString) (sc : BitVec 4) : FailsIn [.invalidEncoding] (decodeBcd f sc) := by
  obtain h | ⟨i, -, h⟩ := decodeBcd_cases f sc <;> rw [h]
  · exact .of_ok _
  · exact .of_error (List.mem_singleton.2 rfl)

/-- R243 line 6. -/
theorem decodeRegister_failsIn (e : RegDescriptor) (p : ByteString) :
    FailsIn [.invalidEncoding] (decodeRegister e p) := by
  unfold decodeRegister
  split
  · exact decodeBcd_failsIn p 0#4
  · exact .of_ok _

end Codec

section Endings

variable {i : Instr} {s u : State} (hf : s.flt.kind = .noFault)
include hf

/-- R305: the raise of a codec fault, where none is latched. -/
theorem State.raiseCodec_clear (e : CodecFault) :
    ∃ det, s.raiseCodec e = s.faulted e.kind 0#8 det .noTable := by
  cases e with
  | overflow => exact ⟨_, State.raiseCodec_overflow s hf⟩
  | invalid index => exact ⟨_, State.raiseCodec_invalid index s hf⟩

theorem State.raise_ends {k : FaultKind} {sub : Byte} {det : Half} {tbl : FaultTable} (h : k ∈ mayRaise i) :
    s.EndsIn i (s.raise k sub det tbl) := by
  rw [State.raise_clear k sub det tbl s hf]
  exact .before (.inr h)

theorem State.raiseCodec_ends {e : CodecFault} (h : e.kind ∈ mayRaise i) : s.EndsIn i (s.raiseCodec e) := by
  obtain ⟨det, hraise⟩ := State.raiseCodec_clear hf e
  rw [hraise]
  exact .before (.inr h)

/-- R308: a check that raises `IllegalOp` for a reason of the operation's own. -/
theorem State.guarded_ends {p : Prop} [Decidable p] {r : IllegalReason} (hr : r.code ∈ ownReasons i)
    (hu : ¬ p → s.EndsIn i u) : s.EndsIn i (if p then s.illegal r else u) := by
  split
  next =>
    rw [State.illegal_clear r s hf]
    exact .before (.inl ⟨rfl, hr⟩)
  next hp => exact hu hp

/-- R121, R133: the end of every `FENC.*`. -/
theorem State.storeField_ends {w : Byte} {r : Except CodecFault ByteString} (hr : FailsIn (mayRaise i) r) :
    s.EndsIn i (s.storeField w r) := by
  cases r with
  | error e => exact State.raiseCodec_ends hf (hr e rfl)
  | ok f => exact .clear hf

/-- R166: the end of every `FPACK.*`. -/
theorem State.packField_ends {w : Byte} {r : Except CodecFault ByteString} (hreasons : ownReasons i = [4, 5])
    (hr : FailsIn (mayRaise i) r) : s.EndsIn i (s.packField w r) := by
  have hcommand : IllegalReason.noCommand.code ∈ ownReasons i := hreasons ▸ .head _
  have hcapacity : IllegalReason.capacity.code ∈ ownReasons i := hreasons ▸ .tail _ (.head _)
  refine State.guarded_ends hf hcommand fun _ => State.guarded_ends hf hcapacity fun _ => ?_
  cases r with
  | error e => exact State.raiseCodec_ends hf (hr e rfl)
  | ok f => exact .clear hf

/-- R139 to R141: the result steps of a decode. -/
theorem State.deliver_ends {r : Except CodecFault FieldValue} (hr : FailsIn (mayRaise i) r) :
    s.EndsIn i (s.deliver r) := by
  cases r with
  | error e => exact State.raiseCodec_ends hf (hr e rfl)
  | ok v => exact .clear hf

/-- R139, R303: the end of every `FDEC.*`; a wrong length is an `InvalidEncoding` too. -/
theorem State.decodeArgument_ends {w : Byte} {dec : ByteString → Except CodecFault FieldValue}
    (hlength : .invalidEncoding ∈ mayRaise i) (hdec : ∀ f, FailsIn (mayRaise i) (dec f)) :
    s.EndsIn i (s.decodeArgument w dec) := by
  unfold State.decodeArgument
  split
  · exact State.deliver_ends hf (hdec _)
  · exact State.raiseCodec_ends hf hlength

/-- R173: the end of every `FUNPK.*`. -/
theorem State.unpackField_ends {w : Byte} {dec : ByteString → Except CodecFault FieldValue}
    (hreasons : ownReasons i = [3]) (hdec : ∀ f, FailsIn (mayRaise i) (dec f)) : s.EndsIn i (s.unpackField w dec) := by
  have hrange : IllegalReason.outOfRange.code ∈ ownReasons i := hreasons ▸ .head _
  exact State.guarded_ends hf hrange fun _ => State.deliver_ends hf (hdec _)

/-- R260: the status check before any I/O, as `ST.DECODE` makes it. -/
theorem State.statusCheck_ends {st1 st2 : Byte} {k : State → State} (h : .deviceFault ∈ mayRaise i)
    (hk : s.EndsIn i (k s)) : s.EndsIn i (s.statusCheck st1 st2 k) := by
  unfold State.statusCheck
  split
  · exact State.raise_ends hf h
  · exact hk

end Endings

section Transport

variable {i : Instr} {s u : State} {n : Nat}

/-- R309: every operation with I/O has the two faults of a read. -/
theorem readFaults_mem_mayRaise (hio : touchesTransport i = true) :
    .communicationTimeout ∈ mayRaise i ∧ .protocolViolation ∈ mayRaise i := by
  cases i with
  | cmdSend n | cmdSendr n | xpRead n | regRead id => simp [mayRaise]
  | _ => exact nomatch hio

/-- R311: a raise over a state with nothing latched, once I/O has begun. -/
theorem State.raise_ends_during (hio : touchesTransport i = true) (hu : u.flt.kind = .noFault) {k : FaultKind}
    {sub : Byte} {det : Half} {tbl : FaultTable} (hillegal : k ≠ .illegalOp) (hunsupported : k ≠ .unsupportedRegister)
    (h : k ∈ mayRaise i) : s.EndsIn i (u.raise k sub det tbl) := by
  rw [State.raise_clear k sub det tbl u hu]
  exact .during hio hillegal hunsupported h

/-- R202 line 8, R206: the check of a reply. -/
theorem State.checkReply_ends (hio : touchesTransport i = true) (hu : u.flt.kind = .noFault) {k : State → State}
    (h : .deviceFault ∈ mayRaise i) (hk : s.EndsIn i (k u)) : s.EndsIn i (u.checkReply k) := by
  unfold State.checkReply State.statusCheck
  split
  · exact hk
  · split
    · exact State.raise_ends_during hio hu nofun nofun h
    · exact hk

/-- R243 lines 5 to 7: the decode of a register's payload. -/
theorem State.deliverRegister_ends (hio : touchesTransport i = true) (hu : u.flt.kind = .noFault)
    (h : .invalidEncoding ∈ mayRaise i) (e : RegDescriptor) : s.EndsIn i (u.deliverRegister e) := by
  have hidle : (u.enterPhase .idle).flt.kind = .noFault := hu
  rw [State.deliverRegister]
  cases hr : decodeRegister e (u.rpl.mem.readBytes 1 e.width.toNat) with
  | ok v => exact .clear hu
  | error err =>
    have hkind : err.kind = .invalidEncoding := List.mem_singleton.1 (decodeRegister_failsIn e _ err hr)
    obtain ⟨det, hraise⟩ := State.raiseCodec_clear hidle err
    show s.EndsIn i ((u.enterPhase .idle).raiseCodec err)
    rw [hraise, hkind]
    exact .during hio nofun nofun h

/-- R222 to R225, R309: an operation whose checks have passed ends in a fault of its read, or as its finish does, over
the command, the configuration and the clear latch that its read began with. -/
theorem exec_io_ends (hf : s.flt.kind = .noFault) (hio : touchesTransport i = true)
    (hb : s.beforeRead i = some (u, n))
    (hfinish : ∀ r : State, r.flt.kind = .noFault → r.cmdId = u.cmdId → r.cfg = u.cfg →
      s.EndsIn i (ioFinish s.params i r)) : ∃ t, exec i s = .next t ∧ s.EndsIn i t := by
  obtain ⟨htimeout, hviolation⟩ := readFaults_mem_mayRaise hio
  obtain ⟨-, -, -, -, -, hflt, -⟩ := s.beforeRead_frame u i n hb
  obtain ⟨chunks, -, -, -, ⟨reply, -, he⟩ | ⟨got, -, he⟩ | ⟨pre, got, excess, -, -, he⟩⟩ := exec_io_cases s u i n hf hb
  · have hclear : u.flt.kind = .noFault := hflt ▸ hf
    exact ⟨_, he, hfinish _ hclear rfl rfl⟩
  · exact ⟨_, he, .during hio nofun nofun htimeout⟩
  · exact ⟨_, he, .during hio nofun nofun hviolation⟩

/-- R201: a send ends at its checks, or goes on to its read. -/
theorem exec_send_ends (hf : s.flt.kind = .noFault) {k : State → State}
    (he : exec i s = .next (s.ordinary fun s => s.sendChecked n k)) (hreasons : ownReasons i = [4, 5])
    (hpass : s.cmd.len ≠ 0#16 → n ≤ s.params.rplCap → ∃ t, exec i s = .next t ∧ s.EndsIn i t) :
    ∃ t, exec i s = .next t ∧ s.EndsIn i t := by
  by_cases h0 : s.cmd.len = 0#16
  · exact ⟨_, exec_sends_noCommand hf h0 he, .before (.inl ⟨rfl, hreasons ▸ .head _⟩)⟩
  · by_cases hn : s.params.rplCap < n
    · exact ⟨_, exec_sends_capacity hf h0 hn he, .before (.inl ⟨rfl, hreasons ▸ .tail _ (.head _)⟩)⟩
    · exact hpass h0 (Nat.le_of_not_lt hn)

end Transport

section Operations

variable {s : State} (hf : s.flt.kind = .noFault)
include hf

/-- R295: with nothing latched, an ordinary operation ends as its body does. -/
theorem exec_ordinary_ends {i : Instr} {body : State → State} (he : exec i s = .next (s.ordinary body))
    (hb : s.EndsIn i (body s)) : ∃ t, exec i s = .next t ∧ s.EndsIn i t :=
  ⟨body s, by rw [he, State.ordinary_clear body s hf], hb⟩

theorem exec_srRd_ends (n : Byte) : ∃ t, exec (.srRd n) s = .next t ∧ s.EndsIn (.srRd n) t := by
  refine ⟨_, exec_srRd n s, ?_⟩
  split
  · exact .clear hf
  · rw [State.illegal_clear _ s hf]
    exact .before (.inl ⟨rfl, .head _⟩)

theorem exec_cmdSend_ends (n : Half) : ∃ t, exec (.cmdSend n) s = .next t ∧ s.EndsIn (.cmdSend n) t := by
  refine exec_send_ends hf (exec_cmdSend n s) rfl fun h0 hn => ?_
  have hdevice : .deviceFault ∈ mayRaise (.cmdSend n) := .tail _ (.head _)
  exact exec_io_ends hf rfl (State.beforeRead_cmdSend h0 hn) fun r hr _ _ =>
    State.checkReply_ends (u := r.latchReply n.toNat) rfl hr hdevice (.clear hr)

theorem exec_cmdSendr_ends (n : Half) : ∃ t, exec (.cmdSendr n) s = .next t ∧ s.EndsIn (.cmdSendr n) t := by
  refine exec_send_ends hf (exec_cmdSendr n s) rfl fun h0 hn => ?_
  have hbefore : s.beforeRead (.cmdSendr n) = some (s.sent, n.toNat) := if_neg (not_or.2 ⟨h0, Nat.not_lt.2 hn⟩)
  exact exec_io_ends hf rfl hbefore fun r hr _ _ => .clear hr

theorem exec_xpRead_ends (n : Half) : ∃ t, exec (.xpRead n) s = .next t ∧ s.EndsIn (.xpRead n) t := by
  by_cases hn : s.params.rplCap < n.toNat
  · exact ⟨_, exec_check_fails hf (exec_xpRead n s) hn, .before (.inl ⟨rfl, .head _⟩)⟩
  · have hbefore : s.beforeRead (.xpRead n) = some (s.withoutReply, n.toNat) := if_neg hn
    exact exec_io_ends hf rfl hbefore fun r hr _ _ => .clear hr

theorem exec_regLookup_ends (id : Byte) : ∃ t, exec (.regLookup id) s = .next t ∧ s.EndsIn (.regLookup id) t := by
  refine exec_ordinary_ends hf (exec_regLookup id s) ?_
  split
  · exact State.raise_ends hf (.head _)
  · exact .clear hf

/-- R243, R246: the read-register command, which is still in `CMDID` after the read, keeps `DeviceFault` out. -/
theorem exec_regRead_ends (id : Byte) : ∃ t, exec (.regRead id) s = .next t ∧ s.EndsIn (.regRead id) t := by
  cases hl : lookupRegister s.params id with
  | none => exact ⟨_, exec_regRead_absent hf hl, .before (.inr (.tail _ (.tail _ (.head _))))⟩
  | some e =>
    have he : e ∈ s.params.regTable := List.mem_of_find?_eq_some hl
    have hid : e.id = id := by simpa using List.find?_some hl
    subst hid
    refine exec_io_ends hf rfl (State.beforeRead_regRead he) fun r hr hcmd hcfg => ?_
    have hregister : r.cmdId = r.params.rdregId := hcmd.trans (congrArg (fun c => c.params.rdregId) hcfg).symm
    have hencoding : .invalidEncoding ∈ mayRaise (.regRead e.id) := .tail _ (.head _)
    rw [ioFinish_regRead he hregister]
    exact State.deliverRegister_ends (u := r.latchReply e.width.toNat) rfl hr hencoding e

theorem exec_st3Decode_ends : ∃ t, exec .st3Decode s = .next t ∧ s.EndsIn .st3Decode t := by
  refine exec_ordinary_ends hf (exec_st3Decode s) ?_
  split
  · exact State.raise_ends hf (.head _)
  · exact .clear hf

/-- R309, R311: how every operation ends when nothing is latched. Each `rfl` and each member of a list is an entry of
the table of R309. -/
theorem exec_ends (i : Instr) : ∃ t, exec i s = .next t ∧ s.EndsIn i t := by
  cases i with
  | nop => exact exec_ordinary_ends hf (exec_nop s) (.clear hf)
  | fack => exact ⟨_, exec_fack s, .clear rfl⟩
  | srst => exact ⟨_, exec_srst s, .clear rfl⟩
  | srRd n => exact exec_srRd_ends hf n
  | argClr => exact exec_ordinary_ends hf (exec_argClr s) (.clear hf)
  | argPush b =>
    exact exec_ordinary_ends hf (exec_argPush b s) (State.guarded_ends hf (.head _) fun _ => .clear hf)
  | argRes => exact exec_ordinary_ends hf (exec_argRes s) (State.guarded_ends hf (.head _) fun _ => .clear hf)
  | resRd idx => exact exec_ordinary_ends hf (exec_resRd idx s) (State.guarded_ends hf (.head _) fun _ => .clear hf)
  | payRd idx => exact exec_ordinary_ends hf (exec_payRd idx s) (State.guarded_ends hf (.head _) fun _ => .clear hf)
  | fencTxt w => exact exec_ordinary_ends hf (exec_fencTxt w s) (State.storeField_ends hf (textField_failsIn _ w))
  | fencNum w sc e =>
    exact exec_ordinary_ends hf (exec_fencNum w sc e s) (State.storeField_ends hf (decimalField_failsIn _ w sc e))
  | fencNumd w => exact exec_ordinary_ends hf (exec_fencNumd w s) (State.storeField_ends hf (failsIn_codec _))
  | fencBcd w sc e =>
    exact exec_ordinary_ends hf (exec_fencBcd w sc e s) (State.storeField_ends hf (packedField_failsIn _ w sc e))
  | fencBcdd w => exact exec_ordinary_ends hf (exec_fencBcdd w s) (State.storeField_ends hf (failsIn_codec _))
  | fencRaw w => exact exec_ordinary_ends hf (exec_fencRaw w s) (State.storeField_ends hf (failsIn_codec _))
  | fdecTxt w =>
    exact exec_ordinary_ends hf (exec_fdecTxt w s) (State.decodeArgument_ends hf (.head _) decodeVerbatim_failsIn)
  | fdecNum w sc =>
    exact exec_ordinary_ends hf (exec_fdecNum w sc s)
      (State.decodeArgument_ends hf (.head _) fun f => decodeNum_failsIn f sc)
  | fdecBcd w sc =>
    exact exec_ordinary_ends hf (exec_fdecBcd w sc s)
      (State.decodeArgument_ends hf (.head _) fun f => decodeBcd_failsIn f sc)
  | fdecRaw w =>
    exact exec_ordinary_ends hf (exec_fdecRaw w s) (State.decodeArgument_ends hf (.head _) decodeVerbatim_failsIn)
  | fpackTxt w => exact exec_ordinary_ends hf (exec_fpackTxt w s) (State.packField_ends hf rfl (textField_failsIn _ w))
  | fpackNum w sc e =>
    exact exec_ordinary_ends hf (exec_fpackNum w sc e s) (State.packField_ends hf rfl (decimalField_failsIn _ w sc e))
  | fpackNumd w => exact exec_ordinary_ends hf (exec_fpackNumd w s) (State.packField_ends hf rfl (failsIn_codec _))
  | fpackBcd w sc e =>
    exact exec_ordinary_ends hf (exec_fpackBcd w sc e s) (State.packField_ends hf rfl (packedField_failsIn _ w sc e))
  | fpackBcdd w => exact exec_ordinary_ends hf (exec_fpackBcdd w s) (State.packField_ends hf rfl (failsIn_codec _))
  | fpackRaw w => exact exec_ordinary_ends hf (exec_fpackRaw w s) (State.packField_ends hf rfl (failsIn_codec _))
  | funpkTxt w =>
    exact exec_ordinary_ends hf (exec_funpkTxt w s) (State.unpackField_ends hf rfl decodeVerbatim_failsIn)
  | funpkNum w sc =>
    exact exec_ordinary_ends hf (exec_funpkNum w sc s) (State.unpackField_ends hf rfl fun f => decodeNum_failsIn f sc)
  | funpkBcd w sc =>
    exact exec_ordinary_ends hf (exec_funpkBcd w sc s) (State.unpackField_ends hf rfl fun f => decodeBcd_failsIn f sc)
  | funpkRaw w =>
    exact exec_ordinary_ends hf (exec_funpkRaw w s) (State.unpackField_ends hf rfl decodeVerbatim_failsIn)
  | cmdBegin id => exact exec_ordinary_ends hf (exec_cmdBegin id s) (.clear hf)
  | cmdPush b =>
    exact exec_ordinary_ends hf (exec_cmdPush b s) (State.guarded_ends hf (.head _) fun _ =>
      State.guarded_ends hf (.tail _ (.head _)) fun _ => .clear hf)
  | csum => exact exec_ordinary_ends hf (exec_csum s) (.clear hf)
  | cmdSend n => exact exec_cmdSend_ends hf n
  | cmdSendr n => exact exec_cmdSendr_ends hf n
  | xpRead n => exact exec_xpRead_ends hf n
  | regLookup id => exact exec_regLookup_ends hf id
  | regRead id => exact exec_regRead_ends hf id
  | stDecode => exact exec_ordinary_ends hf (exec_stDecode s) (State.statusCheck_ends hf (.head _) (.clear hf))
  | st3Decode => exact exec_st3Decode_ends hf

end Operations

/-- Settles O15: a fault with nothing written before it was raised over the state the operation began in. -/
theorem faultsArePrecise : Obligations.FaultsArePrecise := by
  unfold Obligations.FaultsArePrecise
  intro i s t hf he hfault hprecise
  obtain ⟨u, hu, hends⟩ := exec_ends hf i
  rw [hu] at he
  cases he
  cases hends with
  | clear h => exact absurd h hfault
  | before h => rfl
  | during hio hillegal hunsupported h =>
    rcases hprecise with hnone | hk | hk
    · exact absurd (hio.symm.trans hnone) nofun
    · exact absurd hk hillegal
    · exact absurd hk hunsupported

/-- Settles O16: every fault an operation ends with is one of its row. -/
theorem raisesOnlyItsFaults : Obligations.RaisesOnlyItsFaults := by
  unfold Obligations.RaisesOnlyItsFaults
  intro i s t hf he hfault
  obtain ⟨u, hu, hends⟩ := exec_ends hf i
  rw [hu] at he
  cases he
  cases hends with
  | clear h => exact absurd h hfault
  | before h => exact h
  | during hio hillegal hunsupported h => exact .inr h

end Sys2Proof.Machine
end
